-- ==== Sys2Proof/Word.lean ====
section
/-! DEFINITION. The data shapes of CORE: bytes, words, blocks, the key, the State matrix and the
schedule (00_scope.md R11). A word is four bytes and never a 32-bit integer (20_memory.md R57), so
every shape wider than a byte is a vector of bytes. -/

namespace Sys2Proof

/-- A byte: bit 7 is the most significant bit (R11). -/
abbrev Byte := BitVec 8

/-- A word `w = (w[0], w[1], w[2], w[3])`; `w[0]` is the "first byte" (R11, R57). -/
abbrev Word := Vector Byte 4

/-- A block: exactly 16 bytes (R11). -/
abbrev Block := Vector Byte 16

/-- The cipher key: exactly 32 bytes (R21, R85). -/
abbrev Key := Vector Byte 32

/-- The State `ST[r][c]`: four rows `r` of four columns `c` (R11, R23). -/
abbrev Matrix := Vector (Vector Byte 4) 4

/-- The round-key schedule `W[0] .. W[59]`; `W[i][k]` is byte `k` of word `i` (R22). -/
abbrev Schedule := Vector Word 60

/-- A forward substitution table that is a bijection on bytes, together with its inverse
(41_substitution_tables.md R132). -/
abbrev SBox := Equiv.Perm Byte

end Sys2Proof
end

