-- ==== Sys2Proof/Syntax.lean ====
section
/-! DEFINITION. The commands of CORE: one constructor per row of spec/opcode_table.json. A command
carries no immediate and no register number (30_encoding.md R80): every operand is in a fixed, named
register (R84), so no constructor has an argument. -/

namespace Sys2Proof

/-- The 32 commands HOST can start by writing `CMD` (R81, R82). -/
inductive Instr where
  /-- `ECB_ENC`, command word 0x00 (R205). -/
  | ecbEnc
  /-- `ECB_DEC`, command word 0x01 (R206). -/
  | ecbDec
  /-- `CBC_ENC`, command word 0x02 (R207). -/
  | cbcEnc
  /-- `CBC_DEC`, command word 0x03 (R208). -/
  | cbcDec
  /-- `BLK_ENC`, command word 0x04 (R171). -/
  | blkEnc
  /-- `BLK_DEC`, command word 0x05 (R172). -/
  | blkDec
  /-- `KEYEXP`, command word 0x06 (R149). -/
  | keyExp
  /-- `XTIME`, command word 0x80 (R111). -/
  | xtime
  /-- `MUL02`, command word 0x81 (R112). -/
  | mul02
  /-- `MUL03`, command word 0x82 (R113). -/
  | mul03
  /-- `MUL09`, command word 0x83 (R114). -/
  | mul09
  /-- `MUL0B`, command word 0x84 (R115). -/
  | mul0b
  /-- `MUL0D`, command word 0x85 (R116). -/
  | mul0d
  /-- `MUL0E`, command word 0x86 (R117). -/
  | mul0e
  /-- `SBOXRD`, command word 0x88 (R130). -/
  | sboxRd
  /-- `INVSBOXRD`, command word 0x89 (R131). -/
  | invSboxRd
  /-- `RCONRD`, command word 0x8a (R141). -/
  | rconRd
  /-- `RDW`, command word 0x8b (R150). -/
  | rdw
  /-- `ROTWORD`, command word 0x8c (R142). -/
  | rotWord
  /-- `SUBWORD`, command word 0x8d (R143). -/
  | subWord
  /-- `LOADST`, command word 0x90 (R160). -/
  | loadSt
  /-- `UNLOADST`, command word 0x91 (R161). -/
  | unloadSt
  /-- `SUBBYTES`, command word 0x92 (R162). -/
  | subBytes
  /-- `SHIFTROWS`, command word 0x93 (R163). -/
  | shiftRows
  /-- `MIXCOLUMNS`, command word 0x94 (R164). -/
  | mixColumns
  /-- `ADDROUNDKEY`, command word 0x95 (R165). -/
  | addRoundKey
  /-- `INVSUBBYTES`, command word 0x96 (R166). -/
  | invSubBytes
  /-- `INVSHIFTROWS`, command word 0x97 (R167). -/
  | invShiftRows
  /-- `INVMIXCOLUMNS`, command word 0x98 (R168). -/
  | invMixColumns
  /-- `PAD`, command word 0x9a (R201). -/
  | pad
  /-- `UNPAD`, command word 0x9b (R202). -/
  | unpad
  /-- `XORPREV`, command word 0x9c (R203). -/
  | xorPrev
deriving DecidableEq, Repr

end Sys2Proof
end

