-- ==== Sys2Proof/WellFormed.lean ====
section
/-! DEFINITION. Which command words are well formed (30_encoding.md R80, R83). A command has no
operand of its own (R84), so there is nothing to check in a term of `Instr`: what can be ill formed is
the 8-bit word written to `CMD`. Each clause of R83 is one check. -/

namespace Sys2Proof

/-- `CMD[7]`, `UNIT`: 0 selects format C, 1 selects format U (R29, R80). -/
def cmdUnit (c : Byte) : Bool := c.getLsbD 7

/-- `CMD[6:3]`, which must be 0 in format C (R80). -/
def cmdZeroC (c : Byte) : BitVec 4 := c.extractLsb' 3 4

/-- `CMD[2:0]`, the fields `BLKSEL`, `MODE` and `DIR` of format C (R80). -/
def cmdSelect (c : Byte) : BitVec 3 := c.extractLsb' 0 3

/-- `CMD[6:5]`, which must be 0 in format U (R80). -/
def cmdZeroU (c : Byte) : BitVec 2 := c.extractLsb' 5 2

/-- `CMD[4:0]`, the field `UOP` of format U (R80). -/
def cmdUop (c : Byte) : BitVec 5 := c.extractLsb' 0 5

/-- R83(a): format C with a bit of 6:3 set (0x08 to 0x7F). -/
def badZeroC (c : Byte) : Bool := !cmdUnit c && cmdZeroC c != 0

/-- R83(b): the word 0x07. -/
def badSelect (c : Byte) : Bool := c == 0x07

/-- R83(c): format U with a bit of 6:5 set (0xA0 to 0xFF). -/
def badZeroU (c : Byte) : Bool := cmdUnit c && cmdZeroU c != 0

/-- R83(d): format U with `UOP` 7, 14, 15, 25, 29, 30 or 31. -/
def badUop (c : Byte) : Bool :=
  cmdUnit c && cmdZeroU c == 0 && [7, 14, 15, 25, 29, 30, 31].contains (cmdUop c).toNat

/-- A command word is reserved when one of the four clauses of R83 holds of it. -/
def reservedWord (c : Byte) : Bool := badZeroC c || badSelect c || badZeroU c || badUop c

/-- A command word that encodes a command. -/
def wellFormedWord (c : Byte) : Bool := !reservedWord c

/-- Every command is well formed as syntax: it names no operand (R80, R84). -/
def Instr.wellFormed (_ : Instr) : Bool := true

end Sys2Proof
end

