-- ==== Sys2Proof/Decode.lean ====
section
/-! DEFINITION. The decoder of the command word and, after it, the encoder (30_encoding.md R80 to R83).
The decoder is total on bytes: a word that encodes no command is rejected under the name of the clause
of R83 that reserves it. -/

namespace Sys2Proof

/-- Why a command word is reserved: the clause of R83. -/
inductive ReservedReason where
  /-- R83(a): a bit of 6:3 is 1 in format C. -/
  | zeroBitsFormatC
  /-- R83(b): the word 0x07. -/
  | selectSeven
  /-- R83(c): a bit of 6:5 is 1 in format U. -/
  | zeroBitsFormatU
  /-- R83(d): a `UOP` that no command has. -/
  | unusedUop
deriving DecidableEq, Repr

/-- What the decoder answers: a command, or the reason the word is reserved. -/
inductive Decoded where
  | command (i : Instr)
  | reserved (why : ReservedReason)
deriving DecidableEq, Repr

/-- Format C by `BLKSEL MODE DIR` (R81). -/
def decodeSelect (n : Nat) : Decoded :=
  match n with
  | 0 => .command .ecbEnc
  | 1 => .command .ecbDec
  | 2 => .command .cbcEnc
  | 3 => .command .cbcDec
  | 4 => .command .blkEnc
  | 5 => .command .blkDec
  | 6 => .command .keyExp
  | _ => .reserved .selectSeven

/-- Format U by `UOP` (R82). -/
def decodeUop (n : Nat) : Decoded :=
  match n with
  | 0 => .command .xtime
  | 1 => .command .mul02
  | 2 => .command .mul03
  | 3 => .command .mul09
  | 4 => .command .mul0b
  | 5 => .command .mul0d
  | 6 => .command .mul0e
  | 8 => .command .sboxRd
  | 9 => .command .invSboxRd
  | 10 => .command .rconRd
  | 11 => .command .rdw
  | 12 => .command .rotWord
  | 13 => .command .subWord
  | 16 => .command .loadSt
  | 17 => .command .unloadSt
  | 18 => .command .subBytes
  | 19 => .command .shiftRows
  | 20 => .command .mixColumns
  | 21 => .command .addRoundKey
  | 22 => .command .invSubBytes
  | 23 => .command .invShiftRows
  | 24 => .command .invMixColumns
  | 26 => .command .pad
  | 27 => .command .unpad
  | 28 => .command .xorPrev
  | _ => .reserved .unusedUop

/-- The command a word written to `CMD` encodes (R80): bit 7 alone tells the format. -/
def decode (c : Byte) : Decoded :=
  if cmdUnit c then
    if cmdZeroU c = 0 then decodeUop (cmdUop c).toNat else .reserved .zeroBitsFormatU
  else
    if cmdZeroC c = 0 then decodeSelect (cmdSelect c).toNat else .reserved .zeroBitsFormatC

/-- The command of a decoder's answer, where it is one. -/
def Decoded.instr? : Decoded → Option Instr
  | .command i => some i
  | .reserved _ => none

/-- The decoder on an instruction given as `nbits` table bits: CORE has one length, 8 bits (R80), and a
wider number encodes nothing. -/
def decodeTableWord (nbits w : Nat) : Option Instr :=
  if w % 2 ^ nbits < 256 then (decode (BitVec.ofNat 8 (w % 2 ^ nbits))).instr? else none

/-- A format C word from its fields `BLKSEL`, `MODE`, `DIR` (R80). -/
def formatC (blksel mode dir : Nat) : Byte := BitVec.ofNat 8 (blksel * 4 + mode * 2 + dir)

/-- A format U word from its `UOP` (R80). -/
def formatU (uop : Nat) : Byte := BitVec.ofNat 8 (128 + uop)

/-- The command word of each command (R81, R82). -/
def encode : Instr → Byte
  | .ecbEnc => formatC 0 0 0
  | .ecbDec => formatC 0 0 1
  | .cbcEnc => formatC 0 1 0
  | .cbcDec => formatC 0 1 1
  | .blkEnc => formatC 1 0 0
  | .blkDec => formatC 1 0 1
  | .keyExp => formatC 1 1 0
  | .xtime => formatU 0
  | .mul02 => formatU 1
  | .mul03 => formatU 2
  | .mul09 => formatU 3
  | .mul0b => formatU 4
  | .mul0d => formatU 5
  | .mul0e => formatU 6
  | .sboxRd => formatU 8
  | .invSboxRd => formatU 9
  | .rconRd => formatU 10
  | .rdw => formatU 11
  | .rotWord => formatU 12
  | .subWord => formatU 13
  | .loadSt => formatU 16
  | .unloadSt => formatU 17
  | .subBytes => formatU 18
  | .shiftRows => formatU 19
  | .mixColumns => formatU 20
  | .addRoundKey => formatU 21
  | .invSubBytes => formatU 22
  | .invShiftRows => formatU 23
  | .invMixColumns => formatU 24
  | .pad => formatU 26
  | .unpad => formatU 27
  | .xorPrev => formatU 28

end Sys2Proof
end

