-- ==== Sys2Proof/Config.lean ====
section
/-! DEFINITION. What an implementation fixes: the fixed parameters of 00_scope.md R6 and the open
parameters of R7. An open parameter is an opaque constant with no body: nothing can be proved about
its value, so a claim about the model holds for every value the spec allows. -/

namespace Sys2Proof.Config

/-- `Nb`: columns of the State (R6). -/
def nb : Nat := 4
/-- `Nk`: 32-bit words in the key (R6). -/
def nk : Nat := 8
/-- `Nr`: rounds (R6). -/
def nr : Nat := 14
/-- `KEY_BYTES` (R6). -/
def keyBytes : Nat := 32
/-- `BLOCK_SIZE`: bytes per block (R6). -/
def blockSize : Nat := 16
/-- `SCHED_WORDS = Nb*(Nr+1)` (R6). -/
def schedWords : Nat := nb * (nr + 1)
/-- `SCHED_BYTES` (R6). -/
def schedBytes : Nat := 4 * schedWords
/-- `ROUND_KEYS = Nr+1` (R6). -/
def roundKeys : Nat := nr + 1
/-- `TABLE_ENTRIES`: entries of each substitution table (R6). -/
def tableEntries : Nat := 256
/-- `RCON_ENTRIES`: round-constant entries, index 0..10 (R6). -/
def rconEntries : Nat := 11
/-- `REDUCTION`: the constant XORed in by `xtimes` (R6). -/
def reduction : Byte := 0x1B
/-- `MIX_COEF`: forward column-mix coefficients, in first-row order (R6). -/
def mixCoef : Vector Byte 4 := #v[2, 3, 1, 1]
/-- `INVMIX_COEF`: inverse column-mix coefficients, in first-row order (R6). -/
def invMixCoef : Vector Byte 4 := #v[14, 11, 13, 9]

/-- The contents of the forward substitution ROM `SBOX`, and through its inverse those of `INVSBOX`:
an open parameter constrained only to be a bijection on bytes (R7(a), R132, R133; notes/assumptions/1.md). -/
opaque sbox : SBox

/-- The 16 bytes that read number `n` of the device `IVSRC` delivers: a draw under no law
(R7(b), R264; notes/assumptions/2.md). -/
opaque ivDraw : Nat → Block

/-- What sequencer register number `r` holds between commands after draw number `n`: any value
(93_implementation_defined.md U16; notes/assumptions/3.md). -/
opaque seqDraw : Nat → Nat → Nat

/-- The elapsed-time result of contract call number `n`: a draw that no rule reads
(R7(c), R263; notes/assumptions/14.md). -/
opaque durationDraw : Nat → Nat

end Sys2Proof.Config
end

