-- ==== Sys2Proof/Machine/State.lean ====
section
/-! DEFINITION. The architectural state of CORE as plain data (10_state.md R20 to R44), the
environment fields through which HOST and IVSRC act (00_scope.md R9), why a step can stop, and the
state after reset (R43, R280). -/

namespace Sys2Proof.Machine

/-- Why CORE could stop with a fault. No rule makes CORE stop: an exception ends a command and leaves
CORE idle and ready for the next one (60_exceptions.md R259), so there is no fault, and none is raised
(safe: no claim about a next state is lost). -/
inductive Fault where
deriving DecidableEq, Repr

/-- Why a step is refused. -/
inductive Refusal where
  /-- Raised by an arm of `exec` whose command has no meaning yet. Safe. -/
  | notModelled (mnemonic : String)
  /-- Raised by a file-level command that would read `IN` while `LEN` is not the length of `IN`:
  "a command started with `LEN != len(IN)` is outside this spec" (R30; U11 says refuse). Safe. -/
  | lenNotInputLength
deriving DecidableEq, Repr

/-- A register that the spec gives "no value (unwritten)" after reset (R43): what it holds, and the
written flag that R280 puts beside it. -/
structure Reg (α : Type) where
  /-- What the register holds; it influences nothing while `written` is false. -/
  value : α
  /-- Whether HOST or a command has written the register since reset (R41, R254). -/
  written : Bool
deriving DecidableEq, Repr

/-- `PHASE` (R33). -/
inductive Phase where
  /-- Between commands. -/
  | idle
  /-- While the key expansion loop runs. -/
  | expand
  /-- While blocks are processed. -/
  | blocks
deriving DecidableEq, Repr

/-- The internal sequencer registers besides `PHASE` (R33); HOST can read none of them. -/
structure Sequencer where
  /-- `WIDX`, 8..60: index of the next schedule word to produce. -/
  widx : Nat
  /-- `RND`, 0..14: current round number. -/
  rnd : Nat
  /-- `BLK`: index of the current block within the command. -/
  blk : Nat
  /-- `RPOS`: number of bytes of `IN` consumed so far. -/
  rpos : Nat
  /-- `WPOS`: number of bytes appended to `OUT` so far by this command. -/
  wpos : Nat
deriving DecidableEq, Repr

/-- The four synchronous exceptions (60_exceptions.md R250). -/
inductive Exc where
  /-- Ciphertext length unacceptable (R251). -/
  | eLength
  /-- Reserved command word, or small-integer operand out of range (R252). -/
  | eReserved
  /-- `KEY` or `W` needed but not valid (R253). -/
  | eNoKey
  /-- A data register read before anything wrote it (R254). -/
  | eUninit
deriving DecidableEq, Repr

/-- What HOST can read between commands (R44). -/
inductive HostReg where
  | buf | prev | tmp | res | status | byteCount | out
deriving DecidableEq, Repr

/-- What a HOST read answers. -/
inductive HostDatum where
  /-- A byte sequence, in index order. -/
  | bytes (v : List Byte)
  /-- A natural number. -/
  | number (n : Nat)
deriving DecidableEq, Repr

/-- One access of HOST between commands (R44, R91, R92), or the reset of CORE (R280, R281). -/
inductive HostAccess where
  /-- `WR KEY`: all 32 bytes at once (R21, R285). -/
  | writeKey (k : Key)
  /-- `WR BUF` (R24). -/
  | writeBuf (b : Block)
  /-- `WR PREV` (R44). -/
  | writePrev (b : Block)
  /-- `WR TMP` (R44). -/
  | writeTmp (t : Word)
  /-- `WR OPA` (R28). -/
  | writeOpa (a : Byte)
  /-- `WR LEN` (R30). -/
  | writeLen (n : Nat)
  /-- `IN <bytes>`: HOST supplies `IN`, sets `LEN` to its length and provides an empty `OUT` (R91, R92). -/
  | supplyIn (v : List Byte)
  /-- HOST provides an empty `OUT` (R91, R282). -/
  | provideOut
  /-- `IV <16 bytes>`: fixes the `IVSRC` draw for the next `CBC_ENC` (R92). -/
  | fixIv (v : Block)
  /-- Write of `CMD`, which starts a command (R29). -/
  | writeCmd (c : Byte)
  /-- `RD <reg>` or `OUT?` (R92): no read has a side effect (R60). -/
  | read (r : HostReg)
  /-- Reset, between commands only (R280, R281). -/
  | reset
deriving DecidableEq, Repr

/-- The state of CORE and of its environment between two HOST accesses. -/
structure State where
  /-- `KEY` (R21); its validity flag is `STATUS.KEY_VALID`. -/
  key : Key
  /-- `W` (R22); its validity flag is `STATUS.KS_VALID`. -/
  w : Schedule
  /-- `ST` (R23). -/
  st : Reg Matrix
  /-- `BUF` (R24). -/
  buf : Reg Block
  /-- `PREV` (R25). -/
  prev : Reg Block
  /-- `SAVE` (R26). -/
  save : Reg Block
  /-- `TMP` (R27). -/
  tmp : Reg Word
  /-- `OPA` (R28). -/
  opa : Reg Byte
  /-- `RES` (R28). -/
  res : Reg Byte
  /-- `CMD` (R29): the word last written; nothing reads it back. -/
  cmd : Byte
  /-- `LEN` (R30): an unbounded natural number (R7(d)). -/
  len : Nat
  /-- `STATUS` (R31), with its fields at the bits the rule gives. -/
  status : BitVec 8
  /-- `BYTECOUNT` (R32): an unbounded natural number. -/
  byteCount : Nat
  /-- `PHASE` (R33). -/
  phase : Phase
  /-- `WIDX`, `RND`, `BLK`, `RPOS`, `WPOS` (R33). -/
  seq : Sequencer
  /-- `IN` (R37): the input byte sequence. -/
  inStream : List Byte
  /-- `OUT` (R37): the output byte sequence. -/
  outStream : List Byte
  /-- The model's own field: the accesses HOST will make, oldest first (R9, R92;
  notes/assumptions/6.md). -/
  host : List HostAccess
  /-- The model's own field: how many draws `IVSRC` has delivered (notes/assumptions/2.md). -/
  ivReads : Nat
  /-- The model's own field: the draw an `IV` line has fixed for the next `CBC_ENC` (R92), if any. -/
  ivFixed : Option Block
  /-- The model's own field: how many draws the sequencer registers have taken
  (notes/assumptions/3.md). -/
  seqDraws : Nat
deriving DecidableEq, Repr

/-- An unwritten register holding `v`: "no value" (R43, R280). -/
def Reg.unwritten {α : Type} (v : α) : Reg α := { value := v, written := false }

/-- A register that has been written with `v`. -/
def Reg.holding {α : Type} (v : α) : Reg α := { value := v, written := true }

/-- The block of 16 zero bytes. -/
def zeroBlock : Block := Vector.replicate 16 0

/-- The word of 4 zero bytes. -/
def zeroWord : Word := Vector.replicate 4 0

/-- The machine right after reset (R43, R280). The value beside a false written flag or validity flag,
the sequencer registers and `CMD` are the model's choice: the spec gives none (notes/assumptions/4.md). -/
def State.reset : State :=
  { key := Vector.replicate 32 0
    w := Vector.replicate 60 zeroWord
    st := Reg.unwritten (Vector.replicate 4 zeroWord)
    buf := Reg.unwritten zeroBlock
    prev := Reg.unwritten zeroBlock
    save := Reg.unwritten zeroBlock
    tmp := Reg.unwritten zeroWord
    opa := Reg.unwritten 0
    res := Reg.unwritten 0
    cmd := 0
    len := 0
    status := 0x00
    byteCount := 0
    phase := .idle
    seq := { widx := 8, rnd := 0, blk := 0, rpos := 0, wpos := 0 }
    inStream := []
    outStream := []
    host := []
    ivReads := 0
    ivFixed := none
    seqDraws := 0 }

end Sys2Proof.Machine
end

