-- ==== Sys2Proof/Machine/Flags.lean ====
section
/-! DEFINITION. The fields of `STATUS` (10_state.md R31) and the exception codes (60_exceptions.md
R250). Bits 0 to 3 are `DONE`, `KEY_VALID`, `KS_VALID`, `PAD_OK`; bit 4 reads 0; bits 7:5 are `ERR`. -/

namespace Sys2Proof.Machine

/-- Writes bit `k` of a byte, the other bits unchanged. -/
def setBit (k : Nat) (v : Bool) (x : Byte) : Byte :=
  if v then x ||| (1#8 <<< k) else x &&& ~~~(1#8 <<< k)

/-- `STATUS.DONE`, bit 0 (R31). -/
def State.done (s : State) : Bool := s.status.getLsbD 0

/-- `STATUS.KEY_VALID`, bit 1 (R31). -/
def State.keyValid (s : State) : Bool := s.status.getLsbD 1

/-- `STATUS.KS_VALID`, bit 2 (R31). -/
def State.ksValid (s : State) : Bool := s.status.getLsbD 2

/-- `STATUS.PAD_OK`, bit 3 (R31). -/
def State.padOk (s : State) : Bool := s.status.getLsbD 3

/-- `STATUS.ERR`, bits 7:5 (R31). -/
def State.err (s : State) : BitVec 3 := s.status.extractLsb' 5 3

/-- Writes `STATUS.DONE`. -/
def State.setDone (v : Bool) (s : State) : State := { s with status := setBit 0 v s.status }

/-- Writes `STATUS.KEY_VALID`. -/
def State.setKeyValid (v : Bool) (s : State) : State := { s with status := setBit 1 v s.status }

/-- Writes `STATUS.KS_VALID`. -/
def State.setKsValid (v : Bool) (s : State) : State := { s with status := setBit 2 v s.status }

/-- Writes `STATUS.PAD_OK`. -/
def State.setPadOk (v : Bool) (s : State) : State := { s with status := setBit 3 v s.status }

/-- `STATUS` with its field `ERR` replaced. -/
def withErr (c : BitVec 3) (x : Byte) : Byte := (x &&& 0x1F) ||| (c.setWidth 8 <<< 5)

/-- Writes `STATUS.ERR`. -/
def State.setErr (c : BitVec 3) (s : State) : State := { s with status := withErr c s.status }

/-- The code of an exception in `STATUS.ERR` (R250); 0 is "none", 5 to 7 are never produced. -/
def Exc.code : Exc → BitVec 3
  | .eLength => 1
  | .eReserved => 2
  | .eNoKey => 3
  | .eUninit => 4

end Sys2Proof.Machine
end

