-- ==== Sys2Proof/Machine/Ops.lean ====
section
/-! DEFINITION. The operations the commands share: the command frame and the taking of an exception
(60_exceptions.md R259), register writes, the two streams (20_memory.md R52, R53), the device `IVSRC`
(R264) and the sequencer registers between commands (93_implementation_defined.md U16). -/

namespace Sys2Proof.Machine

/-- What one step answers. -/
abbrev Result := Host.Outcome State Fault Refusal

/-- How the pseudocode of a command ends: at its last line, at a `raise`, or outside the spec. -/
inductive Ending where
  /-- The last line was reached, in this state. -/
  | completes (s : State)
  /-- `raise e` was reached, in this state. -/
  | raises (e : Exc) (s : State)
  /-- The command is outside the spec here. -/
  | refuses (r : Refusal)
deriving DecidableEq, Repr

/-! ### The command frame -/

/-- The first line of the frame (R259): `DONE`, `ERR`, `PAD_OK` and `BYTECOUNT` are cleared. -/
def beginCommand (s : State) : State :=
  { ((s.setDone false).setErr 0).setPadOk false with byteCount := 0 }

/-- The last line of the frame (R259): `DONE <- 1`, `PHASE <- IDLE`. -/
def completeCommand (s : State) : State := { s.setDone true with phase := .idle }

/-- Taking an exception (R259): `ERR` gets the code and `PHASE <- IDLE`; nothing else changes, nothing
is saved, and there is nothing to return from (R261). -/
def raiseException (e : Exc) (s : State) : State := { s.setErr e.code with phase := .idle }

/-- What the frame makes of a command's ending. -/
def endCommand : Ending → Result
  | .completes s => .next (completeCommand s)
  | .raises e s => .next (raiseException e s)
  | .refuses r => .refused r

/-- Every command runs inside this frame (R259). -/
def command (body : State → Ending) (s : State) : Result := endCommand (body (beginCommand s))

/-- A write of a reserved word raises `E_RESERVED` inside the same frame (R83, R252, R259). -/
def reservedCommand (s : State) : Result := command (fun s => .raises .eReserved s) s

/-- The word written to `CMD` is latched there (R29). -/
def latchCommand (c : Byte) (s : State) : State := { s with cmd := c }

/-! ### Register writes -/

/-- `RES <- v`. -/
def State.writeRes (v : Byte) (s : State) : State := { s with res := Reg.holding v }
/-- `OPA <- v`. -/
def State.writeOpa (v : Byte) (s : State) : State := { s with opa := Reg.holding v }
/-- `TMP <- v`. -/
def State.writeTmp (v : Word) (s : State) : State := { s with tmp := Reg.holding v }
/-- `ST <- v`. -/
def State.writeSt (v : Matrix) (s : State) : State := { s with st := Reg.holding v }
/-- `BUF <- v`. -/
def State.writeBuf (v : Block) (s : State) : State := { s with buf := Reg.holding v }
/-- `PREV <- v`. -/
def State.writePrev (v : Block) (s : State) : State := { s with prev := Reg.holding v }
/-- `SAVE <- v`. -/
def State.writeSave (v : Block) (s : State) : State := { s with save := Reg.holding v }
/-- `W <- v`. -/
def State.writeW (v : Schedule) (s : State) : State := { s with w := v }
/-- `PHASE <- v`. -/
def State.writePhase (v : Phase) (s : State) : State := { s with phase := v }
/-- `BYTECOUNT <- v`. -/
def State.writeByteCount (v : Nat) (s : State) : State := { s with byteCount := v }

/-! ### Bytes, words and blocks -/

/-- `a ^ b` on words, byte by byte (R11, R144). -/
def xorWord (a b : Word) : Word := Vector.ofFn fun k => a[k] ^^^ b[k]

/-- `a ^ b` on blocks, byte by byte (R11). -/
def xorBlock (a b : Block) : Block := Vector.ofFn fun k => a[k] ^^^ b[k]

/-- The State whose cell in row `r`, column `c` is `f r c`. -/
def matrixOf (f : Fin 4 → Fin 4 → Byte) : Matrix := Vector.ofFn fun r => Vector.ofFn fun c => f r c

/-- The block made of the first 16 bytes of a byte sequence that has at least 16. -/
def blockOf (v : List Byte) : Block := Vector.ofFn fun i => v.getD i 0

/-! ### The streams -/

/-- `MemRead(S, a, n)`: the `n` bytes `S[a .. a+n-1]` (R12). -/
def memRead (S : List Byte) (a n : Nat) : List Byte := (S.drop a).take n

/-- How many bytes `InRead(16)` gets: `min(16, LEN - RPOS)` (R52). -/
def availableBytes (s : State) : Nat := min 16 (s.len - s.seq.rpos)

/-- The bytes `InRead(16)` returns (R52). -/
def inBytes (s : State) : List Byte := memRead s.inStream s.seq.rpos (availableBytes s)

/-- The state after `InRead(16)`: only `RPOS` moves (R52, R60). -/
def afterRead (s : State) : State :=
  { s with seq := { s.seq with rpos := s.seq.rpos + availableBytes s } }

/-- `OutWrite(v)`: an append to `OUT`, and `WPOS` moves by the length of `v` (R53). -/
def outWrite (v : List Byte) (s : State) : State :=
  { s with
    outStream := s.outStream ++ v
    seq := { s.seq with wpos := s.seq.wpos + v.length } }

/-- `BLK <- BLK + 1`. -/
def nextBlockIndex (s : State) : State := { s with seq := { s.seq with blk := s.seq.blk + 1 } }

/-! ### The device `IVSRC` -/

/-- The 16 bytes the next read of `IVSRC` delivers: the draw an `IV` line has fixed (R92), or else any
value at all (R264). -/
def State.ivDraw (s : State) : Block := s.ivFixed.getD (Config.ivDraw s.ivReads)

/-- The state after one read of `IVSRC`: fresh bytes are consumed (R60), a fixed draw with them. -/
def afterIvRead (s : State) : State := { s with ivReads := s.ivReads + 1, ivFixed := none }

/-! ### The sequencer registers between commands -/

/-- Draw number `s.seqDraws` of sequencer register `r`. -/
def seqValue (s : State) (r : Nat) : Nat := Config.seqDraw s.seqDraws r

/-- `WIDX` after its loop is any value of its range 8..60 (R33, U16). -/
def freeWidx (s : State) : State :=
  { s with seq := { s.seq with widx := 8 + seqValue s 0 % 53 }, seqDraws := s.seqDraws + 1 }

/-- `RND` after its loop is any value of its range 0..14 (R33, U16). -/
def freeRnd (s : State) : State :=
  { s with seq := { s.seq with rnd := seqValue s 1 % 15 }, seqDraws := s.seqDraws + 1 }

/-- After a file-level command every sequencer register is any value of its range (R33, U16). -/
def freeSequencer (s : State) : State :=
  { s with
    seq :=
      { widx := 8 + seqValue s 0 % 53
        rnd := seqValue s 1 % 15
        blk := seqValue s 2
        rpos := seqValue s 3 % (s.len + 1)
        wpos := seqValue s 4 }
    seqDraws := s.seqDraws + 1 }

end Sys2Proof.Machine
end

