-- ==== Sys2Proof/Machine/Operands.lean ====
section
/-! DEFINITION. The checks that stand before a command's first write, in the order of 60_exceptions.md
R260: the key or the schedule (`E_NOKEY`), the registers it reads (`E_UNINIT`), then the range of a
small-integer operand (`E_RESERVED`). Every operand is in a fixed register (30_encoding.md R84). -/

namespace Sys2Proof.Machine

/-- `E_NOKEY` unless a key has been written since reset (R253(a)). -/
def needKey (s : State) (k : Ending) : Ending := if s.keyValid then k else .raises .eNoKey s

/-- `E_NOKEY` unless `W` is the schedule of the current key (R253(b)). -/
def needSchedule (s : State) (k : Ending) : Ending := if s.ksValid then k else .raises .eNoKey s

/-- Reads a register, or raises `E_UNINIT` when nothing has written it since reset (R41, R254). -/
def needWritten {α : Type} (r : Reg α) (s : State) (k : α → Ending) : Ending :=
  if r.written then k r.value else .raises .eUninit s

/-- Reads a small-integer operand, or raises `E_RESERVED` above its largest value (R83, R252(b)). -/
def needAtMost (max : Nat) (a : Byte) (s : State) (k : Fin (max + 1) → Ending) : Ending :=
  if h : a.toNat ≤ max then k ⟨a.toNat, Nat.lt_succ_of_le h⟩ else .raises .eReserved s

/-- The byte-level unit-access commands: `RES <- f(OPA)` (R28, R82). -/
def byteUnit (f : Byte → Byte) (s : State) : Ending :=
  needWritten s.opa s fun a => .completes (s.writeRes (f a))

/-- The unit-access commands on the State: `ST <- f(ST)` (R82). -/
def matrixUnit (f : Matrix → Matrix) (s : State) : Ending :=
  needWritten s.st s fun m => .completes (s.writeSt (f m))

/-- The unit-access commands on a word: `TMP <- f(TMP)` (R82). -/
def wordUnit (f : Word → Word) (s : State) : Ending :=
  needWritten s.tmp s fun t => .completes (s.writeTmp (f t))

end Sys2Proof.Machine
end

