-- ==== Sys2Proof/Machine/FieldArith.lean ====
section
/-! DEFINITION. The GF(2^8) multiplier and its commands (40_field_arithmetic.md R110 to R121): pure
functions of one byte, total over all 256 values. -/

namespace Sys2Proof.Machine

/-- `xtime(a)`: shift left by one bit, and XOR the reduction constant when the bit shifted out was 1
(R111). -/
def xtime (a : Byte) : Byte := if a.getLsbD 7 then (a <<< 1) ^^^ Config.reduction else a <<< 1

/-- `x2(a)` (R112 to R117). -/
def x2 (a : Byte) : Byte := xtime a
/-- `x4(a)` (R112 to R117). -/
def x4 (a : Byte) : Byte := xtime (xtime a)
/-- `x8(a)` (R112 to R117). -/
def x8 (a : Byte) : Byte := xtime (xtime (xtime a))

/-- Multiplication by `0x02` (R112). -/
def mul02 (a : Byte) : Byte := x2 a
/-- Multiplication by `0x03` (R113). -/
def mul03 (a : Byte) : Byte := x2 a ^^^ a
/-- Multiplication by `0x09` (R114). -/
def mul09 (a : Byte) : Byte := x8 a ^^^ a
/-- Multiplication by `0x0B` (R115). -/
def mul0b (a : Byte) : Byte := x8 a ^^^ x2 a ^^^ a
/-- Multiplication by `0x0D` (R116). -/
def mul0d (a : Byte) : Byte := x8 a ^^^ x4 a ^^^ a
/-- Multiplication by `0x0E` (R117). -/
def mul0e (a : Byte) : Byte := x8 a ^^^ x4 a ^^^ x2 a

/-- `XTIME` (R111). -/
def execXtime (s : State) : Result := command (byteUnit xtime) s
/-- `MUL02` (R112). -/
def execMul02 (s : State) : Result := command (byteUnit mul02) s
/-- `MUL03` (R113). -/
def execMul03 (s : State) : Result := command (byteUnit mul03) s
/-- `MUL09` (R114). -/
def execMul09 (s : State) : Result := command (byteUnit mul09) s
/-- `MUL0B` (R115). -/
def execMul0b (s : State) : Result := command (byteUnit mul0b) s
/-- `MUL0D` (R116). -/
def execMul0d (s : State) : Result := command (byteUnit mul0d) s
/-- `MUL0E` (R117). -/
def execMul0e (s : State) : Result := command (byteUnit mul0e) s

end Sys2Proof.Machine
end

