-- ==== Sys2Proof/Machine/SubstTables.lean ====
section
/-! DEFINITION. The two substitution ROMs and their commands (41_substitution_tables.md R130 to R136).
Each function that looks a byte up takes the table as an argument (00_scope.md R7); the commands give it
the open parameter `Config.sbox`. -/

namespace Sys2Proof.Machine

/-- `SBOX[x]` (R34, R51). -/
def sboxRead (T : SBox) (x : Byte) : Byte := T x

/-- `INVSBOX[y]`: the unique `x` with `SBOX[x] = y` (R35, R132). -/
def invSboxRead (T : SBox) (y : Byte) : Byte := T.symm y

/-- `SBOXRD` (R130). -/
def execSboxRd (s : State) : Result := command (byteUnit (sboxRead Config.sbox)) s

/-- `INVSBOXRD` (R131). -/
def execInvSboxRd (s : State) : Result := command (byteUnit (invSboxRead Config.sbox)) s

end Sys2Proof.Machine
end

