-- ==== Sys2Proof/Machine/KeySchedule.lean ====
section
/-! DEFINITION. The key schedule (42_key_schedule.md R140 to R150): the round constants, the word
operations, the expansion of a 32-byte key into 60 words, and their commands. -/

namespace Sys2Proof.Machine

/-- The `RCON` ROM (R36, R140). -/
def rcon : Vector Byte 11 :=
  #v[0x00, 0x01, 0x02, 0x04, 0x08, 0x10, 0x20, 0x40, 0x80, 0x1B, 0x36]

/-- `RotWord`: byte 1 moves to position 0, byte 0 to position 3 (R142). -/
def rotWord (t : Word) : Word := #v[t[1], t[2], t[3], t[0]]

/-- `SubWord`: each byte through the forward table (R143). -/
def subWord (T : SBox) (t : Word) : Word := Vector.ofFn fun k => sboxRead T t[k]

/-- A round constant XORed into the first byte of a word (R144, R148). -/
def xorFirst (rc : Byte) (t : Word) : Word := t.set 0 (t[0] ^^^ rc)

/-- What the expansion does to the previous word at word index `8 + k` (R145): rotate, substitute and
XOR the constant at multiples of 8; substitute only at 4 more than those; nothing elsewhere. -/
def transformPrevious (T : SBox) (k : Nat) (h : k < 52) (t : Word) : Word :=
  if (8 + k) % 8 = 0 then xorFirst (rcon[(8 + k) / 8]'(by omega)) (subWord T (rotWord t))
  else if (8 + k) % 8 = 4 then subWord T t
  else t

/-- The schedule with the eight key words in place, `W[i] = (K[4i], .., K[4i+3])` (R55, R145). The words
above 7 are written before they are read. -/
def keyWords (K : Key) : Schedule :=
  Vector.ofFn fun i =>
    if h : i.val < 8 then
      Vector.ofFn fun k => K[4 * i.val + k.val]'(by have := k.isLt; omega)
    else zeroWord

/-- Word `8 + k` of the schedule from words `8 + k - 8` and `8 + k - 1` (R145). -/
def nextWord (T : SBox) (W : Schedule) (k : Nat) (h : k < 52) : Word :=
  xorWord W[k] (transformPrevious T k h W[k + 7])

/-- The schedule after the expansion loop has produced words 8 to `8 + n - 1`, in increasing order
(R145). -/
def expandTo (T : SBox) (K : Key) : (n : Nat) → n ≤ 52 → Schedule
  | 0, _ => keyWords K
  | k + 1, h =>
    let W := expandTo T K k (by omega)
    W.set (k + 8) (nextWord T W k (by omega))

/-- `KeyExpansion(K)` (R145). Irreducible, so that comparing two schedules never runs the loop; the
lemmas of Laws/KeySchedule.lean say what its words are. -/
@[irreducible] def keyExpansion (T : SBox) (K : Key) : Schedule := expandTo T K 52 (Nat.le_refl 52)

/-- The key expansion as every command runs it: `W` is written, `TMP` is left holding `W[58]`, the
previous word of the last iteration (R149), and `KS_VALID` is set (R31, R214). -/
def expandKey (s : State) : State :=
  let W := keyExpansion Config.sbox s.key
  ((((s.writePhase .expand).writeW W).writeTmp W[58]).setKsValid true)

/-- `KEYEXP` (R149). -/
def execKeyExp (s : State) : Result :=
  command (fun s => needKey s (.completes (freeWidx (expandKey s)))) s

/-- `RCONRD`: `RES <- RCON[OPA]`, `OPA` in 0..10 (R141). -/
def execRconRd (s : State) : Result :=
  command (fun s =>
    needWritten s.opa s fun a =>
    needAtMost 10 a s fun j => .completes (s.writeRes rcon[j])) s

/-- `RDW`: `TMP <- W[OPA]`, `OPA` in 0..59 (R150). -/
def execRdw (s : State) : Result :=
  command (fun s =>
    needSchedule s <|
    needWritten s.opa s fun a =>
    needAtMost 59 a s fun i => .completes (s.writeTmp s.w[i])) s

/-- `ROTWORD` (R142). -/
def execRotWord (s : State) : Result := command (wordUnit rotWord) s

/-- `SUBWORD` (R143). -/
def execSubWord (s : State) : Result := command (wordUnit (subWord Config.sbox)) s

end Sys2Proof.Machine
end

