-- ==== Sys2Proof/Machine/BlockTransform.lean ====
section
/-! DEFINITION. The block transform (43_block_transform.md R160 to R175): the round operations, the
forward cipher with its column mix in all 14 rounds, its exact inverse, and their commands. Every
operation reads the whole old State before it writes the new one (R163, R164, R289). -/

namespace Sys2Proof.Machine

/-- `Load(B)`: byte `i` goes to row `i mod 4`, column `i div 4` (R54, R160). -/
def load (B : Block) : Matrix :=
  matrixOf fun r c => B[r.val + 4 * c.val]'(by have := r.isLt; have := c.isLt; omega)

/-- `Unload(S)`: the same map backwards (R54, R161). -/
def unload (S : Matrix) : Block :=
  Vector.ofFn fun i =>
    (S[i.val % 4]'(Nat.mod_lt _ (by decide)))[i.val / 4]'(by have := i.isLt; omega)

/-- `SubBytes(S)`: every byte through the forward table (R162). -/
def subBytes (T : SBox) (S : Matrix) : Matrix := matrixOf fun r c => sboxRead T S[r][c]

/-- `ShiftRows(S)`: row `r` rotated left by `r` positions (R163). -/
def shiftRows (S : Matrix) : Matrix :=
  matrixOf fun r c => S[r][(c.val + r.val) % 4]'(Nat.mod_lt _ (by decide))

/-- The forward column mix of one column, top to bottom (R164). -/
def mixColumn (a0 a1 a2 a3 : Byte) : Vector Byte 4 :=
  #v[mul02 a0 ^^^ mul03 a1 ^^^ a2 ^^^ a3,
     a0 ^^^ mul02 a1 ^^^ mul03 a2 ^^^ a3,
     a0 ^^^ a1 ^^^ mul02 a2 ^^^ mul03 a3,
     mul03 a0 ^^^ a1 ^^^ a2 ^^^ mul02 a3]

/-- The inverse column mix of one column, top to bottom (R168). -/
def invMixColumn (a0 a1 a2 a3 : Byte) : Vector Byte 4 :=
  #v[mul0e a0 ^^^ mul0b a1 ^^^ mul0d a2 ^^^ mul09 a3,
     mul09 a0 ^^^ mul0e a1 ^^^ mul0b a2 ^^^ mul0d a3,
     mul0d a0 ^^^ mul09 a1 ^^^ mul0e a2 ^^^ mul0b a3,
     mul0b a0 ^^^ mul0d a1 ^^^ mul09 a2 ^^^ mul0e a3]

/-- `MixColumns(S)`: each column on its own (R164). -/
def mixColumns (S : Matrix) : Matrix :=
  matrixOf fun r c => (mixColumn S[0][c] S[1][c] S[2][c] S[3][c])[r]

/-- `AddRoundKey(S, W, rd)`: word `4*rd + c` of the schedule onto column `c`, byte `r` onto row `r`
(R56, R165). -/
def addRoundKey (S : Matrix) (W : Schedule) (rd : Fin 15) : Matrix :=
  matrixOf fun r c =>
    S[r][c] ^^^ (W[4 * rd.val + c.val]'(by have := rd.isLt; have := c.isLt; omega))[r]

/-- `InvSubBytes(S)`: every byte through the inverse table (R166). -/
def invSubBytes (T : SBox) (S : Matrix) : Matrix := matrixOf fun r c => invSboxRead T S[r][c]

/-- `InvShiftRows(S)`: row `r` rotated right by `r` positions (R167). -/
def invShiftRows (S : Matrix) : Matrix :=
  matrixOf fun r c => S[r][(c.val + 4 - r.val) % 4]'(Nat.mod_lt _ (by decide))

/-- `InvMixColumns(S)`: each column on its own (R168). -/
def invMixColumns (S : Matrix) : Matrix :=
  matrixOf fun r c => (invMixColumn S[0][c] S[1][c] S[2][c] S[3][c])[r]

/-! ### The forward cipher -/

/-- One round of the forward cipher, the column mix among its steps in every round (R169). -/
def cipherRound (T : SBox) (W : Schedule) (rd : Fin 15) (S : Matrix) : Matrix :=
  addRoundKey (mixColumns (shiftRows (subBytes T S))) W rd

/-- The State after round `n` of the forward cipher; round 0 is the first round-key addition (R169,
R174). -/
def cipherRounds (T : SBox) (W : Schedule) (B : Block) : (n : Nat) → n ≤ 14 → Matrix
  | 0, _ => addRoundKey (load B) W 0
  | n + 1, h => cipherRound T W ⟨n + 1, by omega⟩ (cipherRounds T W B n (by omega))

/-- The State at the end of `Cipher(B, W)` (R169). Irreducible, so that comparing two States never runs the
rounds. -/
@[irreducible] def cipherState (T : SBox) (B : Block) (W : Schedule) : Matrix :=
  cipherRounds T W B 14 (Nat.le_refl 14)

/-- `Cipher(B, W)` (R169). -/
def cipher (T : SBox) (B : Block) (W : Schedule) : Block := unload (cipherState T B W)

/-! ### The inverse cipher -/

/-- One round of the inverse cipher: the column mix is skipped in round 0 only (R170). -/
def invCipherRound (T : SBox) (W : Schedule) (rd : Fin 15) (S : Matrix) : Matrix :=
  let S' := addRoundKey (invSubBytes T (invShiftRows S)) W rd
  if rd.val ≠ 0 then invMixColumns S' else S'

/-- Rounds `n - 1` down to 0 of the inverse cipher (R170, R174). -/
def invCipherRounds (T : SBox) (W : Schedule) : (n : Nat) → n ≤ 14 → Matrix → Matrix
  | 0, _, S => S
  | n + 1, h, S =>
    invCipherRounds T W n (by omega) (invCipherRound T W ⟨n, by omega⟩ S)

/-- The State at the end of `InvCipher(B, W)`: the round-14 steps, with the column mix that undoes the
one of round 14 (90_conflicts.md C1), and then rounds 13 down to 0 (R170). Irreducible as
`cipherState` is. -/
@[irreducible] def invCipherState (T : SBox) (B : Block) (W : Schedule) : Matrix :=
  invCipherRounds T W 14 (Nat.le_refl 14) (invMixColumns (addRoundKey (load B) W 14))

/-- `InvCipher(B, W)` (R170). -/
def invCipher (T : SBox) (B : Block) (W : Schedule) : Block := unload (invCipherState T B W)

/-! ### The commands -/

/-- `BUF <- Cipher(BUF, W)` for the block `B` in `BUF`; `ST` is left holding the final State (R171). -/
def encryptBuf (B : Block) (s : State) : State :=
  let S := cipherState Config.sbox B s.w
  (s.writeSt S).writeBuf (unload S)

/-- `BUF <- InvCipher(BUF, W)` for the block `B` in `BUF`; `ST` is left holding the final State (R172). -/
def decryptBuf (B : Block) (s : State) : State :=
  let S := invCipherState Config.sbox B s.w
  (s.writeSt S).writeBuf (unload S)

/-- `BLK_ENC` (R171). -/
def execBlkEnc (s : State) : Result :=
  command (fun s =>
    needSchedule s <|
    needWritten s.buf s fun B => .completes (freeRnd (encryptBuf B s))) s

/-- `BLK_DEC` (R172). -/
def execBlkDec (s : State) : Result :=
  command (fun s =>
    needSchedule s <|
    needWritten s.buf s fun B => .completes (freeRnd (decryptBuf B s))) s

/-- `LOADST` (R160). -/
def execLoadSt (s : State) : Result :=
  command (fun s => needWritten s.buf s fun B => .completes (s.writeSt (load B))) s

/-- `UNLOADST` (R161). -/
def execUnloadSt (s : State) : Result :=
  command (fun s => needWritten s.st s fun S => .completes (s.writeBuf (unload S))) s

/-- `SUBBYTES` (R162). -/
def execSubBytes (s : State) : Result := command (matrixUnit (subBytes Config.sbox)) s

/-- `SHIFTROWS` (R163). -/
def execShiftRows (s : State) : Result := command (matrixUnit shiftRows) s

/-- `MIXCOLUMNS` (R164). -/
def execMixColumns (s : State) : Result := command (matrixUnit mixColumns) s

/-- `ADDROUNDKEY`: the round number is in `OPA`, 0..14 (R165). -/
def execAddRoundKey (s : State) : Result :=
  command (fun s =>
    needSchedule s <|
    needWritten s.st s fun S =>
    needWritten s.opa s fun a =>
    needAtMost 14 a s fun rd => .completes (s.writeSt (addRoundKey S s.w rd))) s

/-- `INVSUBBYTES` (R166). -/
def execInvSubBytes (s : State) : Result := command (matrixUnit (invSubBytes Config.sbox)) s

/-- `INVSHIFTROWS` (R167). -/
def execInvShiftRows (s : State) : Result := command (matrixUnit invShiftRows) s

/-- `INVMIXCOLUMNS` (R168). -/
def execInvMixColumns (s : State) : Result := command (matrixUnit invMixColumns) s

end Sys2Proof.Machine
end

