-- ==== Sys2Proof/Machine/ModeDriver.lean ====
section
/-! DEFINITION. The mode driver (44_mode_driver.md R200 to R217): the padding unit, the CBC chaining
XOR, and the four file-level commands as loops over the blocks of `IN`. -/

namespace Sys2Proof.Machine

/-! ### The padding unit -/

/-- `Pad(v)` of a byte sequence of at most 15 bytes: the data, zeros up to byte 14, and the pad length
in byte 15 (R86, R201). -/
def pad (v : List Byte) : Block :=
  Vector.ofFn fun i =>
    if i.val = 15 then BitVec.ofNat 8 (16 - v.length)
    else if i.val < v.length then v.getD i 0
    else 0

/-- `PadOK(B)`: byte 15 is a pad length `p` in 1..16 and the bytes `[16-p, 15)` are zero (R87, R202). -/
def padOK (B : Block) : Bool :=
  decide (1 ≤ B[15].toNat ∧ B[15].toNat ≤ 16 ∧
    ∀ i : Fin 15, 16 - B[15].toNat ≤ i.val → B[i.val]'(by have := i.isLt; omega) = 0)

/-- `Unpad(B)`: the first `16 - p` bytes when the verification succeeds, else all 16 (R202, R255). -/
def unpad (B : Block) : List Byte :=
  if padOK B then B.toList.take (16 - B[15].toNat) else B.toList

/-- `PAD`: `BUF <- Pad(BUF[0, OPA))`, `OPA` in 0..15 (R201). -/
def execPad (s : State) : Result :=
  command (fun s =>
    needWritten s.opa s fun a =>
    needWritten s.buf s fun B =>
    needAtMost 15 a s fun n => .completes (s.writeBuf (pad (B.toList.take n)))) s

/-- `UNPAD`: `RES <- len(Unpad(BUF))`, `PAD_OK <- PadOK(BUF)` (R202). -/
def execUnpad (s : State) : Result :=
  command (fun s =>
    needWritten s.buf s fun B =>
      .completes ((s.writeRes (BitVec.ofNat 8 (unpad B).length)).setPadOk (padOK B))) s

/-- `XORPREV`: `BUF <- BUF ^ PREV` (R203). -/
def execXorPrev (s : State) : Result :=
  command (fun s =>
    needWritten s.buf s fun B =>
    needWritten s.prev s fun P => .completes (s.writeBuf (xorBlock B P))) s

/-! ### Common steps of the file-level commands -/

/-- The smallest ciphertext: one block for ECB, the IV block and one block for CBC (R204). -/
def minCipherLen (cbc : Bool) : Nat := if cbc then 32 else 16

/-- `CheckLen`, before the key is looked at and before any stream access (R204, R260). -/
def checkLen (cbc : Bool) (s : State) (k : Ending) : Ending :=
  if s.len % 16 = 0 ∧ minCipherLen cbc ≤ s.len then k else .raises .eLength s

/-- `Begin` after its key check (R214): the schedule is computed once, the cursors and the block index
start at 0, and `OUT` is empty. -/
def openStreams (s : State) : State :=
  { (expandKey s).writePhase .blocks with
    seq := { s.seq with blk := 0, rpos := 0, wpos := 0 }
    outStream := [] }

/-- The streams can be used when `LEN` is the length of `IN`; a command that would go on to read them
when it is not is outside the spec (R30, R283; notes/assumptions/8.md). -/
def needInput (s : State) (k : Ending) : Ending :=
  if s.len = s.inStream.length then k else .refuses .lenNotInputLength

/-- `Begin()` (R214). The frame has cleared `DONE`, `ERR`, `PAD_OK` and `BYTECOUNT` already (C14). -/
def beginFile (s : State) (k : State → Ending) : Ending :=
  needKey s (needInput s (k (openStreams s)))

/-- The end of a file-level command (R214): `BYTECOUNT <- WPOS`. -/
def endFile (s : State) : Ending := .completes (freeSequencer (s.writeByteCount s.seq.wpos))

/-! ### Encryption -/

/-- `NextPlainBlock()` on the `n` bytes read and the block index: a block and whether it is the last,
or none (R215). -/
def plainBlock (v : List Byte) (blk : Nat) : Option (Block × Bool) :=
  if v.length = 16 then some (blockOf v, false)
  else if 1 ≤ v.length ∨ blk = 0 then some (pad v, true)
  else none

/-- The body of the `ECB_ENC` loop for one plaintext block (R205). -/
def ecbEncryptBlock (B : Block) (s : State) : State :=
  let s := encryptBuf B (s.writeBuf B)
  nextBlockIndex (outWrite s.buf.value.toList s)

/-- The body of the `CBC_ENC` loop for one plaintext block (R207). -/
def cbcEncryptBlock (B : Block) (s : State) : State :=
  let X := xorBlock B s.prev.value
  let s := encryptBuf X (s.writeBuf X)
  nextBlockIndex ((outWrite s.buf.value.toList s).writePrev s.buf.value)

/-- The loop of the encrypt commands (R205, R207), for at most `fuel` reads: read, leave when there is no
block, run the body, leave after the last block. -/
def encryptLoop (body : Block → State → State) : (fuel : Nat) → State → State
  | 0, s => s
  | fuel + 1, s =>
    match plainBlock (inBytes s) s.seq.blk with
    | none => afterRead s
    | some (B, true) => body B (afterRead s)
    | some (B, false) => encryptLoop body fuel (body B (afterRead s))

/-- How many reads the loop makes: one for each full block, and one that finds the short or empty rest
(R215, R217). -/
def plainReads (s : State) : Nat := s.len / 16 + 1

/-- `ECB_ENC` (R205). -/
def execEcbEnc (s : State) : Result :=
  command (fun s =>
    beginFile s fun s => endFile (encryptLoop ecbEncryptBlock (plainReads s) s)) s

/-- `PREV <- read IVSRC`, and the IV is written to `OUT` verbatim (R207, R264). -/
def emitIv (s : State) : State :=
  outWrite s.ivDraw.toList ((afterIvRead s).writePrev s.ivDraw)

/-- `CBC_ENC` (R207). -/
def execCbcEnc (s : State) : Result :=
  command (fun s =>
    beginFile s fun s => endFile (encryptLoop cbcEncryptBlock (plainReads s) (emitIv s))) s

/-! ### Decryption -/

/-- The block that `InRead(16)` returns in a decrypt command, where it is always 16 bytes (R206). -/
def cipherBlock (s : State) : Block := blockOf (inBytes s)

/-- What a decrypt command does with the plaintext block in `BUF`: only the last block goes through the
padding verification (R202, R206, R208, R216). -/
def writePlain (last : Bool) (B : Block) (s : State) : State :=
  if last then outWrite (unpad B) (s.setPadOk (padOK B)) else outWrite B.toList s

/-- The body of the `ECB_DEC` loop for one ciphertext block (R206). -/
def ecbDecryptBlock (last : Bool) (s : State) : State :=
  let C := cipherBlock s
  let s := decryptBuf C ((afterRead s).writeBuf C)
  nextBlockIndex (writePlain last s.buf.value s)

/-- The body of the `CBC_DEC` loop for one ciphertext block: the still-encrypted bytes are saved before
`BUF` is decrypted and become the next `PREV` (R208, R288). -/
def cbcDecryptBlock (last : Bool) (s : State) : State :=
  let C := cipherBlock s
  let s := decryptBuf C (((afterRead s).writeBuf C).writeSave C)
  let P := xorBlock s.buf.value s.prev.value
  let s := writePlain last P (s.writeBuf P)
  nextBlockIndex (s.writePrev s.save.value)

/-- The loop of the decrypt commands over `n` blocks; the last one is the one after which none remain
(R216). -/
def decryptLoop (body : Bool → State → State) : (n : Nat) → State → State
  | 0, s => s
  | n + 1, s => decryptLoop body n (body (n == 0) s)

/-- `N`, the number of cipher blocks of a ciphertext (R216). -/
def cipherBlocks (cbc : Bool) (len : Nat) : Nat := if cbc then len / 16 - 1 else len / 16

/-- `ECB_DEC` (R206). -/
def execEcbDec (s : State) : Result :=
  command (fun s =>
    checkLen false s <|
    beginFile s fun s => endFile (decryptLoop ecbDecryptBlock (cipherBlocks false s.len) s)) s

/-- `PREV <- InRead(16)`: the IV block, neither decrypted nor written (R208). -/
def takeIv (s : State) : State := (afterRead s).writePrev (cipherBlock s)

/-- `CBC_DEC` (R208). -/
def execCbcDec (s : State) : Result :=
  command (fun s =>
    checkLen true s <|
    beginFile s fun s =>
      endFile (decryptLoop cbcDecryptBlock (cipherBlocks true s.len) (takeIv s))) s

end Sys2Proof.Machine
end

