-- ==== Sys2Proof/Machine/Dispatch.lean ====
section
/-! DEFINITION. The dispatch of a command to its meaning, one arm per row of spec/opcode_table.json. -/

namespace Sys2Proof.Machine

open Sys2Proof

def exec (i : Instr) (s : State) : Host.Outcome State Fault Refusal :=
  match i with
  | .ecbEnc => Sys2Proof.Machine.execEcbEnc s
  | .ecbDec => Sys2Proof.Machine.execEcbDec s
  | .cbcEnc => Sys2Proof.Machine.execCbcEnc s
  | .cbcDec => Sys2Proof.Machine.execCbcDec s
  | .blkEnc => Sys2Proof.Machine.execBlkEnc s
  | .blkDec => Sys2Proof.Machine.execBlkDec s
  | .keyExp => Sys2Proof.Machine.execKeyExp s
  | .xtime => Sys2Proof.Machine.execXtime s
  | .mul02 => Sys2Proof.Machine.execMul02 s
  | .mul03 => Sys2Proof.Machine.execMul03 s
  | .mul09 => Sys2Proof.Machine.execMul09 s
  | .mul0b => Sys2Proof.Machine.execMul0b s
  | .mul0d => Sys2Proof.Machine.execMul0d s
  | .mul0e => Sys2Proof.Machine.execMul0e s
  | .sboxRd => Sys2Proof.Machine.execSboxRd s
  | .invSboxRd => Sys2Proof.Machine.execInvSboxRd s
  | .rconRd => Sys2Proof.Machine.execRconRd s
  | .rdw => Sys2Proof.Machine.execRdw s
  | .rotWord => Sys2Proof.Machine.execRotWord s
  | .subWord => Sys2Proof.Machine.execSubWord s
  | .loadSt => Sys2Proof.Machine.execLoadSt s
  | .unloadSt => Sys2Proof.Machine.execUnloadSt s
  | .subBytes => Sys2Proof.Machine.execSubBytes s
  | .shiftRows => Sys2Proof.Machine.execShiftRows s
  | .mixColumns => Sys2Proof.Machine.execMixColumns s
  | .addRoundKey => Sys2Proof.Machine.execAddRoundKey s
  | .invSubBytes => Sys2Proof.Machine.execInvSubBytes s
  | .invShiftRows => Sys2Proof.Machine.execInvShiftRows s
  | .invMixColumns => Sys2Proof.Machine.execInvMixColumns s
  | .pad => Sys2Proof.Machine.execPad s
  | .unpad => Sys2Proof.Machine.execUnpad s
  | .xorPrev => Sys2Proof.Machine.execXorPrev s

end Sys2Proof.Machine
end

