-- ==== Sys2Proof/Machine/HostInterface.lean ====
section
/-! DEFINITION. HOST's accesses between commands (10_state.md R44; 30_encoding.md R90 to R92), reset
(70_reset_and_hazards.md R280, R281), what HOST reads, and the pseudo-operations of R91. -/

namespace Sys2Proof.Machine

/-- HOST writes `KEY`: `KEY_VALID` is set and `KS_VALID` cleared, even by the same value again (R31,
R285). -/
def hostWriteKey (k : Key) (s : State) : State :=
  ({ s with key := k }.setKeyValid true).setKsValid false

/-- HOST supplies `IN`, sets `LEN` to its length and provides an empty `OUT` (R91, R92; notes/assumptions/9.md). -/
def hostSupplyIn (v : List Byte) (s : State) : State :=
  { s with inStream := v, len := v.length, outStream := [] }

/-- Reset (R43, R280): every register of CORE as after reset. `IN` and `OUT` are not CORE's to reset, and
HOST and `IVSRC` are outside CORE. -/
def resetCore (s : State) : State :=
  { State.reset with
    inStream := s.inStream
    outStream := s.outStream
    host := s.host
    ivReads := s.ivReads
    ivFixed := s.ivFixed
    seqDraws := s.seqDraws }

/-- What one access other than a write of `CMD` does to the state; a write of `CMD` latches the word,
and the command it starts is the step's (R29). -/
def hostAccess (a : HostAccess) (s : State) : State :=
  match a with
  | .writeKey k => hostWriteKey k s
  | .writeBuf b => s.writeBuf b
  | .writePrev b => s.writePrev b
  | .writeTmp t => s.writeTmp t
  | .writeOpa a => s.writeOpa a
  | .writeLen n => { s with len := n }
  | .supplyIn v => hostSupplyIn v s
  | .provideOut => { s with outStream := [] }
  | .fixIv v => { s with ivFixed := some v }
  | .writeCmd c => latchCommand c s
  | .read _ => s
  | .reset => resetCore s

/-- The next access of HOST, and the state in which it is made; none when HOST makes none. -/
def nextAccess (s : State) : Option (HostAccess × State) :=
  match s.host with
  | [] => none
  | a :: rest => some (a, { s with host := rest })

/-! ### What HOST reads -/

/-- A register HOST can read has a value to answer only once it has been written
(notes/assumptions/11.md). -/
def readWritten {α : Type} (r : Reg α) (f : α → HostDatum) : Option HostDatum :=
  if r.written then some (f r.value) else none

/-- What HOST reads between commands (R44). -/
def hostRead (r : HostReg) (s : State) : Option HostDatum :=
  match r with
  | .buf => readWritten s.buf fun b => .bytes b.toList
  | .prev => readWritten s.prev fun b => .bytes b.toList
  | .tmp => readWritten s.tmp fun t => .bytes t.toList
  | .res => readWritten s.res fun a => .bytes [a]
  | .status => some (.bytes [s.status])
  | .byteCount => some (.number s.byteCount)
  | .out => some (.bytes s.outStream)

/-! ### The pseudo-operations of R91 -/

/-- `mode` of the function contract: 0 for ECB, 1 for CBC (R90, R91). -/
def modeBit (cbc : Bool) : Byte := if cbc then 1 else 0

/-- `encryptFile(mode, key, P, C)` up to the reading of the results: `CMD <- (mode << 1) | 0` (R91). -/
def encryptFile (cbc : Bool) (k : Key) (P : List Byte) : List HostAccess :=
  [.writeKey k, .supplyIn P, .writeCmd ((modeBit cbc <<< 1) ||| 0)]

/-- `decryptFile(mode, key, C, P)` up to the reading of the results: `CMD <- (mode << 1) | 1` (R91). -/
def decryptFile (cbc : Bool) (k : Key) (C : List Byte) : List HostAccess :=
  [.writeKey k, .supplyIn C, .writeCmd ((modeBit cbc <<< 1) ||| 1)]

/-- `forwardCipher(key, x)`; the result is in `BUF` (R91). -/
def forwardCipherAccesses (k : Key) (x : Block) : List HostAccess :=
  [.writeKey k, .writeCmd 0x06, .writeBuf x, .writeCmd 0x04, .read .buf]

/-- `inverseCipher(key, y)`; the result is in `BUF` (R91). -/
def inverseCipherAccesses (k : Key) (y : Block) : List HostAccess :=
  [.writeKey k, .writeCmd 0x06, .writeBuf y, .writeCmd 0x05, .read .buf]

/-- `keySchedule(key)`: word `i` is what `TMP` reads after the `i`-th `RDW` (R91). -/
def keyScheduleAccesses (k : Key) : List HostAccess :=
  [.writeKey k, .writeCmd 0x06] ++
    (List.range 60).flatMap fun i =>
      [.writeOpa (BitVec.ofNat 8 i), .writeCmd 0x8B, .read .tmp]

/-- The results of `encryptFile` and `decryptFile`: nothing when `STATUS.ERR` reports an error, else the
output sequence, `byteCount`, and `duration`, which is a draw that no state determines (R91, R263). -/
def contractResult (call : Nat) (s : State) : Option (List Byte × Nat × Nat) :=
  if s.err = 0 then some (s.outStream, s.byteCount, Config.durationDraw call) else none

end Sys2Proof.Machine
end

