-- ==== Sys2Proof/Machine/Step.lean ====
section
/-! DEFINITION. One step of CORE and its environment: the next access of HOST (00_scope.md R8, R9). A
write of `CMD` runs the command it encodes as one atomic transition; when HOST makes no access CORE is
idle and waits (70_reset_and_hazards.md R280). -/

namespace Sys2Proof.Machine

/-- A write of `c` to `CMD` (R29, R259): the command it encodes, or `E_RESERVED`. -/
def writeCommand (c : Byte) (s : State) : Host.Outcome State Fault Refusal :=
  match decode c with
  | .command i => exec i (latchCommand c s)
  | .reserved _ => reservedCommand (latchCommand c s)

/-- One step: the next HOST access, or an idle step when there is none. -/
def step (s : State) : Host.Outcome State Fault Refusal :=
  match nextAccess s with
  | none => .next s
  | some (.writeCmd c, s') => writeCommand c s'
  | some (a, s') => .next (hostAccess a s')

/-- `s` with a write of the command word `w` as the very next access of HOST: CORE fetches no
instructions (10_state.md R33), and a command is started by HOST's write of `CMD` (R29). -/
def State.withFetchWord (s : State) (nbits w : Nat) : State :=
  { s with host := .writeCmd (BitVec.ofNat 8 (w % 2 ^ nbits)) :: s.host }

end Sys2Proof.Machine
end

