-- ==== Sys2Proof/Safety.lean ====
section
/-! DEFINITION. The terms in which claims about CORE are made: what a completed and a raising command
leave behind (10_state.md R31; 60_exceptions.md R259, R260), the invariant of the state between HOST
accesses (10_state.md R40), the general field product (40_field_arithmetic.md R119), and the file-level
commands as functions on byte sequences (44_mode_driver.md R200 to R213). -/

namespace Sys2Proof.Safety

open Sys2Proof.Machine

/-! ### What a command leaves in `STATUS`, `BYTECOUNT` and `PHASE` -/

/-- `STATUS` after a command that raised nothing and ran no key expansion: `DONE` set, `ERR` 0, `PAD_OK`
as given, and `KEY_VALID`, `KS_VALID` and the reserved bit 4 as before (R31, R259). -/
def completedStatus (old : Byte) (pad : Bool) : Byte :=
  (old &&& 0x16#8) ||| 0x01 ||| (if pad then 0x08 else 0x00)

/-- `STATUS` after a command that raised `e`: `DONE` and `PAD_OK` 0, the code in bits 7:5, and
`KEY_VALID`, `KS_VALID` and the reserved bit 4 as before (R31, R250, R259). -/
def raisedStatus (old : Byte) (e : Exc) : Byte :=
  (old &&& 0x16#8) |||
    (match e with
      | .eLength => 0x20
      | .eReserved => 0x40
      | .eNoKey => 0x60
      | .eUninit => 0x80)

/-- What every command that raises nothing does to `STATUS`, `BYTECOUNT` and `PHASE` before it writes its
own results: for a command that writes no `BYTECOUNT` and no flag but `PAD_OK` (R259). -/
def completed (s : State) (pad : Bool) : State :=
  { s with status := completedStatus s.status pad, byteCount := 0, phase := .idle }

/-- The state after a command that raised `e`: the state before it but for `STATUS`, `BYTECOUNT` and
`PHASE` (R259). -/
def raised (s : State) (e : Exc) : State :=
  { s with status := raisedStatus s.status e, byteCount := 0, phase := .idle }

/-! ### Which check fails first -/

/-- The file-level commands (R81). -/
def fileLevel : Instr → Bool
  | .ecbEnc | .ecbDec | .cbcEnc | .cbcDec => true
  | _ => false

/-- A length no ciphertext of the mode has (R204, R251). -/
def badLength (cbc : Bool) (len : Nat) : Bool :=
  len % 16 != 0 || decide (len < if cbc then 32 else 16)

/-- `E_LENGTH`: a decrypt command on an unacceptable `LEN` (R251). -/
def failsLength (i : Instr) (s : State) : Bool :=
  match i with
  | .ecbDec => badLength false s.len
  | .cbcDec => badLength true s.len
  | _ => false

/-- `E_NOKEY`: no key for a file-level command or `KEYEXP`, no schedule for `BLK_ENC`, `BLK_DEC`,
`ADDROUNDKEY` and `RDW` (R253). -/
def failsKey (i : Instr) (s : State) : Bool :=
  match i with
  | .ecbEnc | .ecbDec | .cbcEnc | .cbcDec | .keyExp => !s.keyValid
  | .blkEnc | .blkDec | .addRoundKey | .rdw => !s.ksValid
  | _ => false

/-- `E_UNINIT`: a block-level or unit-access command one of whose registers nothing has written (R254,
with the registers of R82 and R84). -/
def failsWritten (i : Instr) (s : State) : Bool :=
  match i with
  | .xtime | .mul02 | .mul03 | .mul09 | .mul0b | .mul0d | .mul0e | .sboxRd | .invSboxRd | .rconRd
  | .rdw => !s.opa.written
  | .rotWord | .subWord => !s.tmp.written
  | .blkEnc | .blkDec | .loadSt | .unpad => !s.buf.written
  | .unloadSt | .subBytes | .shiftRows | .mixColumns | .invSubBytes | .invShiftRows
  | .invMixColumns => !s.st.written
  | .addRoundKey => !s.st.written || !s.opa.written
  | .pad => !s.opa.written || !s.buf.written
  | .xorPrev => !s.buf.written || !s.prev.written
  | _ => false

/-- `E_RESERVED`: a small-integer operand above its range (R83, R252(b)). -/
def failsRange (i : Instr) (s : State) : Bool :=
  match i with
  | .rconRd => decide (10 < s.opa.value.toNat)
  | .rdw => decide (59 < s.opa.value.toNat)
  | .addRoundKey => decide (14 < s.opa.value.toNat)
  | .pad => decide (15 < s.opa.value.toNat)
  | _ => false

/-- The exception a command reports: that of the first check that fails, in the order of R260. -/
def firstFailure (i : Instr) (s : State) : Option Exc :=
  if failsLength i s then some .eLength
  else if failsKey i s then some .eNoKey
  else if failsWritten i s then some .eUninit
  else if failsRange i s then some .eReserved
  else none

/-! ### The invariant -/

/-- What holds of the state between any two HOST accesses. -/
structure Inv (s : State) : Prop where
  /-- "`PHASE` is `IDLE` whenever HOST can observe anything" (R33). -/
  idle : s.phase = .idle
  /-- `STATUS` bit 4 reads 0 (R31). -/
  reservedBit : s.status.getLsbD 4 = false
  /-- Codes 5 to 7 are never produced (R250). -/
  errCode : s.err.toNat ≤ 4
  /-- `DONE` says that the last command completed without an exception (R31). -/
  doneNoErr : s.done = true → s.err = 0
  /-- `PAD_OK` is set only by a command that completes (R31, R259). -/
  padDone : s.padOk = true → s.done = true
  /-- `BYTECOUNT` is left 0 by a command that raises (R32). -/
  raisedCount : s.err ≠ 0 → s.byteCount = 0
  /-- While `KS_VALID` is 1, `W` is the expansion of the current `KEY` (R22, R40(b)). -/
  schedule : s.ksValid = true → s.keyValid = true ∧ s.w = keyExpansion Config.sbox s.key
  /-- `WIDX` and `RND` stay in their ranges (R33). -/
  ranges : 8 ≤ s.seq.widx ∧ s.seq.widx ≤ 60 ∧ s.seq.rnd ≤ 14

/-! ### The general product -/

/-- `xtime^k(a)` (R119). -/
def xtimePow : Nat → Byte → Byte
  | 0, a => a
  | k + 1, a => xtime (xtimePow k a)

/-- `gfmul(c, a)`: the XOR of `xtime^k(a)` over the bits `k` that are 1 in `c`; no hardware computes it
(R119). -/
def gfmul (c a : Byte) : Byte :=
  (List.range 8).foldl (fun acc k => if c.getLsbD k then acc ^^^ xtimePow k a else acc) 0

/-! ### The key schedule, word by word -/

/-- What R145 XORs into word `i - 8` to make word `i`, from the previous word `t`, byte by byte. -/
def transformedWord (T : SBox) (i : Nat) (hi : i < 60) (t : Word) : Word :=
  if i % 8 = 0 then #v[T t[1] ^^^ rcon[i / 8]'(by omega), T t[2], T t[3], T t[0]]
  else if i % 8 = 4 then #v[T t[0], T t[1], T t[2], T t[3]]
  else t

/-! ### Files as functions -/

/-- `NB(L)`: the number of cipher blocks of a plaintext of `L` bytes (R200). -/
def nbBlocks (L : Nat) : Nat := if L = 0 then 1 else (L + 15) / 16

/-- `B_j`: block `j` of a plaintext, padded when it does not lie wholly inside it (R205). -/
def plainBlockAt (P : List Byte) (j : Nat) : Block :=
  if 16 * j + 16 ≤ P.length then blockOf (P.drop (16 * j)) else pad (P.drop (16 * j))

/-- `B_0 .. B_{NB-1}` (R205). -/
def plainBlocks (P : List Byte) : List Block := (List.range (nbBlocks P.length)).map (plainBlockAt P)

/-- The bytes of a sequence of blocks, concatenated (R61). -/
def flatten (bs : List Block) : List Byte := bs.flatMap fun b => b.toList

/-- The last block of a nonempty sequence. -/
def lastBlock (bs : List Block) : Block := bs.getLast?.getD zeroBlock

/-- The cipher blocks of ECB: each plaintext block on its own (R205). -/
def ecbBlocks (T : SBox) (W : Schedule) (bs : List Block) : List Block := bs.map fun B => cipher T B W

/-- The cipher blocks of CBC after the block `prev`: `C_j = Cipher(B_j ^ C_{j-1}, W)` (R207). -/
def cbcBlocks (T : SBox) (W : Schedule) : Block → List Block → List Block
  | _, [] => []
  | prev, B :: bs =>
    let C := cipher T (xorBlock B prev) W
    C :: cbcBlocks T W C bs

/-- `ECB_ENC(K, P)` (R205). -/
def ecbEnc (T : SBox) (K : Key) (P : List Byte) : List Byte :=
  flatten (ecbBlocks T (keyExpansion T K) (plainBlocks P))

/-- `CBC_ENC(K, P, iv)` (R207). -/
def cbcEnc (T : SBox) (K : Key) (iv : Block) (P : List Byte) : List Byte :=
  iv.toList ++ flatten (cbcBlocks T (keyExpansion T K) iv (plainBlocks P))

/-- The whole blocks of a ciphertext, in order (R58). -/
def wholeBlocks (C : List Byte) : List Block :=
  (List.range (C.length / 16)).map fun j => blockOf (C.drop (16 * j))

/-- The decrypted blocks of ECB (R206). -/
def ecbPlain (T : SBox) (W : Schedule) (cs : List Block) : List Block := cs.map fun C => invCipher T C W

/-- The decrypted blocks of CBC after the block `prev`: `InvCipher(C_j, W) ^ C_{j-1}` (R208). -/
def cbcPlain (T : SBox) (W : Schedule) : Block → List Block → List Block
  | _, [] => []
  | prev, C :: cs => xorBlock (invCipher T C W) prev :: cbcPlain T W C cs

/-- Every block written whole but the last, which goes through `Unpad` (R202, R216). -/
def stripLast : List Block → List Byte
  | [] => []
  | [B] => unpad B
  | B :: C :: bs => B.toList ++ stripLast (C :: bs)

/-- `ECB_DEC(K, C)` (R206). -/
def ecbDec (T : SBox) (K : Key) (C : List Byte) : List Byte :=
  stripLast (ecbPlain T (keyExpansion T K) (wholeBlocks C))

/-- `CBC_DEC(K, C)`: the first block of `C` is the IV (R208). -/
def cbcDec (T : SBox) (K : Key) (C : List Byte) : List Byte :=
  match wholeBlocks C with
  | [] => []
  | iv :: cs => stripLast (cbcPlain T (keyExpansion T K) iv cs)

/-- The last 16 bytes of a byte sequence, as a block. -/
def tailBlock (P : List Byte) : Block := blockOf (P.drop (P.length - 16))

/-- `Amb(P)`: a whole number of blocks, at least one, whose last block looks padded (R211). -/
def amb (P : List Byte) : Prop := 16 ≤ P.length ∧ P.length % 16 = 0 ∧ padOK (tailBlock P) = true

end Sys2Proof.Safety
end

