-- ==== Sys2Proof/Certificates/Slice0/Obligations.lean ====
section
/-! DEFINITION. The statements for the provers: what the numbered rules of spec/ say CORE does. In every
statement `completed s pad` is `s` after a command that raises nothing and `raised s e` is `s` after one
that raises `e` (60_exceptions.md R259); a record update of one of them is the whole next state, so it
says also what the command leaves unchanged. Sequencer registers between commands are free values
(notes/assumptions/3.md): a statement says at most that they are in their ranges. -/

open Sys2Proof Sys2Proof.Machine Sys2Proof.Safety

/-! ### Encoding and stepping -/

/-- R81, R82: a word decodes to a command exactly when it is that command's word. -/
def Obligations.DecodeIsInverseOfEncode : Prop :=
  ∀ (c : Byte) (i : Instr), decode c = .command i ↔ encode i = c

/-- R83: the words that encode no command are exactly those the rule lists in clauses (a) to (d). -/
def Obligations.ReservedWordsAreTheListedOnes : Prop :=
  ∀ c : Byte, (∀ i : Instr, decode c ≠ .command i) ↔
    (c.toNat = 0x07 ∨ (0x08 ≤ c.toNat ∧ c.toNat ≤ 0x7F) ∨ c.toNat = 0x87 ∨ c.toNat = 0x8E ∨
      c.toNat = 0x8F ∨ c.toNat = 0x99 ∨ 0x9D ≤ c.toNat)

/-- R81, R82: some words written out from the tables. -/
def Obligations.SampleWordsDecode : Prop :=
  decode 0b00000000#8 = .command .ecbEnc ∧ decode 0b00000011#8 = .command .cbcDec ∧
  decode 0b00000110#8 = .command .keyExp ∧ decode 0b10000110#8 = .command .mul0e ∧
  decode 0b10001011#8 = .command .rdw ∧ decode 0b10010101#8 = .command .addRoundKey ∧
  decode 0b10011010#8 = .command .pad ∧ decode 0b00000111#8 = .reserved .selectSeven

/-- R29, R8: when HOST's next access writes the word of a command, the step is the command's `exec` in
the state in which the access has been made and the word latched. -/
def Obligations.StepRunsTheDecodedCommand : Prop :=
  ∀ (s : State) (c : Byte) (rest : List HostAccess) (i : Instr),
    s.host = .writeCmd c :: rest → decode c = .command i →
      step s = exec i { s with host := rest, cmd := c }

/-- R280: with no access of HOST, CORE is idle and waits; that such a step changes nothing is the model's
choice (notes/assumptions/7.md). -/
def Obligations.IdleCoreWaits : Prop := ∀ s : State, s.host = [] → step s = .next s

/-- R31, R285: a write of `KEY` sets `KEY_VALID` (bit 1), clears `KS_VALID` (bit 2) and changes no other
register; the commands that need the schedule then raise `E_NOKEY`. -/
def Obligations.KeyWriteInvalidatesSchedule : Prop :=
  ∀ (s : State) (k : Key) (rest : List HostAccess), s.host = .writeKey k :: rest →
    ∃ t : State, t = { s with host := rest, key := k, status := (s.status ||| 0x02) &&& 0xFB } ∧
      step s = .next t ∧
      ∀ i : Instr, i = .blkEnc ∨ i = .blkDec ∨ i = .addRoundKey ∨ i = .rdw →
        exec i t = .next (raised t .eNoKey)

/-- R44, R91, R92: what each other access of HOST does. That supplying `IN` also provides an empty
`OUT`, and what an `IV` line fixes, are notes/assumptions/9.md and 10.md. -/
def Obligations.HostAccessesWriteWhatTheyName : Prop :=
  ∀ (s : State) (rest : List HostAccess),
    (∀ b, s.host = .writeBuf b :: rest →
      step s = .next { s with host := rest, buf := Reg.holding b }) ∧
    (∀ b, s.host = .writePrev b :: rest →
      step s = .next { s with host := rest, prev := Reg.holding b }) ∧
    (∀ t, s.host = .writeTmp t :: rest →
      step s = .next { s with host := rest, tmp := Reg.holding t }) ∧
    (∀ a, s.host = .writeOpa a :: rest →
      step s = .next { s with host := rest, opa := Reg.holding a }) ∧
    (∀ n, s.host = .writeLen n :: rest → step s = .next { s with host := rest, len := n }) ∧
    (∀ v, s.host = .supplyIn v :: rest →
      step s = .next
        { s with host := rest, inStream := v, len := v.length, outStream := [] }) ∧
    (s.host = .provideOut :: rest → step s = .next { s with host := rest, outStream := [] }) ∧
    (∀ v, s.host = .fixIv v :: rest → step s = .next { s with host := rest, ivFixed := some v }) ∧
    (∀ r, s.host = .read r :: rest → step s = .next { s with host := rest })

/-- R43, R280: reset leaves `STATUS` 0x00, `LEN` 0, `BYTECOUNT` 0, `PHASE` IDLE and every data register
without a value; `IN` and `OUT` stay as they were. That HOST's further accesses, the count of the draws
of `IVSRC` and a draw an `IV` line has fixed survive a reset is the model's choice
(notes/assumptions/12.md). -/
def Obligations.ResetAccessRestoresCore : Prop :=
  ∀ (s : State) (rest : List HostAccess), s.host = .reset :: rest →
    ∃ t : State, step s = .next t ∧ t.status = 0x00 ∧ t.len = 0 ∧ t.byteCount = 0 ∧ t.phase = .idle ∧
      t.st.written = false ∧ t.buf.written = false ∧ t.prev.written = false ∧
      t.save.written = false ∧ t.tmp.written = false ∧ t.opa.written = false ∧
      t.res.written = false ∧ t.inStream = s.inStream ∧ t.outStream = s.outStream ∧ t.host = rest ∧
      t.ivReads = s.ivReads ∧ t.ivFixed = s.ivFixed

/-- R44, R31, R32: what HOST reads. That a register nothing has written answers no value is the model's
choice (notes/assumptions/11.md). -/
def Obligations.HostReadsTheNamedRegister : Prop :=
  ∀ s : State,
    hostRead .status s = some (.bytes [s.status]) ∧
    hostRead .byteCount s = some (.number s.byteCount) ∧
    hostRead .out s = some (.bytes s.outStream) ∧
    (s.buf.written = true → hostRead .buf s = some (.bytes s.buf.value.toList)) ∧
    (s.prev.written = true → hostRead .prev s = some (.bytes s.prev.value.toList)) ∧
    (s.tmp.written = true → hostRead .tmp s = some (.bytes s.tmp.value.toList)) ∧
    (s.res.written = true → hostRead .res s = some (.bytes [s.res.value]))

/-- R43, R280: the values the spec gives after reset. -/
def Obligations.ResetValuesOfTheSpec : Prop :=
  State.reset.status = 0x00 ∧ State.reset.len = 0 ∧ State.reset.byteCount = 0 ∧
  State.reset.phase = .idle ∧ State.reset.keyValid = false ∧ State.reset.ksValid = false ∧
  State.reset.st.written = false ∧ State.reset.buf.written = false ∧
  State.reset.prev.written = false ∧ State.reset.save.written = false ∧
  State.reset.tmp.written = false ∧ State.reset.opa.written = false ∧
  State.reset.res.written = false

/-! ### Whole-machine rules -/

/-- R259, R260: a command raises exactly the exception of the first check that fails, in the order of
R260, and an exception leaves the state as it was but for `STATUS`, `BYTECOUNT` and `PHASE`. With no
failing check the command completes with `DONE` set and `ERR` 0, except that a file-level command
started with `LEN` different from the length of `IN` is refused (R30; notes/assumptions/8.md). -/
def Obligations.CommandsReportTheFirstFailingCheck : Prop :=
  ∀ (i : Instr) (s : State),
    match firstFailure i s with
    | some e => exec i s = .next (raised s e)
    | none =>
      if fileLevel i = true ∧ s.len ≠ s.inStream.length then
        exec i s = .refused .lenNotInputLength
      else ∃ t : State, exec i s = .next t ∧ t.done = true ∧ t.err = 0 ∧ t.phase = .idle

/-- R21, R44, R66: no command writes `KEY`, `KEY_VALID`, `OPA`, `LEN`, `IN` or `CMD`, or takes an access
away from HOST. -/
def Obligations.NoCommandWritesWhatOnlyHostWrites : Prop :=
  ∀ (i : Instr) (s t : State), exec i s = .next t →
    t.key = s.key ∧ t.keyValid = s.keyValid ∧ t.opa = s.opa ∧ t.len = s.len ∧
    t.inStream = s.inStream ∧ t.cmd = s.cmd ∧ t.host = s.host

/-- R44, R82, R84: a register is written only by the commands the access tables give it to, `OUT` only by
file-level commands, and `IVSRC` is read by `CBC_ENC` only (R38). -/
def Obligations.CommandsWriteOnlyTheirRegisters : Prop :=
  ∀ (i : Instr) (s t : State), exec i s = .next t →
    (i ≠ .cbcDec → t.save = s.save) ∧
    (i ≠ .cbcEnc → i ≠ .cbcDec → t.prev = s.prev) ∧
    (i ≠ .cbcEnc → t.ivReads = s.ivReads ∧ t.ivFixed = s.ivFixed) ∧
    (fileLevel i = false → t.outStream = s.outStream ∧ t.byteCount = 0) ∧
    (fileLevel i = false → i ≠ .keyExp → t.w = s.w ∧ t.ksValid = s.ksValid) ∧
    (fileLevel i = false → i ∉ [.keyExp, .rdw, .rotWord, .subWord] → t.tmp = s.tmp) ∧
    (fileLevel i = false → i ∉ [.blkEnc, .blkDec, .unloadSt, .pad, .xorPrev] → t.buf = s.buf) ∧
    (fileLevel i = false →
      i ∉ [.blkEnc, .blkDec, .loadSt, .subBytes, .shiftRows, .mixColumns, .addRoundKey, .invSubBytes,
        .invShiftRows, .invMixColumns] → t.st = s.st) ∧
    (i ∉ [.xtime, .mul02, .mul03, .mul09, .mul0b, .mul0d, .mul0e, .sboxRd, .invSboxRd, .rconRd,
        .unpad] → t.res = s.res) ∧
    (fileLevel i = false → i ∉ [.keyExp, .blkEnc, .blkDec] → t.seq = s.seq)

/-- The state after reset meets the invariant. Its clause on `WIDX` and `RND` rests on the reset values the
model chose for them (notes/assumptions/3.md). -/
def Obligations.ResetMeetsInvariant : Prop := Inv State.reset

/-- R31, R32, R33, R40: whatever HOST accesses next, a step from a state that meets the invariant leads to
one that meets it. -/
def Obligations.StepKeepsInvariant : Prop :=
  ∀ s t : State, Inv s → step s = .next t → Inv t

/-- R10: two runs of a file-level command that agree on `KEY`, `KEY_VALID`, `IN` and `LEN`, and for
`CBC_ENC` on the draw, agree on everything HOST observes: `DONE`, `ERR`, `PAD_OK`, `BYTECOUNT` and,
when they complete, `OUT`. -/
def Obligations.FileCommandsDependOnKeyAndInputOnly : Prop :=
  ∀ (i : Instr) (s s' t t' : State), fileLevel i = true →
    s.key = s'.key → s.keyValid = s'.keyValid → s.inStream = s'.inStream → s.len = s'.len →
    (i = .cbcEnc → s.ivDraw = s'.ivDraw) →
    exec i s = .next t → exec i s' = .next t' →
      t.done = t'.done ∧ t.err = t'.err ∧ t.padOk = t'.padOk ∧ t.byteCount = t'.byteCount ∧
      (t.err = 0 → t.outStream = t'.outStream)

/-! ### The exceptions -/

/-- R251: a decrypt command on an unacceptable length raises `E_LENGTH` and changes nothing but `STATUS`,
`BYTECOUNT` and `PHASE`; on any other length it does not, and the encrypt commands never do. -/
def Obligations.UnacceptableLengthRaisesELength : Prop :=
  ∀ s : State,
    ((s.len % 16 ≠ 0 ∨ s.len < 16) → exec .ecbDec s = .next (raised s .eLength)) ∧
    ((s.len % 16 ≠ 0 ∨ s.len < 32) → exec .cbcDec s = .next (raised s .eLength)) ∧
    (∀ t, s.len % 16 = 0 → 16 ≤ s.len → exec .ecbDec s = .next t → t.err ≠ 1) ∧
    (∀ t, s.len % 16 = 0 → 32 ≤ s.len → exec .cbcDec s = .next t → t.err ≠ 1) ∧
    (∀ t, exec .ecbEnc s = .next t → t.err ≠ 1) ∧ (∀ t, exec .cbcEnc s = .next t → t.err ≠ 1)

/-- R252: (a) a reserved word, and (b) a small-integer operand out of range, raise `E_RESERVED`, with no
data register, no `W` and no stream changed. -/
def Obligations.ReservedWordOrOperandRaisesEReserved : Prop :=
  (∀ (s : State) (c : Byte) (rest : List HostAccess), s.host = .writeCmd c :: rest →
    (c.toNat = 0x07 ∨ (0x08 ≤ c.toNat ∧ c.toNat ≤ 0x7F) ∨ c.toNat = 0x87 ∨ c.toNat = 0x8E ∨
      c.toNat = 0x8F ∨ c.toNat = 0x99 ∨ 0x9D ≤ c.toNat) →
      step s = .next (raised { s with host := rest, cmd := c } .eReserved)) ∧
  ∀ s : State, s.opa.written = true →
    (10 < s.opa.value.toNat → exec .rconRd s = .next (raised s .eReserved)) ∧
    (59 < s.opa.value.toNat → s.ksValid = true → exec .rdw s = .next (raised s .eReserved)) ∧
    (14 < s.opa.value.toNat → s.ksValid = true → s.st.written = true →
      exec .addRoundKey s = .next (raised s .eReserved)) ∧
    (15 < s.opa.value.toNat → s.buf.written = true → exec .pad s = .next (raised s .eReserved))

/-- R253: (a) a file-level command or `KEYEXP` with no key, and (b) a command that needs the schedule of
the current key with none, raise `E_NOKEY`; the length check of the decrypt commands comes first
(R260). -/
def Obligations.MissingKeyOrScheduleRaisesENoKey : Prop :=
  ∀ s : State,
    (s.keyValid = false →
      exec .ecbEnc s = .next (raised s .eNoKey) ∧ exec .cbcEnc s = .next (raised s .eNoKey) ∧
      exec .keyExp s = .next (raised s .eNoKey) ∧
      (s.len % 16 = 0 → 16 ≤ s.len → exec .ecbDec s = .next (raised s .eNoKey)) ∧
      (s.len % 16 = 0 → 32 ≤ s.len → exec .cbcDec s = .next (raised s .eNoKey))) ∧
    (s.ksValid = false →
      exec .blkEnc s = .next (raised s .eNoKey) ∧ exec .blkDec s = .next (raised s .eNoKey) ∧
      exec .addRoundKey s = .next (raised s .eNoKey) ∧ exec .rdw s = .next (raised s .eNoKey))

/-- R254: a block-level or unit-access command that reads a register nothing has written raises
`E_UNINIT`; a file-level command never does. -/
def Obligations.UnwrittenRegisterRaisesEUninit : Prop :=
  ∀ s : State,
    (∀ i : Instr, i ∈ [.xtime, .mul02, .mul03, .mul09, .mul0b, .mul0d, .mul0e, .sboxRd, .invSboxRd,
        .rconRd, .pad] → s.opa.written = false → exec i s = .next (raised s .eUninit)) ∧
    (∀ i : Instr, i = .rdw ∨ i = .addRoundKey → s.ksValid = true → s.opa.written = false →
      exec i s = .next (raised s .eUninit)) ∧
    (∀ i : Instr, i = .rotWord ∨ i = .subWord → s.tmp.written = false →
      exec i s = .next (raised s .eUninit)) ∧
    (∀ i : Instr, i ∈ [.loadSt, .unpad, .pad, .xorPrev] → s.buf.written = false →
      exec i s = .next (raised s .eUninit)) ∧
    (∀ i : Instr, i = .blkEnc ∨ i = .blkDec → s.ksValid = true → s.buf.written = false →
      exec i s = .next (raised s .eUninit)) ∧
    (∀ i : Instr, i ∈ [.unloadSt, .subBytes, .shiftRows, .mixColumns, .invSubBytes, .invShiftRows,
        .invMixColumns] → s.st.written = false → exec i s = .next (raised s .eUninit)) ∧
    (s.ksValid = true → s.st.written = false →
      exec .addRoundKey s = .next (raised s .eUninit)) ∧
    (s.prev.written = false → exec .xorPrev s = .next (raised s .eUninit)) ∧
    (∀ (i : Instr) (t : State), fileLevel i = true → exec i s = .next t → t.err ≠ 4)

/-- R30, U11: a file-level command that would read `IN` while `LEN` is not its length is refused. Where in
the command the refusal stands is the model's reading (notes/assumptions/8.md). -/
def Obligations.FalseInputLengthIsRefused : Prop :=
  ∀ s : State, s.keyValid = true → s.len ≠ s.inStream.length →
    exec .ecbEnc s = .refused .lenNotInputLength ∧ exec .cbcEnc s = .refused .lenNotInputLength ∧
    (s.len % 16 = 0 → 16 ≤ s.len → exec .ecbDec s = .refused .lenNotInputLength) ∧
    (s.len % 16 = 0 → 32 ≤ s.len → exec .cbcDec s = .refused .lenNotInputLength)

/-! ### Field arithmetic and tables -/

/-- R111: `XTIME` shifts `OPA` left by one bit and XORs `0x1B` when the bit shifted out was 1; `xtime` is
a bijection on bytes. -/
def Obligations.XtimeShiftsAndReduces : Prop :=
  encode .xtime = 0x80 ∧ Function.Bijective xtime ∧
  ∀ s : State,
    (s.opa.written = true → exec .xtime s = .next
      { completed s false with
        res := Reg.holding (if s.opa.value.getLsbD 7 then (s.opa.value <<< 1) ^^^ 0x1B
          else s.opa.value <<< 1) }) ∧
    (s.opa.written = false → exec .xtime s = .next (raised s .eUninit))

/-- R112 to R117, R119: each constant multiplier gives `RES` the general product of its constant and
`OPA`. The spec marks the six XOR-combinations and the product as derived. -/
def Obligations.MultipliersGiveTheGeneralProduct : Prop :=
  ∀ (i : Instr) (c : Byte),
    (i, c) ∈ [(.mul02, 0x02), (.mul03, 0x03), (.mul09, 0x09), (.mul0b, 0x0B), (.mul0d, 0x0D),
      ((.mul0e, 0x0E) : Instr × Byte)] →
    ∀ s : State,
      (s.opa.written = true →
        exec i s = .next { completed s false with res := Reg.holding (gfmul c s.opa.value) }) ∧
      (s.opa.written = false → exec i s = .next (raised s .eUninit))

/-- R120(d), R120(e), which the spec marks as derived: each of the seven functions is linear over XOR and
a bijection on bytes. -/
def Obligations.MultipliersAreLinearBijections : Prop :=
  ∀ f ∈ [xtime, mul02, mul03, mul09, mul0b, mul0d, mul0e],
    f 0 = 0 ∧ (∀ a b : Byte, f (a ^^^ b) = f a ^^^ f b) ∧ Function.Bijective f

/-- R130, R131: `SBOXRD` and `INVSBOXRD` read their tables at `OPA`. -/
def Obligations.TableCommandsReadTheirTable : Prop :=
  encode .sboxRd = 0x88 ∧ encode .invSboxRd = 0x89 ∧
  ∀ s : State,
    (s.opa.written = true → exec .sboxRd s = .next
      { completed s false with res := Reg.holding (Config.sbox s.opa.value) }) ∧
    (s.opa.written = true → exec .invSboxRd s = .next
      { completed s false with res := Reg.holding (Config.sbox.symm s.opa.value) }) ∧
    (s.opa.written = false →
      exec .sboxRd s = .next (raised s .eUninit) ∧ exec .invSboxRd s = .next (raised s .eUninit))

/-- R132(a), R132(b), and their consequence that the spec derives: the tables are permutations of the byte
values and undo one another, whatever the contents. -/
def Obligations.TablesUndoOneAnother : Prop :=
  ∀ T : SBox, Function.Bijective (sboxRead T) ∧ Function.Bijective (invSboxRead T) ∧
    (∀ x : Byte, invSboxRead T (sboxRead T x) = x) ∧ (∀ y : Byte, sboxRead T (invSboxRead T y) = y)

/-! ### The key schedule -/

/-- R140: `RCON[0]` is 0, `RCON[1]` is 1 and each further entry is `xtime` of the one before; the values
are general knowledge by the spec's own mark (93_implementation_defined.md G2). -/
def Obligations.RoundConstantsAreDoublings : Prop :=
  rcon[0] = 0x00 ∧ rcon[1] = 0x01 ∧
  (∀ j : Nat, ∀ h : j + 1 < 11, 1 ≤ j → rcon[j + 1] = xtime rcon[j]) ∧
  rcon.toList = [0x00, 0x01, 0x02, 0x04, 0x08, 0x10, 0x20, 0x40, 0x80, 0x1B, 0x36]

/-- R141: `RCONRD`. -/
def Obligations.RconrdReadsOneRoundConstant : Prop :=
  encode .rconRd = 0x8A ∧
  ∀ s : State,
    (∀ h : s.opa.value.toNat ≤ 10, s.opa.written = true → exec .rconRd s = .next
      { completed s false with res := Reg.holding (rcon[s.opa.value.toNat]'(by omega)) }) ∧
    (s.opa.written = false → exec .rconRd s = .next (raised s .eUninit)) ∧
    (s.opa.written = true → 10 < s.opa.value.toNat →
      exec .rconRd s = .next (raised s .eReserved))

/-- R142: `ROTWORD` moves byte 1 of `TMP` to position 0 and byte 0 to position 3; the spec marks the
direction as derived. -/
def Obligations.RotwordRotatesTmp : Prop :=
  encode .rotWord = 0x8C ∧
  ∀ s : State,
    (s.tmp.written = true → exec .rotWord s = .next
      { completed s false with
        tmp := Reg.holding #v[s.tmp.value[1], s.tmp.value[2], s.tmp.value[3], s.tmp.value[0]] }) ∧
    (s.tmp.written = false → exec .rotWord s = .next (raised s .eUninit))

/-- R143: `SUBWORD` puts each byte of `TMP` through the forward table. -/
def Obligations.SubwordSubstitutesTmp : Prop :=
  encode .subWord = 0x8D ∧
  ∀ s : State,
    (s.tmp.written = true → exec .subWord s = .next
      { completed s false with
        tmp := Reg.holding #v[Config.sbox s.tmp.value[0], Config.sbox s.tmp.value[1],
          Config.sbox s.tmp.value[2], Config.sbox s.tmp.value[3]] }) ∧
    (s.tmp.written = false → exec .subWord s = .next (raised s .eUninit))

/-- R145: the expansion of `K`: words 0 to 7 are the key words, and word `i` from 8 on is word `i-8` XOR
the previous word, rotated, substituted and XORed with a round constant at `i mod 8 = 0`, substituted
at `i mod 8 = 4`, unmodified elsewhere. -/
def Obligations.KeyExpansionFollowsItsRecurrence : Prop :=
  ∀ (T : SBox) (K : Key),
    (∀ i k : Nat, ∀ hi : i < 8, ∀ hk : k < 4, ((keyExpansion T K)[i])[k] = K[4 * i + k]) ∧
    ∀ i : Nat, ∀ hi : i < 60, ∀ h8 : 8 ≤ i, ∀ k : Nat, ∀ hk : k < 4,
      ((keyExpansion T K)[i])[k] =
        ((keyExpansion T K)[i - 8])[k] ^^^ (transformedWord T i hi (keyExpansion T K)[i - 1])[k]

/-- R149: `KEYEXP` writes the schedule of `KEY`, leaves `TMP` holding `W[58]`, and sets `KS_VALID`. -/
def Obligations.KeyexpWritesTheSchedule : Prop :=
  encode .keyExp = 0x06 ∧
  ∀ s : State,
    (s.keyValid = true →
      ∃ n : Nat, 8 ≤ n ∧ n ≤ 60 ∧ exec .keyExp s = .next
        { completed s false with
          status := completedStatus s.status false ||| 0x04
          w := keyExpansion Config.sbox s.key
          tmp := Reg.holding (keyExpansion Config.sbox s.key)[58]
          seq := { s.seq with widx := n }
          seqDraws := s.seqDraws + 1 }) ∧
    (s.keyValid = false → exec .keyExp s = .next (raised s .eNoKey))

/-- R150: `RDW`. -/
def Obligations.RdwReadsOneScheduleWord : Prop :=
  encode .rdw = 0x8B ∧
  ∀ s : State,
    (∀ h : s.opa.value.toNat ≤ 59, s.ksValid = true → s.opa.written = true → exec .rdw s = .next
      { completed s false with tmp := Reg.holding (s.w[s.opa.value.toNat]'(by omega)) }) ∧
    (s.ksValid = false → exec .rdw s = .next (raised s .eNoKey)) ∧
    (s.ksValid = true → s.opa.written = false → exec .rdw s = .next (raised s .eUninit)) ∧
    (s.ksValid = true → s.opa.written = true → 59 < s.opa.value.toNat →
      exec .rdw s = .next (raised s .eReserved))

/-! ### The block transform -/

/-- R160, R161: `LOADST` and `UNLOADST` move a block between `BUF` and `ST` in column-major order, each
undoing the other. -/
def Obligations.LoadAndUnloadAreColumnMajor : Prop :=
  encode .loadSt = 0x90 ∧ encode .unloadSt = 0x91 ∧
  (∀ (B : Block) (r c : Nat) (hr : r < 4) (hc : c < 4), ((load B)[r])[c] = B[r + 4 * c]) ∧
  (∀ (S : Matrix) (i : Nat) (hi : i < 16),
    (unload S)[i] = (S[i % 4]'(Nat.mod_lt _ (by decide)))[i / 4]) ∧
  (∀ B : Block, unload (load B) = B) ∧ (∀ S : Matrix, load (unload S) = S) ∧
  ∀ s : State,
    (s.buf.written = true →
      exec .loadSt s = .next { completed s false with st := Reg.holding (load s.buf.value) }) ∧
    (s.buf.written = false → exec .loadSt s = .next (raised s .eUninit)) ∧
    (s.st.written = true →
      exec .unloadSt s = .next { completed s false with buf := Reg.holding (unload s.st.value) }) ∧
    (s.st.written = false → exec .unloadSt s = .next (raised s .eUninit))

/-- R162: `SUBBYTES` puts every byte of `ST` through the forward table. -/
def Obligations.SubbytesSubstitutesEveryCell : Prop :=
  encode .subBytes = 0x92 ∧
  ∀ s : State,
    (s.st.written = true → ∃ S : Matrix,
      (∀ r c : Fin 4, S[r][c] = Config.sbox s.st.value[r][c]) ∧
      exec .subBytes s = .next { completed s false with st := Reg.holding S }) ∧
    (s.st.written = false → exec .subBytes s = .next (raised s .eUninit))

/-- R166: `INVSUBBYTES` puts every byte of `ST` through the inverse table; that it undoes `SUBBYTES` is a
statement of its own. -/
def Obligations.InvsubbytesSubstitutesEveryCell : Prop :=
  encode .invSubBytes = 0x96 ∧
  ∀ s : State,
    (s.st.written = true → ∃ S : Matrix,
      (∀ r c : Fin 4, Config.sbox S[r][c] = s.st.value[r][c]) ∧
      exec .invSubBytes s = .next { completed s false with st := Reg.holding S }) ∧
    (s.st.written = false → exec .invSubBytes s = .next (raised s .eUninit))

/-- R163: `SHIFTROWS` rotates row `r` of `ST` left by `r` positions, row 0 unchanged. -/
def Obligations.ShiftrowsRotatesRowsLeft : Prop :=
  encode .shiftRows = 0x93 ∧
  ∀ s : State,
    (s.st.written = true → ∃ S : Matrix,
      (∀ r c : Fin 4, S[r][c] =
        s.st.value[r][(c.val + r.val) % 4]'(Nat.mod_lt _ (by decide))) ∧
      exec .shiftRows s = .next { completed s false with st := Reg.holding S }) ∧
    (s.st.written = false → exec .shiftRows s = .next (raised s .eUninit))

/-- R167: `INVSHIFTROWS` moves the byte in column `c` of row `r` to column `(c + r) mod 4`; that it undoes
`SHIFTROWS` is a statement of its own. -/
def Obligations.InvshiftrowsRotatesRowsRight : Prop :=
  encode .invShiftRows = 0x97 ∧
  ∀ s : State,
    (s.st.written = true → ∃ S : Matrix,
      (∀ r c : Fin 4, S[r][(c.val + r.val) % 4]'(Nat.mod_lt _ (by decide)) = s.st.value[r][c]) ∧
      exec .invShiftRows s = .next { completed s false with st := Reg.holding S }) ∧
    (s.st.written = false → exec .invShiftRows s = .next (raised s .eUninit))

/-- R164, R168: `MIXCOLUMNS` and `INVMIXCOLUMNS` multiply each column of `ST` on the left by the circulant
matrix whose row `r` is its first row, `MIX_COEF` or `INVMIX_COEF`, rotated right by `r` places. The
placement of the coefficients is general knowledge by the spec's own mark (G3). -/
def Obligations.ColumnMixesAreCirculantProducts : Prop :=
  ∀ (i : Instr) (coef : Vector Byte 4),
    (i = .mixColumns ∧ coef = #v[2, 3, 1, 1]) ∨ (i = .invMixColumns ∧ coef = #v[14, 11, 13, 9]) →
    ∀ s : State,
      (s.st.written = true → ∃ S : Matrix,
        (∀ r c : Fin 4, S[r][c] =
          gfmul (coef[(4 - r.val) % 4]'(Nat.mod_lt _ (by decide))) s.st.value[0][c] ^^^
          gfmul (coef[(5 - r.val) % 4]'(Nat.mod_lt _ (by decide))) s.st.value[1][c] ^^^
          gfmul (coef[(6 - r.val) % 4]'(Nat.mod_lt _ (by decide))) s.st.value[2][c] ^^^
          gfmul (coef[(7 - r.val) % 4]'(Nat.mod_lt _ (by decide))) s.st.value[3][c]) ∧
        exec i s = .next { completed s false with st := Reg.holding S }) ∧
      (s.st.written = false → exec i s = .next (raised s .eUninit))

/-- R165: `ADDROUNDKEY` XORs byte `r` of schedule word `4*rd + c` into row `r`, column `c`, for the round
number `rd` in `OPA`, and is its own inverse. -/
def Obligations.AddroundkeyXorsTheRoundKey : Prop :=
  encode .addRoundKey = 0x95 ∧
  (∀ (S : Matrix) (W : Schedule) (rd : Fin 15), addRoundKey (addRoundKey S W rd) W rd = S) ∧
  ∀ s : State,
    (∀ h : s.opa.value.toNat ≤ 14, s.ksValid = true → s.st.written = true → s.opa.written = true →
      ∃ S : Matrix,
        (∀ r c : Fin 4, S[r][c] = s.st.value[r][c] ^^^
          (s.w[4 * s.opa.value.toNat + c.val]'(by have := c.isLt; omega))[r]) ∧
        exec .addRoundKey s = .next { completed s false with st := Reg.holding S }) ∧
    (s.ksValid = false → exec .addRoundKey s = .next (raised s .eNoKey)) ∧
    (s.ksValid = true → (s.st.written = false ∨ s.opa.written = false) →
      exec .addRoundKey s = .next (raised s .eUninit)) ∧
    (s.ksValid = true → s.st.written = true → s.opa.written = true → 14 < s.opa.value.toNat →
      exec .addRoundKey s = .next (raised s .eReserved))

/-- R166, R167, R168: each inverse round operation undoes its forward one, and the other way round; laws
the spec marks as derived. -/
def Obligations.InverseRoundOperationsUndoForwardOnes : Prop :=
  (∀ (T : SBox) (S : Matrix), invSubBytes T (subBytes T S) = S ∧ subBytes T (invSubBytes T S) = S) ∧
  (∀ S : Matrix, invShiftRows (shiftRows S) = S ∧ shiftRows (invShiftRows S) = S) ∧
  (∀ S : Matrix, invMixColumns (mixColumns S) = S ∧ mixColumns (invMixColumns S) = S)

/-- R169, 90_conflicts.md C6: the forward cipher adds round key 0 and then, in each of the rounds 1 to 14,
substitutes, shifts rows, mixes columns and adds the round key; no round skips the column mix. -/
def Obligations.CipherMixesColumnsInEveryRound : Prop :=
  ∀ (T : SBox) (B : Block) (W : Schedule),
    cipher T B W = unload ((List.finRange 14).foldl
      (fun S k => addRoundKey (mixColumns (shiftRows (subBytes T S))) W k.succ)
      (addRoundKey (load B) W 0))

/-- R170 (the second formulation), 90_conflicts.md C1: the inverse cipher undoes the rounds 14 to 1 step by
step and then round key 0. -/
def Obligations.InvCipherUndoesRoundsStepByStep : Prop :=
  ∀ (T : SBox) (B : Block) (W : Schedule),
    invCipher T B W = unload (addRoundKey
      ((List.finRange 14).reverse.foldl
        (fun S k => invSubBytes T (invShiftRows (invMixColumns (addRoundKey S W k.succ)))) (load B))
      W 0)

/-- R170 (its law, which the spec derives): for every table, block and schedule, each cipher undoes the
other. -/
def Obligations.CiphersUndoOneAnother : Prop :=
  ∀ (T : SBox) (B : Block) (W : Schedule),
    invCipher T (cipher T B W) W = B ∧ cipher T (invCipher T B W) W = B

/-- R171: `BLK_ENC` runs the forward cipher on the block in `BUF`; `ST` is left holding the final State. -/
def Obligations.BlkEncEnciphersBuf : Prop :=
  encode .blkEnc = 0x04 ∧
  ∀ s : State,
    (s.ksValid = true → s.buf.written = true →
      ∃ n : Nat, n ≤ 14 ∧ exec .blkEnc s = .next
        { completed s false with
          buf := Reg.holding (cipher Config.sbox s.buf.value s.w)
          st := Reg.holding (load (cipher Config.sbox s.buf.value s.w))
          seq := { s.seq with rnd := n }
          seqDraws := s.seqDraws + 1 }) ∧
    (s.ksValid = false → exec .blkEnc s = .next (raised s .eNoKey)) ∧
    (s.ksValid = true → s.buf.written = false → exec .blkEnc s = .next (raised s .eUninit))

/-- R172: `BLK_DEC` runs the inverse cipher on the block in `BUF`, and each of the two commands after the
other restores `BUF`. -/
def Obligations.BlkDecDeciphersBufAndRestoresIt : Prop :=
  encode .blkDec = 0x05 ∧
  (∀ s : State,
    (s.ksValid = true → s.buf.written = true →
      ∃ n : Nat, n ≤ 14 ∧ exec .blkDec s = .next
        { completed s false with
          buf := Reg.holding (invCipher Config.sbox s.buf.value s.w)
          st := Reg.holding (load (invCipher Config.sbox s.buf.value s.w))
          seq := { s.seq with rnd := n }
          seqDraws := s.seqDraws + 1 }) ∧
    (s.ksValid = false → exec .blkDec s = .next (raised s .eNoKey)) ∧
    (s.ksValid = true → s.buf.written = false → exec .blkDec s = .next (raised s .eUninit))) ∧
  ∀ s : State, s.ksValid = true → s.buf.written = true →
    (∃ t u : State, exec .blkEnc s = .next t ∧ exec .blkDec t = .next u ∧ u.buf = s.buf) ∧
    (∃ t u : State, exec .blkDec s = .next t ∧ exec .blkEnc t = .next u ∧ u.buf = s.buf)

/-! ### The padding unit and the chaining XOR -/

/-- R201, with the format of R86: `PAD` keeps the first `OPA` bytes of `BUF`, zeroes the rest up to byte 14
and puts the pad length in byte 15. -/
def Obligations.PadWritesThePaddedFormat : Prop :=
  encode .pad = 0x9A ∧
  ∀ s : State,
    (s.opa.written = true → s.buf.written = true → s.opa.value.toNat ≤ 15 → ∃ B : Block,
      (∀ i : Nat, ∀ h : i < 16, i < s.opa.value.toNat → B[i] = s.buf.value[i]) ∧
      (∀ i : Nat, ∀ h : i < 15, s.opa.value.toNat ≤ i → B[i] = 0) ∧
      B[15].toNat = 16 - s.opa.value.toNat ∧
      exec .pad s = .next { completed s false with buf := Reg.holding B }) ∧
    ((s.opa.written = false ∨ s.buf.written = false) →
      exec .pad s = .next (raised s .eUninit)) ∧
    (s.opa.written = true → s.buf.written = true → 15 < s.opa.value.toNat →
      exec .pad s = .next (raised s .eReserved))

/-- R202, with R87 for the pad lengths 0 and above 16: `UNPAD` gives `RES` the number of bytes kept and
`PAD_OK` the outcome of the verification. -/
def Obligations.UnpadCountsTheKeptBytes : Prop :=
  encode .unpad = 0x9B ∧
  ∀ s : State,
    (s.buf.written = true →
      ((1 ≤ s.buf.value[15].toNat ∧ s.buf.value[15].toNat ≤ 16 ∧
          ∀ i : Nat, ∀ h : i < 15, 16 - s.buf.value[15].toNat ≤ i → s.buf.value[i] = 0) →
        exec .unpad s = .next
          { completed s true with res := Reg.holding (16 - s.buf.value[15]) }) ∧
      (¬ (1 ≤ s.buf.value[15].toNat ∧ s.buf.value[15].toNat ≤ 16 ∧
          ∀ i : Nat, ∀ h : i < 15, 16 - s.buf.value[15].toNat ≤ i → s.buf.value[i] = 0) →
        exec .unpad s = .next { completed s false with res := Reg.holding 16 })) ∧
    (s.buf.written = false → exec .unpad s = .next (raised s .eUninit))

/-- R202 (a law the spec derives): unpadding a padded sequence gives the sequence back. -/
def Obligations.UnpadUndoesPad : Prop := ∀ v : List Byte, v.length ≤ 15 → unpad (pad v) = v

/-- R203: `XORPREV` XORs `PREV` into `BUF` byte by byte, leaves `PREV` unchanged and is its own inverse. -/
def Obligations.XorprevXorsPrevIntoBuf : Prop :=
  encode .xorPrev = 0x9C ∧
  (∀ a b : Block, xorBlock (xorBlock a b) b = a) ∧
  ∀ s : State,
    (s.buf.written = true → s.prev.written = true → ∃ B : Block,
      (∀ i : Nat, ∀ h : i < 16, B[i] = s.buf.value[i] ^^^ s.prev.value[i]) ∧
      B = xorBlock s.buf.value s.prev.value ∧
      exec .xorPrev s = .next { completed s false with buf := Reg.holding B }) ∧
    ((s.buf.written = false ∨ s.prev.written = false) →
      exec .xorPrev s = .next (raised s .eUninit))

/-! ### The file-level commands -/

/-- R205: with a key and `LEN` the length of `IN`, the loop of `ECB_ENC` writes `C_0 ++ .. ++ C_{NB-1}`, where
`C_j` is the forward cipher of plaintext block `j`, padded if short; with no key it raises `E_NOKEY`. -/
def Obligations.EcbEncWritesTheEcbCiphertext : Prop :=
  encode .ecbEnc = 0x00 ∧
  (∀ s : State, s.keyValid = false → exec .ecbEnc s = .next (raised s .eNoKey)) ∧
  ∀ s : State, s.keyValid = true → s.len = s.inStream.length →
    let W := keyExpansion Config.sbox s.key
    let C := ecbBlocks Config.sbox W (plainBlocks s.inStream)
    ∃ q : Sequencer, 8 ≤ q.widx ∧ q.widx ≤ 60 ∧ q.rnd ≤ 14 ∧ exec .ecbEnc s = .next
      { completed s false with
        status := completedStatus s.status false ||| 0x04
        w := W
        tmp := Reg.holding W[58]
        buf := Reg.holding (lastBlock C)
        st := Reg.holding (load (lastBlock C))
        outStream := flatten C
        byteCount := 16 * nbBlocks s.len
        seq := q
        seqDraws := s.seqDraws + 1 }

/-- R206: with a key, an acceptable length and `LEN` the length of `IN`, `ECB_DEC` writes the inverse cipher
of each block, only the last one going through the padding verification, whose outcome is `PAD_OK`. -/
def Obligations.EcbDecWritesTheEcbPlaintext : Prop :=
  encode .ecbDec = 0x01 ∧
  (∀ s : State, (s.len % 16 ≠ 0 ∨ s.len < 16) → exec .ecbDec s = .next (raised s .eLength)) ∧
  (∀ s : State, s.len % 16 = 0 → 16 ≤ s.len → s.keyValid = false →
    exec .ecbDec s = .next (raised s .eNoKey)) ∧
  ∀ s : State, s.len % 16 = 0 → 16 ≤ s.len → s.keyValid = true → s.len = s.inStream.length →
    let W := keyExpansion Config.sbox s.key
    let P := ecbPlain Config.sbox W (wholeBlocks s.inStream)
    ∃ q : Sequencer, 8 ≤ q.widx ∧ q.widx ≤ 60 ∧ q.rnd ≤ 14 ∧ exec .ecbDec s = .next
      { completed s false with
        status := completedStatus s.status (padOK (lastBlock P)) ||| 0x04
        w := W
        tmp := Reg.holding W[58]
        buf := Reg.holding (lastBlock P)
        st := Reg.holding (load (lastBlock P))
        outStream := stripLast P
        byteCount := (stripLast P).length
        seq := q
        seqDraws := s.seqDraws + 1 }

/-- R207: with a key and `LEN` the length of `IN`, `CBC_ENC` writes the draw of `IVSRC` and then the chained
cipher blocks, leaves the last of them in `PREV` and `BUF`, and reads `IVSRC` once; with no key it
raises `E_NOKEY`. That this one read uses up a draw an `IV` line has fixed (`ivFixed := none`) is the
model's choice (notes/assumptions/10.md). -/
def Obligations.CbcEncWritesTheCbcCiphertext : Prop :=
  encode .cbcEnc = 0x02 ∧
  (∀ s : State, s.keyValid = false → exec .cbcEnc s = .next (raised s .eNoKey)) ∧
  ∀ s : State, s.keyValid = true → s.len = s.inStream.length →
    let W := keyExpansion Config.sbox s.key
    let C := cbcBlocks Config.sbox W s.ivDraw (plainBlocks s.inStream)
    ∃ q : Sequencer, 8 ≤ q.widx ∧ q.widx ≤ 60 ∧ q.rnd ≤ 14 ∧ exec .cbcEnc s = .next
      { completed s false with
        status := completedStatus s.status false ||| 0x04
        w := W
        tmp := Reg.holding W[58]
        buf := Reg.holding (lastBlock C)
        prev := Reg.holding (lastBlock C)
        st := Reg.holding (load (lastBlock C))
        outStream := s.ivDraw.toList ++ flatten C
        byteCount := 16 * (1 + nbBlocks s.len)
        ivReads := s.ivReads + 1
        ivFixed := none
        seq := q
        seqDraws := s.seqDraws + 1 }

/-- R208: with a key, an acceptable length and `LEN` the length of `IN`, `CBC_DEC` takes the first block as
the IV and writes, for each further block, its inverse cipher XOR the ciphertext block before it, the
last one through the padding verification; `PREV` and `SAVE` end as the last ciphertext block. -/
def Obligations.CbcDecWritesTheCbcPlaintext : Prop :=
  encode .cbcDec = 0x03 ∧
  (∀ s : State, (s.len % 16 ≠ 0 ∨ s.len < 32) → exec .cbcDec s = .next (raised s .eLength)) ∧
  (∀ s : State, s.len % 16 = 0 → 32 ≤ s.len → s.keyValid = false →
    exec .cbcDec s = .next (raised s .eNoKey)) ∧
  ∀ s : State, s.len % 16 = 0 → 32 ≤ s.len → s.keyValid = true → s.len = s.inStream.length →
    let W := keyExpansion Config.sbox s.key
    let iv := (wholeBlocks s.inStream).headD zeroBlock
    let C := (wholeBlocks s.inStream).tail
    let P := cbcPlain Config.sbox W iv C
    ∃ q : Sequencer, 8 ≤ q.widx ∧ q.widx ≤ 60 ∧ q.rnd ≤ 14 ∧ exec .cbcDec s = .next
      { completed s false with
        status := completedStatus s.status (padOK (lastBlock P)) ||| 0x04
        w := W
        tmp := Reg.holding W[58]
        buf := Reg.holding (lastBlock P)
        prev := Reg.holding (lastBlock C)
        save := Reg.holding (lastBlock C)
        st := Reg.holding (load (invCipher Config.sbox (lastBlock C) W))
        outStream := stripLast P
        byteCount := (stripLast P).length
        seq := q
        seqDraws := s.seqDraws + 1 }

/-! ### Properties of the file formats -/

/-- R209: the lengths of the ciphertexts, and that each passes the length check of its decryption. -/
def Obligations.CiphertextLengths : Prop :=
  ∀ (T : SBox) (K : Key) (iv : Block) (P : List Byte),
    (ecbEnc T K P).length = 16 * nbBlocks P.length ∧
    (cbcEnc T K iv P).length = 16 * (1 + nbBlocks P.length) ∧
    badLength false (ecbEnc T K P).length = false ∧
    badLength true (cbcEnc T K iv P).length = false

/-- R211 (which the spec derives): decrypting the encryption of `P` gives `P` back, unless `Amb(P)` holds,
and then `P` without its last `p` bytes, `p` the value of its last byte. -/
def Obligations.FileRoundTrip : Prop :=
  ∀ (T : SBox) (K : Key) (iv : Block) (P : List Byte),
    (¬ amb P → ecbDec T K (ecbEnc T K P) = P ∧ cbcDec T K (cbcEnc T K iv P) = P) ∧
    (amb P →
      ecbDec T K (ecbEnc T K P) = P.take (P.length - (tailBlock P)[15].toNat) ∧
      cbcDec T K (cbcEnc T K iv P) = P.take (P.length - (tailBlock P)[15].toNat))

/-- R212: a sequence of whole blocks followed by a short rest `v`, and the same followed by `Pad(v)`, have
one ciphertext, which decrypts to the first. The rule says so for an empty `v` too, which R200 and R215
contradict when whole blocks stand before it; that case is left out here. -/
def Obligations.PaddingAmbiguityIsACollision : Prop :=
  ∀ (T : SBox) (K : Key) (iv : Block) (Q v : List Byte),
    Q.length % 16 = 0 → v.length ≤ 15 → (v ≠ [] ∨ Q = []) →
      ecbEnc T K (Q ++ v) = ecbEnc T K (Q ++ (pad v).toList) ∧
      cbcEnc T K iv (Q ++ v) = cbcEnc T K iv (Q ++ (pad v).toList) ∧
      ecbDec T K (ecbEnc T K (Q ++ v)) = Q ++ v ∧ cbcDec T K (cbcEnc T K iv (Q ++ v)) = Q ++ v

/-- R213(b), R213(c), which the spec derives: XORing `d` into one cipher block changes the decrypted blocks
at that place and the next only, the next by XOR `d`; XORing `d` into the IV changes the first decrypted
block only, by XOR `d`. -/
def Obligations.CbcErrorsStayLocal : Prop :=
  ∀ (T : SBox) (W : Schedule) (iv d C D : Block) (before after : List Block),
    let P := cbcPlain T W iv (before ++ C :: D :: after)
    let P' := cbcPlain T W iv (before ++ xorBlock C d :: D :: after)
    (P'.length = P.length ∧
      (∀ k : Nat, k ≠ before.length → k ≠ before.length + 1 → P'[k]? = P[k]?) ∧
      P'[before.length + 1]? = P[before.length + 1]?.map fun B => xorBlock B d) ∧
    (cbcPlain T W (xorBlock iv d) (C :: after) =
      match cbcPlain T W iv (C :: after) with
      | [] => []
      | B :: bs => xorBlock B d :: bs)
end

