-- ==== Sys2Proof/Laws/State.lean ====
section
/-! SUPPORT. One lemma per field of `State` for each shared update: a field the update writes, and every
field it leaves as it was. -/

namespace Sys2Proof.Machine

@[simp] theorem holding_value {α : Type} (v : α) : (Reg.holding v).value = v := rfl
@[simp] theorem holding_written {α : Type} (v : α) : (Reg.holding v).written = true := rfl
@[simp] theorem unwritten_written {α : Type} (v : α) : (Reg.unwritten v).written = false := rfl

/-! `setDone` -/

@[simp] theorem setDone_key (v : Bool) (s : State) : (State.setDone v s).key = s.key := rfl
@[simp] theorem setDone_w (v : Bool) (s : State) : (State.setDone v s).w = s.w := rfl
@[simp] theorem setDone_st (v : Bool) (s : State) : (State.setDone v s).st = s.st := rfl
@[simp] theorem setDone_buf (v : Bool) (s : State) : (State.setDone v s).buf = s.buf := rfl
@[simp] theorem setDone_prev (v : Bool) (s : State) : (State.setDone v s).prev = s.prev := rfl
@[simp] theorem setDone_save (v : Bool) (s : State) : (State.setDone v s).save = s.save := rfl
@[simp] theorem setDone_tmp (v : Bool) (s : State) : (State.setDone v s).tmp = s.tmp := rfl
@[simp] theorem setDone_opa (v : Bool) (s : State) : (State.setDone v s).opa = s.opa := rfl
@[simp] theorem setDone_res (v : Bool) (s : State) : (State.setDone v s).res = s.res := rfl
@[simp] theorem setDone_cmd (v : Bool) (s : State) : (State.setDone v s).cmd = s.cmd := rfl
@[simp] theorem setDone_len (v : Bool) (s : State) : (State.setDone v s).len = s.len := rfl
@[simp] theorem setDone_status (v : Bool) (s : State) : (State.setDone v s).status = setBit 0 v s.status := rfl
@[simp] theorem setDone_byteCount (v : Bool) (s : State) : (State.setDone v s).byteCount = s.byteCount := rfl
@[simp] theorem setDone_phase (v : Bool) (s : State) : (State.setDone v s).phase = s.phase := rfl
@[simp] theorem setDone_seq (v : Bool) (s : State) : (State.setDone v s).seq = s.seq := rfl
@[simp] theorem setDone_inStream (v : Bool) (s : State) : (State.setDone v s).inStream = s.inStream := rfl
@[simp] theorem setDone_outStream (v : Bool) (s : State) : (State.setDone v s).outStream = s.outStream := rfl
@[simp] theorem setDone_host (v : Bool) (s : State) : (State.setDone v s).host = s.host := rfl
@[simp] theorem setDone_ivReads (v : Bool) (s : State) : (State.setDone v s).ivReads = s.ivReads := rfl
@[simp] theorem setDone_ivFixed (v : Bool) (s : State) : (State.setDone v s).ivFixed = s.ivFixed := rfl
@[simp] theorem setDone_seqDraws (v : Bool) (s : State) : (State.setDone v s).seqDraws = s.seqDraws := rfl

/-! `setKeyValid` -/

@[simp] theorem setKeyValid_key (v : Bool) (s : State) : (State.setKeyValid v s).key = s.key := rfl
@[simp] theorem setKeyValid_w (v : Bool) (s : State) : (State.setKeyValid v s).w = s.w := rfl
@[simp] theorem setKeyValid_st (v : Bool) (s : State) : (State.setKeyValid v s).st = s.st := rfl
@[simp] theorem setKeyValid_buf (v : Bool) (s : State) : (State.setKeyValid v s).buf = s.buf := rfl
@[simp] theorem setKeyValid_prev (v : Bool) (s : State) : (State.setKeyValid v s).prev = s.prev := rfl
@[simp] theorem setKeyValid_save (v : Bool) (s : State) : (State.setKeyValid v s).save = s.save := rfl
@[simp] theorem setKeyValid_tmp (v : Bool) (s : State) : (State.setKeyValid v s).tmp = s.tmp := rfl
@[simp] theorem setKeyValid_opa (v : Bool) (s : State) : (State.setKeyValid v s).opa = s.opa := rfl
@[simp] theorem setKeyValid_res (v : Bool) (s : State) : (State.setKeyValid v s).res = s.res := rfl
@[simp] theorem setKeyValid_cmd (v : Bool) (s : State) : (State.setKeyValid v s).cmd = s.cmd := rfl
@[simp] theorem setKeyValid_len (v : Bool) (s : State) : (State.setKeyValid v s).len = s.len := rfl
@[simp] theorem setKeyValid_status (v : Bool) (s : State) : (State.setKeyValid v s).status = setBit 1 v s.status := rfl
@[simp] theorem setKeyValid_byteCount (v : Bool) (s : State) : (State.setKeyValid v s).byteCount = s.byteCount := rfl
@[simp] theorem setKeyValid_phase (v : Bool) (s : State) : (State.setKeyValid v s).phase = s.phase := rfl
@[simp] theorem setKeyValid_seq (v : Bool) (s : State) : (State.setKeyValid v s).seq = s.seq := rfl
@[simp] theorem setKeyValid_inStream (v : Bool) (s : State) : (State.setKeyValid v s).inStream = s.inStream := rfl
@[simp] theorem setKeyValid_outStream (v : Bool) (s : State) : (State.setKeyValid v s).outStream = s.outStream := rfl
@[simp] theorem setKeyValid_host (v : Bool) (s : State) : (State.setKeyValid v s).host = s.host := rfl
@[simp] theorem setKeyValid_ivReads (v : Bool) (s : State) : (State.setKeyValid v s).ivReads = s.ivReads := rfl
@[simp] theorem setKeyValid_ivFixed (v : Bool) (s : State) : (State.setKeyValid v s).ivFixed = s.ivFixed := rfl
@[simp] theorem setKeyValid_seqDraws (v : Bool) (s : State) : (State.setKeyValid v s).seqDraws = s.seqDraws := rfl

/-! `setKsValid` -/

@[simp] theorem setKsValid_key (v : Bool) (s : State) : (State.setKsValid v s).key = s.key := rfl
@[simp] theorem setKsValid_w (v : Bool) (s : State) : (State.setKsValid v s).w = s.w := rfl
@[simp] theorem setKsValid_st (v : Bool) (s : State) : (State.setKsValid v s).st = s.st := rfl
@[simp] theorem setKsValid_buf (v : Bool) (s : State) : (State.setKsValid v s).buf = s.buf := rfl
@[simp] theorem setKsValid_prev (v : Bool) (s : State) : (State.setKsValid v s).prev = s.prev := rfl
@[simp] theorem setKsValid_save (v : Bool) (s : State) : (State.setKsValid v s).save = s.save := rfl
@[simp] theorem setKsValid_tmp (v : Bool) (s : State) : (State.setKsValid v s).tmp = s.tmp := rfl
@[simp] theorem setKsValid_opa (v : Bool) (s : State) : (State.setKsValid v s).opa = s.opa := rfl
@[simp] theorem setKsValid_res (v : Bool) (s : State) : (State.setKsValid v s).res = s.res := rfl
@[simp] theorem setKsValid_cmd (v : Bool) (s : State) : (State.setKsValid v s).cmd = s.cmd := rfl
@[simp] theorem setKsValid_len (v : Bool) (s : State) : (State.setKsValid v s).len = s.len := rfl
@[simp] theorem setKsValid_status (v : Bool) (s : State) : (State.setKsValid v s).status = setBit 2 v s.status := rfl
@[simp] theorem setKsValid_byteCount (v : Bool) (s : State) : (State.setKsValid v s).byteCount = s.byteCount := rfl
@[simp] theorem setKsValid_phase (v : Bool) (s : State) : (State.setKsValid v s).phase = s.phase := rfl
@[simp] theorem setKsValid_seq (v : Bool) (s : State) : (State.setKsValid v s).seq = s.seq := rfl
@[simp] theorem setKsValid_inStream (v : Bool) (s : State) : (State.setKsValid v s).inStream = s.inStream := rfl
@[simp] theorem setKsValid_outStream (v : Bool) (s : State) : (State.setKsValid v s).outStream = s.outStream := rfl
@[simp] theorem setKsValid_host (v : Bool) (s : State) : (State.setKsValid v s).host = s.host := rfl
@[simp] theorem setKsValid_ivReads (v : Bool) (s : State) : (State.setKsValid v s).ivReads = s.ivReads := rfl
@[simp] theorem setKsValid_ivFixed (v : Bool) (s : State) : (State.setKsValid v s).ivFixed = s.ivFixed := rfl
@[simp] theorem setKsValid_seqDraws (v : Bool) (s : State) : (State.setKsValid v s).seqDraws = s.seqDraws := rfl

/-! `setPadOk` -/

@[simp] theorem setPadOk_key (v : Bool) (s : State) : (State.setPadOk v s).key = s.key := rfl
@[simp] theorem setPadOk_w (v : Bool) (s : State) : (State.setPadOk v s).w = s.w := rfl
@[simp] theorem setPadOk_st (v : Bool) (s : State) : (State.setPadOk v s).st = s.st := rfl
@[simp] theorem setPadOk_buf (v : Bool) (s : State) : (State.setPadOk v s).buf = s.buf := rfl
@[simp] theorem setPadOk_prev (v : Bool) (s : State) : (State.setPadOk v s).prev = s.prev := rfl
@[simp] theorem setPadOk_save (v : Bool) (s : State) : (State.setPadOk v s).save = s.save := rfl
@[simp] theorem setPadOk_tmp (v : Bool) (s : State) : (State.setPadOk v s).tmp = s.tmp := rfl
@[simp] theorem setPadOk_opa (v : Bool) (s : State) : (State.setPadOk v s).opa = s.opa := rfl
@[simp] theorem setPadOk_res (v : Bool) (s : State) : (State.setPadOk v s).res = s.res := rfl
@[simp] theorem setPadOk_cmd (v : Bool) (s : State) : (State.setPadOk v s).cmd = s.cmd := rfl
@[simp] theorem setPadOk_len (v : Bool) (s : State) : (State.setPadOk v s).len = s.len := rfl
@[simp] theorem setPadOk_status (v : Bool) (s : State) : (State.setPadOk v s).status = setBit 3 v s.status := rfl
@[simp] theorem setPadOk_byteCount (v : Bool) (s : State) : (State.setPadOk v s).byteCount = s.byteCount := rfl
@[simp] theorem setPadOk_phase (v : Bool) (s : State) : (State.setPadOk v s).phase = s.phase := rfl
@[simp] theorem setPadOk_seq (v : Bool) (s : State) : (State.setPadOk v s).seq = s.seq := rfl
@[simp] theorem setPadOk_inStream (v : Bool) (s : State) : (State.setPadOk v s).inStream = s.inStream := rfl
@[simp] theorem setPadOk_outStream (v : Bool) (s : State) : (State.setPadOk v s).outStream = s.outStream := rfl
@[simp] theorem setPadOk_host (v : Bool) (s : State) : (State.setPadOk v s).host = s.host := rfl
@[simp] theorem setPadOk_ivReads (v : Bool) (s : State) : (State.setPadOk v s).ivReads = s.ivReads := rfl
@[simp] theorem setPadOk_ivFixed (v : Bool) (s : State) : (State.setPadOk v s).ivFixed = s.ivFixed := rfl
@[simp] theorem setPadOk_seqDraws (v : Bool) (s : State) : (State.setPadOk v s).seqDraws = s.seqDraws := rfl

/-! `setErr` -/

@[simp] theorem setErr_key (c : BitVec 3) (s : State) : (State.setErr c s).key = s.key := rfl
@[simp] theorem setErr_w (c : BitVec 3) (s : State) : (State.setErr c s).w = s.w := rfl
@[simp] theorem setErr_st (c : BitVec 3) (s : State) : (State.setErr c s).st = s.st := rfl
@[simp] theorem setErr_buf (c : BitVec 3) (s : State) : (State.setErr c s).buf = s.buf := rfl
@[simp] theorem setErr_prev (c : BitVec 3) (s : State) : (State.setErr c s).prev = s.prev := rfl
@[simp] theorem setErr_save (c : BitVec 3) (s : State) : (State.setErr c s).save = s.save := rfl
@[simp] theorem setErr_tmp (c : BitVec 3) (s : State) : (State.setErr c s).tmp = s.tmp := rfl
@[simp] theorem setErr_opa (c : BitVec 3) (s : State) : (State.setErr c s).opa = s.opa := rfl
@[simp] theorem setErr_res (c : BitVec 3) (s : State) : (State.setErr c s).res = s.res := rfl
@[simp] theorem setErr_cmd (c : BitVec 3) (s : State) : (State.setErr c s).cmd = s.cmd := rfl
@[simp] theorem setErr_len (c : BitVec 3) (s : State) : (State.setErr c s).len = s.len := rfl
@[simp] theorem setErr_status (c : BitVec 3) (s : State) : (State.setErr c s).status = withErr c s.status := rfl
@[simp] theorem setErr_byteCount (c : BitVec 3) (s : State) : (State.setErr c s).byteCount = s.byteCount := rfl
@[simp] theorem setErr_phase (c : BitVec 3) (s : State) : (State.setErr c s).phase = s.phase := rfl
@[simp] theorem setErr_seq (c : BitVec 3) (s : State) : (State.setErr c s).seq = s.seq := rfl
@[simp] theorem setErr_inStream (c : BitVec 3) (s : State) : (State.setErr c s).inStream = s.inStream := rfl
@[simp] theorem setErr_outStream (c : BitVec 3) (s : State) : (State.setErr c s).outStream = s.outStream := rfl
@[simp] theorem setErr_host (c : BitVec 3) (s : State) : (State.setErr c s).host = s.host := rfl
@[simp] theorem setErr_ivReads (c : BitVec 3) (s : State) : (State.setErr c s).ivReads = s.ivReads := rfl
@[simp] theorem setErr_ivFixed (c : BitVec 3) (s : State) : (State.setErr c s).ivFixed = s.ivFixed := rfl
@[simp] theorem setErr_seqDraws (c : BitVec 3) (s : State) : (State.setErr c s).seqDraws = s.seqDraws := rfl

/-! `latchCommand` -/

@[simp] theorem latchCommand_key (c : Byte) (s : State) : (latchCommand c s).key = s.key := rfl
@[simp] theorem latchCommand_w (c : Byte) (s : State) : (latchCommand c s).w = s.w := rfl
@[simp] theorem latchCommand_st (c : Byte) (s : State) : (latchCommand c s).st = s.st := rfl
@[simp] theorem latchCommand_buf (c : Byte) (s : State) : (latchCommand c s).buf = s.buf := rfl
@[simp] theorem latchCommand_prev (c : Byte) (s : State) : (latchCommand c s).prev = s.prev := rfl
@[simp] theorem latchCommand_save (c : Byte) (s : State) : (latchCommand c s).save = s.save := rfl
@[simp] theorem latchCommand_tmp (c : Byte) (s : State) : (latchCommand c s).tmp = s.tmp := rfl
@[simp] theorem latchCommand_opa (c : Byte) (s : State) : (latchCommand c s).opa = s.opa := rfl
@[simp] theorem latchCommand_res (c : Byte) (s : State) : (latchCommand c s).res = s.res := rfl
@[simp] theorem latchCommand_cmd (c : Byte) (s : State) : (latchCommand c s).cmd = c := rfl
@[simp] theorem latchCommand_len (c : Byte) (s : State) : (latchCommand c s).len = s.len := rfl
@[simp] theorem latchCommand_status (c : Byte) (s : State) : (latchCommand c s).status = s.status := rfl
@[simp] theorem latchCommand_byteCount (c : Byte) (s : State) : (latchCommand c s).byteCount = s.byteCount := rfl
@[simp] theorem latchCommand_phase (c : Byte) (s : State) : (latchCommand c s).phase = s.phase := rfl
@[simp] theorem latchCommand_seq (c : Byte) (s : State) : (latchCommand c s).seq = s.seq := rfl
@[simp] theorem latchCommand_inStream (c : Byte) (s : State) : (latchCommand c s).inStream = s.inStream := rfl
@[simp] theorem latchCommand_outStream (c : Byte) (s : State) : (latchCommand c s).outStream = s.outStream := rfl
@[simp] theorem latchCommand_host (c : Byte) (s : State) : (latchCommand c s).host = s.host := rfl
@[simp] theorem latchCommand_ivReads (c : Byte) (s : State) : (latchCommand c s).ivReads = s.ivReads := rfl
@[simp] theorem latchCommand_ivFixed (c : Byte) (s : State) : (latchCommand c s).ivFixed = s.ivFixed := rfl
@[simp] theorem latchCommand_seqDraws (c : Byte) (s : State) : (latchCommand c s).seqDraws = s.seqDraws := rfl

/-! `writeRes` -/

@[simp] theorem writeRes_key (v : Byte) (s : State) : (State.writeRes v s).key = s.key := rfl
@[simp] theorem writeRes_w (v : Byte) (s : State) : (State.writeRes v s).w = s.w := rfl
@[simp] theorem writeRes_st (v : Byte) (s : State) : (State.writeRes v s).st = s.st := rfl
@[simp] theorem writeRes_buf (v : Byte) (s : State) : (State.writeRes v s).buf = s.buf := rfl
@[simp] theorem writeRes_prev (v : Byte) (s : State) : (State.writeRes v s).prev = s.prev := rfl
@[simp] theorem writeRes_save (v : Byte) (s : State) : (State.writeRes v s).save = s.save := rfl
@[simp] theorem writeRes_tmp (v : Byte) (s : State) : (State.writeRes v s).tmp = s.tmp := rfl
@[simp] theorem writeRes_opa (v : Byte) (s : State) : (State.writeRes v s).opa = s.opa := rfl
@[simp] theorem writeRes_res (v : Byte) (s : State) : (State.writeRes v s).res = Reg.holding v := rfl
@[simp] theorem writeRes_cmd (v : Byte) (s : State) : (State.writeRes v s).cmd = s.cmd := rfl
@[simp] theorem writeRes_len (v : Byte) (s : State) : (State.writeRes v s).len = s.len := rfl
@[simp] theorem writeRes_status (v : Byte) (s : State) : (State.writeRes v s).status = s.status := rfl
@[simp] theorem writeRes_byteCount (v : Byte) (s : State) : (State.writeRes v s).byteCount = s.byteCount := rfl
@[simp] theorem writeRes_phase (v : Byte) (s : State) : (State.writeRes v s).phase = s.phase := rfl
@[simp] theorem writeRes_seq (v : Byte) (s : State) : (State.writeRes v s).seq = s.seq := rfl
@[simp] theorem writeRes_inStream (v : Byte) (s : State) : (State.writeRes v s).inStream = s.inStream := rfl
@[simp] theorem writeRes_outStream (v : Byte) (s : State) : (State.writeRes v s).outStream = s.outStream := rfl
@[simp] theorem writeRes_host (v : Byte) (s : State) : (State.writeRes v s).host = s.host := rfl
@[simp] theorem writeRes_ivReads (v : Byte) (s : State) : (State.writeRes v s).ivReads = s.ivReads := rfl
@[simp] theorem writeRes_ivFixed (v : Byte) (s : State) : (State.writeRes v s).ivFixed = s.ivFixed := rfl
@[simp] theorem writeRes_seqDraws (v : Byte) (s : State) : (State.writeRes v s).seqDraws = s.seqDraws := rfl

/-! `writeOpa` -/

@[simp] theorem writeOpa_key (v : Byte) (s : State) : (State.writeOpa v s).key = s.key := rfl
@[simp] theorem writeOpa_w (v : Byte) (s : State) : (State.writeOpa v s).w = s.w := rfl
@[simp] theorem writeOpa_st (v : Byte) (s : State) : (State.writeOpa v s).st = s.st := rfl
@[simp] theorem writeOpa_buf (v : Byte) (s : State) : (State.writeOpa v s).buf = s.buf := rfl
@[simp] theorem writeOpa_prev (v : Byte) (s : State) : (State.writeOpa v s).prev = s.prev := rfl
@[simp] theorem writeOpa_save (v : Byte) (s : State) : (State.writeOpa v s).save = s.save := rfl
@[simp] theorem writeOpa_tmp (v : Byte) (s : State) : (State.writeOpa v s).tmp = s.tmp := rfl
@[simp] theorem writeOpa_opa (v : Byte) (s : State) : (State.writeOpa v s).opa = Reg.holding v := rfl
@[simp] theorem writeOpa_res (v : Byte) (s : State) : (State.writeOpa v s).res = s.res := rfl
@[simp] theorem writeOpa_cmd (v : Byte) (s : State) : (State.writeOpa v s).cmd = s.cmd := rfl
@[simp] theorem writeOpa_len (v : Byte) (s : State) : (State.writeOpa v s).len = s.len := rfl
@[simp] theorem writeOpa_status (v : Byte) (s : State) : (State.writeOpa v s).status = s.status := rfl
@[simp] theorem writeOpa_byteCount (v : Byte) (s : State) : (State.writeOpa v s).byteCount = s.byteCount := rfl
@[simp] theorem writeOpa_phase (v : Byte) (s : State) : (State.writeOpa v s).phase = s.phase := rfl
@[simp] theorem writeOpa_seq (v : Byte) (s : State) : (State.writeOpa v s).seq = s.seq := rfl
@[simp] theorem writeOpa_inStream (v : Byte) (s : State) : (State.writeOpa v s).inStream = s.inStream := rfl
@[simp] theorem writeOpa_outStream (v : Byte) (s : State) : (State.writeOpa v s).outStream = s.outStream := rfl
@[simp] theorem writeOpa_host (v : Byte) (s : State) : (State.writeOpa v s).host = s.host := rfl
@[simp] theorem writeOpa_ivReads (v : Byte) (s : State) : (State.writeOpa v s).ivReads = s.ivReads := rfl
@[simp] theorem writeOpa_ivFixed (v : Byte) (s : State) : (State.writeOpa v s).ivFixed = s.ivFixed := rfl
@[simp] theorem writeOpa_seqDraws (v : Byte) (s : State) : (State.writeOpa v s).seqDraws = s.seqDraws := rfl

/-! `writeTmp` -/

@[simp] theorem writeTmp_key (v : Word) (s : State) : (State.writeTmp v s).key = s.key := rfl
@[simp] theorem writeTmp_w (v : Word) (s : State) : (State.writeTmp v s).w = s.w := rfl
@[simp] theorem writeTmp_st (v : Word) (s : State) : (State.writeTmp v s).st = s.st := rfl
@[simp] theorem writeTmp_buf (v : Word) (s : State) : (State.writeTmp v s).buf = s.buf := rfl
@[simp] theorem writeTmp_prev (v : Word) (s : State) : (State.writeTmp v s).prev = s.prev := rfl
@[simp] theorem writeTmp_save (v : Word) (s : State) : (State.writeTmp v s).save = s.save := rfl
@[simp] theorem writeTmp_tmp (v : Word) (s : State) : (State.writeTmp v s).tmp = Reg.holding v := rfl
@[simp] theorem writeTmp_opa (v : Word) (s : State) : (State.writeTmp v s).opa = s.opa := rfl
@[simp] theorem writeTmp_res (v : Word) (s : State) : (State.writeTmp v s).res = s.res := rfl
@[simp] theorem writeTmp_cmd (v : Word) (s : State) : (State.writeTmp v s).cmd = s.cmd := rfl
@[simp] theorem writeTmp_len (v : Word) (s : State) : (State.writeTmp v s).len = s.len := rfl
@[simp] theorem writeTmp_status (v : Word) (s : State) : (State.writeTmp v s).status = s.status := rfl
@[simp] theorem writeTmp_byteCount (v : Word) (s : State) : (State.writeTmp v s).byteCount = s.byteCount := rfl
@[simp] theorem writeTmp_phase (v : Word) (s : State) : (State.writeTmp v s).phase = s.phase := rfl
@[simp] theorem writeTmp_seq (v : Word) (s : State) : (State.writeTmp v s).seq = s.seq := rfl
@[simp] theorem writeTmp_inStream (v : Word) (s : State) : (State.writeTmp v s).inStream = s.inStream := rfl
@[simp] theorem writeTmp_outStream (v : Word) (s : State) : (State.writeTmp v s).outStream = s.outStream := rfl
@[simp] theorem writeTmp_host (v : Word) (s : State) : (State.writeTmp v s).host = s.host := rfl
@[simp] theorem writeTmp_ivReads (v : Word) (s : State) : (State.writeTmp v s).ivReads = s.ivReads := rfl
@[simp] theorem writeTmp_ivFixed (v : Word) (s : State) : (State.writeTmp v s).ivFixed = s.ivFixed := rfl
@[simp] theorem writeTmp_seqDraws (v : Word) (s : State) : (State.writeTmp v s).seqDraws = s.seqDraws := rfl

/-! `writeSt` -/

@[simp] theorem writeSt_key (v : Matrix) (s : State) : (State.writeSt v s).key = s.key := rfl
@[simp] theorem writeSt_w (v : Matrix) (s : State) : (State.writeSt v s).w = s.w := rfl
@[simp] theorem writeSt_st (v : Matrix) (s : State) : (State.writeSt v s).st = Reg.holding v := rfl
@[simp] theorem writeSt_buf (v : Matrix) (s : State) : (State.writeSt v s).buf = s.buf := rfl
@[simp] theorem writeSt_prev (v : Matrix) (s : State) : (State.writeSt v s).prev = s.prev := rfl
@[simp] theorem writeSt_save (v : Matrix) (s : State) : (State.writeSt v s).save = s.save := rfl
@[simp] theorem writeSt_tmp (v : Matrix) (s : State) : (State.writeSt v s).tmp = s.tmp := rfl
@[simp] theorem writeSt_opa (v : Matrix) (s : State) : (State.writeSt v s).opa = s.opa := rfl
@[simp] theorem writeSt_res (v : Matrix) (s : State) : (State.writeSt v s).res = s.res := rfl
@[simp] theorem writeSt_cmd (v : Matrix) (s : State) : (State.writeSt v s).cmd = s.cmd := rfl
@[simp] theorem writeSt_len (v : Matrix) (s : State) : (State.writeSt v s).len = s.len := rfl
@[simp] theorem writeSt_status (v : Matrix) (s : State) : (State.writeSt v s).status = s.status := rfl
@[simp] theorem writeSt_byteCount (v : Matrix) (s : State) : (State.writeSt v s).byteCount = s.byteCount := rfl
@[simp] theorem writeSt_phase (v : Matrix) (s : State) : (State.writeSt v s).phase = s.phase := rfl
@[simp] theorem writeSt_seq (v : Matrix) (s : State) : (State.writeSt v s).seq = s.seq := rfl
@[simp] theorem writeSt_inStream (v : Matrix) (s : State) : (State.writeSt v s).inStream = s.inStream := rfl
@[simp] theorem writeSt_outStream (v : Matrix) (s : State) : (State.writeSt v s).outStream = s.outStream := rfl
@[simp] theorem writeSt_host (v : Matrix) (s : State) : (State.writeSt v s).host = s.host := rfl
@[simp] theorem writeSt_ivReads (v : Matrix) (s : State) : (State.writeSt v s).ivReads = s.ivReads := rfl
@[simp] theorem writeSt_ivFixed (v : Matrix) (s : State) : (State.writeSt v s).ivFixed = s.ivFixed := rfl
@[simp] theorem writeSt_seqDraws (v : Matrix) (s : State) : (State.writeSt v s).seqDraws = s.seqDraws := rfl

/-! `writeBuf` -/

@[simp] theorem writeBuf_key (v : Block) (s : State) : (State.writeBuf v s).key = s.key := rfl
@[simp] theorem writeBuf_w (v : Block) (s : State) : (State.writeBuf v s).w = s.w := rfl
@[simp] theorem writeBuf_st (v : Block) (s : State) : (State.writeBuf v s).st = s.st := rfl
@[simp] theorem writeBuf_buf (v : Block) (s : State) : (State.writeBuf v s).buf = Reg.holding v := rfl
@[simp] theorem writeBuf_prev (v : Block) (s : State) : (State.writeBuf v s).prev = s.prev := rfl
@[simp] theorem writeBuf_save (v : Block) (s : State) : (State.writeBuf v s).save = s.save := rfl
@[simp] theorem writeBuf_tmp (v : Block) (s : State) : (State.writeBuf v s).tmp = s.tmp := rfl
@[simp] theorem writeBuf_opa (v : Block) (s : State) : (State.writeBuf v s).opa = s.opa := rfl
@[simp] theorem writeBuf_res (v : Block) (s : State) : (State.writeBuf v s).res = s.res := rfl
@[simp] theorem writeBuf_cmd (v : Block) (s : State) : (State.writeBuf v s).cmd = s.cmd := rfl
@[simp] theorem writeBuf_len (v : Block) (s : State) : (State.writeBuf v s).len = s.len := rfl
@[simp] theorem writeBuf_status (v : Block) (s : State) : (State.writeBuf v s).status = s.status := rfl
@[simp] theorem writeBuf_byteCount (v : Block) (s : State) : (State.writeBuf v s).byteCount = s.byteCount := rfl
@[simp] theorem writeBuf_phase (v : Block) (s : State) : (State.writeBuf v s).phase = s.phase := rfl
@[simp] theorem writeBuf_seq (v : Block) (s : State) : (State.writeBuf v s).seq = s.seq := rfl
@[simp] theorem writeBuf_inStream (v : Block) (s : State) : (State.writeBuf v s).inStream = s.inStream := rfl
@[simp] theorem writeBuf_outStream (v : Block) (s : State) : (State.writeBuf v s).outStream = s.outStream := rfl
@[simp] theorem writeBuf_host (v : Block) (s : State) : (State.writeBuf v s).host = s.host := rfl
@[simp] theorem writeBuf_ivReads (v : Block) (s : State) : (State.writeBuf v s).ivReads = s.ivReads := rfl
@[simp] theorem writeBuf_ivFixed (v : Block) (s : State) : (State.writeBuf v s).ivFixed = s.ivFixed := rfl
@[simp] theorem writeBuf_seqDraws (v : Block) (s : State) : (State.writeBuf v s).seqDraws = s.seqDraws := rfl

/-! `writePrev` -/

@[simp] theorem writePrev_key (v : Block) (s : State) : (State.writePrev v s).key = s.key := rfl
@[simp] theorem writePrev_w (v : Block) (s : State) : (State.writePrev v s).w = s.w := rfl
@[simp] theorem writePrev_st (v : Block) (s : State) : (State.writePrev v s).st = s.st := rfl
@[simp] theorem writePrev_buf (v : Block) (s : State) : (State.writePrev v s).buf = s.buf := rfl
@[simp] theorem writePrev_prev (v : Block) (s : State) : (State.writePrev v s).prev = Reg.holding v := rfl
@[simp] theorem writePrev_save (v : Block) (s : State) : (State.writePrev v s).save = s.save := rfl
@[simp] theorem writePrev_tmp (v : Block) (s : State) : (State.writePrev v s).tmp = s.tmp := rfl
@[simp] theorem writePrev_opa (v : Block) (s : State) : (State.writePrev v s).opa = s.opa := rfl
@[simp] theorem writePrev_res (v : Block) (s : State) : (State.writePrev v s).res = s.res := rfl
@[simp] theorem writePrev_cmd (v : Block) (s : State) : (State.writePrev v s).cmd = s.cmd := rfl
@[simp] theorem writePrev_len (v : Block) (s : State) : (State.writePrev v s).len = s.len := rfl
@[simp] theorem writePrev_status (v : Block) (s : State) : (State.writePrev v s).status = s.status := rfl
@[simp] theorem writePrev_byteCount (v : Block) (s : State) : (State.writePrev v s).byteCount = s.byteCount := rfl
@[simp] theorem writePrev_phase (v : Block) (s : State) : (State.writePrev v s).phase = s.phase := rfl
@[simp] theorem writePrev_seq (v : Block) (s : State) : (State.writePrev v s).seq = s.seq := rfl
@[simp] theorem writePrev_inStream (v : Block) (s : State) : (State.writePrev v s).inStream = s.inStream := rfl
@[simp] theorem writePrev_outStream (v : Block) (s : State) : (State.writePrev v s).outStream = s.outStream := rfl
@[simp] theorem writePrev_host (v : Block) (s : State) : (State.writePrev v s).host = s.host := rfl
@[simp] theorem writePrev_ivReads (v : Block) (s : State) : (State.writePrev v s).ivReads = s.ivReads := rfl
@[simp] theorem writePrev_ivFixed (v : Block) (s : State) : (State.writePrev v s).ivFixed = s.ivFixed := rfl
@[simp] theorem writePrev_seqDraws (v : Block) (s : State) : (State.writePrev v s).seqDraws = s.seqDraws := rfl

/-! `writeSave` -/

@[simp] theorem writeSave_key (v : Block) (s : State) : (State.writeSave v s).key = s.key := rfl
@[simp] theorem writeSave_w (v : Block) (s : State) : (State.writeSave v s).w = s.w := rfl
@[simp] theorem writeSave_st (v : Block) (s : State) : (State.writeSave v s).st = s.st := rfl
@[simp] theorem writeSave_buf (v : Block) (s : State) : (State.writeSave v s).buf = s.buf := rfl
@[simp] theorem writeSave_prev (v : Block) (s : State) : (State.writeSave v s).prev = s.prev := rfl
@[simp] theorem writeSave_save (v : Block) (s : State) : (State.writeSave v s).save = Reg.holding v := rfl
@[simp] theorem writeSave_tmp (v : Block) (s : State) : (State.writeSave v s).tmp = s.tmp := rfl
@[simp] theorem writeSave_opa (v : Block) (s : State) : (State.writeSave v s).opa = s.opa := rfl
@[simp] theorem writeSave_res (v : Block) (s : State) : (State.writeSave v s).res = s.res := rfl
@[simp] theorem writeSave_cmd (v : Block) (s : State) : (State.writeSave v s).cmd = s.cmd := rfl
@[simp] theorem writeSave_len (v : Block) (s : State) : (State.writeSave v s).len = s.len := rfl
@[simp] theorem writeSave_status (v : Block) (s : State) : (State.writeSave v s).status = s.status := rfl
@[simp] theorem writeSave_byteCount (v : Block) (s : State) : (State.writeSave v s).byteCount = s.byteCount := rfl
@[simp] theorem writeSave_phase (v : Block) (s : State) : (State.writeSave v s).phase = s.phase := rfl
@[simp] theorem writeSave_seq (v : Block) (s : State) : (State.writeSave v s).seq = s.seq := rfl
@[simp] theorem writeSave_inStream (v : Block) (s : State) : (State.writeSave v s).inStream = s.inStream := rfl
@[simp] theorem writeSave_outStream (v : Block) (s : State) : (State.writeSave v s).outStream = s.outStream := rfl
@[simp] theorem writeSave_host (v : Block) (s : State) : (State.writeSave v s).host = s.host := rfl
@[simp] theorem writeSave_ivReads (v : Block) (s : State) : (State.writeSave v s).ivReads = s.ivReads := rfl
@[simp] theorem writeSave_ivFixed (v : Block) (s : State) : (State.writeSave v s).ivFixed = s.ivFixed := rfl
@[simp] theorem writeSave_seqDraws (v : Block) (s : State) : (State.writeSave v s).seqDraws = s.seqDraws := rfl

/-! `writeW` -/

@[simp] theorem writeW_key (v : Schedule) (s : State) : (State.writeW v s).key = s.key := rfl
@[simp] theorem writeW_w (v : Schedule) (s : State) : (State.writeW v s).w = v := rfl
@[simp] theorem writeW_st (v : Schedule) (s : State) : (State.writeW v s).st = s.st := rfl
@[simp] theorem writeW_buf (v : Schedule) (s : State) : (State.writeW v s).buf = s.buf := rfl
@[simp] theorem writeW_prev (v : Schedule) (s : State) : (State.writeW v s).prev = s.prev := rfl
@[simp] theorem writeW_save (v : Schedule) (s : State) : (State.writeW v s).save = s.save := rfl
@[simp] theorem writeW_tmp (v : Schedule) (s : State) : (State.writeW v s).tmp = s.tmp := rfl
@[simp] theorem writeW_opa (v : Schedule) (s : State) : (State.writeW v s).opa = s.opa := rfl
@[simp] theorem writeW_res (v : Schedule) (s : State) : (State.writeW v s).res = s.res := rfl
@[simp] theorem writeW_cmd (v : Schedule) (s : State) : (State.writeW v s).cmd = s.cmd := rfl
@[simp] theorem writeW_len (v : Schedule) (s : State) : (State.writeW v s).len = s.len := rfl
@[simp] theorem writeW_status (v : Schedule) (s : State) : (State.writeW v s).status = s.status := rfl
@[simp] theorem writeW_byteCount (v : Schedule) (s : State) : (State.writeW v s).byteCount = s.byteCount := rfl
@[simp] theorem writeW_phase (v : Schedule) (s : State) : (State.writeW v s).phase = s.phase := rfl
@[simp] theorem writeW_seq (v : Schedule) (s : State) : (State.writeW v s).seq = s.seq := rfl
@[simp] theorem writeW_inStream (v : Schedule) (s : State) : (State.writeW v s).inStream = s.inStream := rfl
@[simp] theorem writeW_outStream (v : Schedule) (s : State) : (State.writeW v s).outStream = s.outStream := rfl
@[simp] theorem writeW_host (v : Schedule) (s : State) : (State.writeW v s).host = s.host := rfl
@[simp] theorem writeW_ivReads (v : Schedule) (s : State) : (State.writeW v s).ivReads = s.ivReads := rfl
@[simp] theorem writeW_ivFixed (v : Schedule) (s : State) : (State.writeW v s).ivFixed = s.ivFixed := rfl
@[simp] theorem writeW_seqDraws (v : Schedule) (s : State) : (State.writeW v s).seqDraws = s.seqDraws := rfl

/-! `writePhase` -/

@[simp] theorem writePhase_key (v : Phase) (s : State) : (State.writePhase v s).key = s.key := rfl
@[simp] theorem writePhase_w (v : Phase) (s : State) : (State.writePhase v s).w = s.w := rfl
@[simp] theorem writePhase_st (v : Phase) (s : State) : (State.writePhase v s).st = s.st := rfl
@[simp] theorem writePhase_buf (v : Phase) (s : State) : (State.writePhase v s).buf = s.buf := rfl
@[simp] theorem writePhase_prev (v : Phase) (s : State) : (State.writePhase v s).prev = s.prev := rfl
@[simp] theorem writePhase_save (v : Phase) (s : State) : (State.writePhase v s).save = s.save := rfl
@[simp] theorem writePhase_tmp (v : Phase) (s : State) : (State.writePhase v s).tmp = s.tmp := rfl
@[simp] theorem writePhase_opa (v : Phase) (s : State) : (State.writePhase v s).opa = s.opa := rfl
@[simp] theorem writePhase_res (v : Phase) (s : State) : (State.writePhase v s).res = s.res := rfl
@[simp] theorem writePhase_cmd (v : Phase) (s : State) : (State.writePhase v s).cmd = s.cmd := rfl
@[simp] theorem writePhase_len (v : Phase) (s : State) : (State.writePhase v s).len = s.len := rfl
@[simp] theorem writePhase_status (v : Phase) (s : State) : (State.writePhase v s).status = s.status := rfl
@[simp] theorem writePhase_byteCount (v : Phase) (s : State) : (State.writePhase v s).byteCount = s.byteCount := rfl
@[simp] theorem writePhase_phase (v : Phase) (s : State) : (State.writePhase v s).phase = v := rfl
@[simp] theorem writePhase_seq (v : Phase) (s : State) : (State.writePhase v s).seq = s.seq := rfl
@[simp] theorem writePhase_inStream (v : Phase) (s : State) : (State.writePhase v s).inStream = s.inStream := rfl
@[simp] theorem writePhase_outStream (v : Phase) (s : State) : (State.writePhase v s).outStream = s.outStream := rfl
@[simp] theorem writePhase_host (v : Phase) (s : State) : (State.writePhase v s).host = s.host := rfl
@[simp] theorem writePhase_ivReads (v : Phase) (s : State) : (State.writePhase v s).ivReads = s.ivReads := rfl
@[simp] theorem writePhase_ivFixed (v : Phase) (s : State) : (State.writePhase v s).ivFixed = s.ivFixed := rfl
@[simp] theorem writePhase_seqDraws (v : Phase) (s : State) : (State.writePhase v s).seqDraws = s.seqDraws := rfl

/-! `writeByteCount` -/

@[simp] theorem writeByteCount_key (v : Nat) (s : State) : (State.writeByteCount v s).key = s.key := rfl
@[simp] theorem writeByteCount_w (v : Nat) (s : State) : (State.writeByteCount v s).w = s.w := rfl
@[simp] theorem writeByteCount_st (v : Nat) (s : State) : (State.writeByteCount v s).st = s.st := rfl
@[simp] theorem writeByteCount_buf (v : Nat) (s : State) : (State.writeByteCount v s).buf = s.buf := rfl
@[simp] theorem writeByteCount_prev (v : Nat) (s : State) : (State.writeByteCount v s).prev = s.prev := rfl
@[simp] theorem writeByteCount_save (v : Nat) (s : State) : (State.writeByteCount v s).save = s.save := rfl
@[simp] theorem writeByteCount_tmp (v : Nat) (s : State) : (State.writeByteCount v s).tmp = s.tmp := rfl
@[simp] theorem writeByteCount_opa (v : Nat) (s : State) : (State.writeByteCount v s).opa = s.opa := rfl
@[simp] theorem writeByteCount_res (v : Nat) (s : State) : (State.writeByteCount v s).res = s.res := rfl
@[simp] theorem writeByteCount_cmd (v : Nat) (s : State) : (State.writeByteCount v s).cmd = s.cmd := rfl
@[simp] theorem writeByteCount_len (v : Nat) (s : State) : (State.writeByteCount v s).len = s.len := rfl
@[simp] theorem writeByteCount_status (v : Nat) (s : State) : (State.writeByteCount v s).status = s.status := rfl
@[simp] theorem writeByteCount_byteCount (v : Nat) (s : State) : (State.writeByteCount v s).byteCount = v := rfl
@[simp] theorem writeByteCount_phase (v : Nat) (s : State) : (State.writeByteCount v s).phase = s.phase := rfl
@[simp] theorem writeByteCount_seq (v : Nat) (s : State) : (State.writeByteCount v s).seq = s.seq := rfl
@[simp] theorem writeByteCount_inStream (v : Nat) (s : State) : (State.writeByteCount v s).inStream = s.inStream := rfl
@[simp] theorem writeByteCount_outStream (v : Nat) (s : State) : (State.writeByteCount v s).outStream = s.outStream := rfl
@[simp] theorem writeByteCount_host (v : Nat) (s : State) : (State.writeByteCount v s).host = s.host := rfl
@[simp] theorem writeByteCount_ivReads (v : Nat) (s : State) : (State.writeByteCount v s).ivReads = s.ivReads := rfl
@[simp] theorem writeByteCount_ivFixed (v : Nat) (s : State) : (State.writeByteCount v s).ivFixed = s.ivFixed := rfl
@[simp] theorem writeByteCount_seqDraws (v : Nat) (s : State) : (State.writeByteCount v s).seqDraws = s.seqDraws := rfl

/-! `afterRead` -/

@[simp] theorem afterRead_key (s : State) : (afterRead s).key = s.key := rfl
@[simp] theorem afterRead_w (s : State) : (afterRead s).w = s.w := rfl
@[simp] theorem afterRead_st (s : State) : (afterRead s).st = s.st := rfl
@[simp] theorem afterRead_buf (s : State) : (afterRead s).buf = s.buf := rfl
@[simp] theorem afterRead_prev (s : State) : (afterRead s).prev = s.prev := rfl
@[simp] theorem afterRead_save (s : State) : (afterRead s).save = s.save := rfl
@[simp] theorem afterRead_tmp (s : State) : (afterRead s).tmp = s.tmp := rfl
@[simp] theorem afterRead_opa (s : State) : (afterRead s).opa = s.opa := rfl
@[simp] theorem afterRead_res (s : State) : (afterRead s).res = s.res := rfl
@[simp] theorem afterRead_cmd (s : State) : (afterRead s).cmd = s.cmd := rfl
@[simp] theorem afterRead_len (s : State) : (afterRead s).len = s.len := rfl
@[simp] theorem afterRead_status (s : State) : (afterRead s).status = s.status := rfl
@[simp] theorem afterRead_byteCount (s : State) : (afterRead s).byteCount = s.byteCount := rfl
@[simp] theorem afterRead_phase (s : State) : (afterRead s).phase = s.phase := rfl
@[simp] theorem afterRead_seq (s : State) : (afterRead s).seq = { s.seq with rpos := s.seq.rpos + availableBytes s } := rfl
@[simp] theorem afterRead_inStream (s : State) : (afterRead s).inStream = s.inStream := rfl
@[simp] theorem afterRead_outStream (s : State) : (afterRead s).outStream = s.outStream := rfl
@[simp] theorem afterRead_host (s : State) : (afterRead s).host = s.host := rfl
@[simp] theorem afterRead_ivReads (s : State) : (afterRead s).ivReads = s.ivReads := rfl
@[simp] theorem afterRead_ivFixed (s : State) : (afterRead s).ivFixed = s.ivFixed := rfl
@[simp] theorem afterRead_seqDraws (s : State) : (afterRead s).seqDraws = s.seqDraws := rfl

/-! `outWrite` -/

@[simp] theorem outWrite_key (v : List Byte) (s : State) : (outWrite v s).key = s.key := rfl
@[simp] theorem outWrite_w (v : List Byte) (s : State) : (outWrite v s).w = s.w := rfl
@[simp] theorem outWrite_st (v : List Byte) (s : State) : (outWrite v s).st = s.st := rfl
@[simp] theorem outWrite_buf (v : List Byte) (s : State) : (outWrite v s).buf = s.buf := rfl
@[simp] theorem outWrite_prev (v : List Byte) (s : State) : (outWrite v s).prev = s.prev := rfl
@[simp] theorem outWrite_save (v : List Byte) (s : State) : (outWrite v s).save = s.save := rfl
@[simp] theorem outWrite_tmp (v : List Byte) (s : State) : (outWrite v s).tmp = s.tmp := rfl
@[simp] theorem outWrite_opa (v : List Byte) (s : State) : (outWrite v s).opa = s.opa := rfl
@[simp] theorem outWrite_res (v : List Byte) (s : State) : (outWrite v s).res = s.res := rfl
@[simp] theorem outWrite_cmd (v : List Byte) (s : State) : (outWrite v s).cmd = s.cmd := rfl
@[simp] theorem outWrite_len (v : List Byte) (s : State) : (outWrite v s).len = s.len := rfl
@[simp] theorem outWrite_status (v : List Byte) (s : State) : (outWrite v s).status = s.status := rfl
@[simp] theorem outWrite_byteCount (v : List Byte) (s : State) : (outWrite v s).byteCount = s.byteCount := rfl
@[simp] theorem outWrite_phase (v : List Byte) (s : State) : (outWrite v s).phase = s.phase := rfl
@[simp] theorem outWrite_seq (v : List Byte) (s : State) : (outWrite v s).seq = { s.seq with wpos := s.seq.wpos + v.length } := rfl
@[simp] theorem outWrite_inStream (v : List Byte) (s : State) : (outWrite v s).inStream = s.inStream := rfl
@[simp] theorem outWrite_outStream (v : List Byte) (s : State) : (outWrite v s).outStream = s.outStream ++ v := rfl
@[simp] theorem outWrite_host (v : List Byte) (s : State) : (outWrite v s).host = s.host := rfl
@[simp] theorem outWrite_ivReads (v : List Byte) (s : State) : (outWrite v s).ivReads = s.ivReads := rfl
@[simp] theorem outWrite_ivFixed (v : List Byte) (s : State) : (outWrite v s).ivFixed = s.ivFixed := rfl
@[simp] theorem outWrite_seqDraws (v : List Byte) (s : State) : (outWrite v s).seqDraws = s.seqDraws := rfl

/-! `nextBlockIndex` -/

@[simp] theorem nextBlockIndex_key (s : State) : (nextBlockIndex s).key = s.key := rfl
@[simp] theorem nextBlockIndex_w (s : State) : (nextBlockIndex s).w = s.w := rfl
@[simp] theorem nextBlockIndex_st (s : State) : (nextBlockIndex s).st = s.st := rfl
@[simp] theorem nextBlockIndex_buf (s : State) : (nextBlockIndex s).buf = s.buf := rfl
@[simp] theorem nextBlockIndex_prev (s : State) : (nextBlockIndex s).prev = s.prev := rfl
@[simp] theorem nextBlockIndex_save (s : State) : (nextBlockIndex s).save = s.save := rfl
@[simp] theorem nextBlockIndex_tmp (s : State) : (nextBlockIndex s).tmp = s.tmp := rfl
@[simp] theorem nextBlockIndex_opa (s : State) : (nextBlockIndex s).opa = s.opa := rfl
@[simp] theorem nextBlockIndex_res (s : State) : (nextBlockIndex s).res = s.res := rfl
@[simp] theorem nextBlockIndex_cmd (s : State) : (nextBlockIndex s).cmd = s.cmd := rfl
@[simp] theorem nextBlockIndex_len (s : State) : (nextBlockIndex s).len = s.len := rfl
@[simp] theorem nextBlockIndex_status (s : State) : (nextBlockIndex s).status = s.status := rfl
@[simp] theorem nextBlockIndex_byteCount (s : State) : (nextBlockIndex s).byteCount = s.byteCount := rfl
@[simp] theorem nextBlockIndex_phase (s : State) : (nextBlockIndex s).phase = s.phase := rfl
@[simp] theorem nextBlockIndex_seq (s : State) : (nextBlockIndex s).seq = { s.seq with blk := s.seq.blk + 1 } := rfl
@[simp] theorem nextBlockIndex_inStream (s : State) : (nextBlockIndex s).inStream = s.inStream := rfl
@[simp] theorem nextBlockIndex_outStream (s : State) : (nextBlockIndex s).outStream = s.outStream := rfl
@[simp] theorem nextBlockIndex_host (s : State) : (nextBlockIndex s).host = s.host := rfl
@[simp] theorem nextBlockIndex_ivReads (s : State) : (nextBlockIndex s).ivReads = s.ivReads := rfl
@[simp] theorem nextBlockIndex_ivFixed (s : State) : (nextBlockIndex s).ivFixed = s.ivFixed := rfl
@[simp] theorem nextBlockIndex_seqDraws (s : State) : (nextBlockIndex s).seqDraws = s.seqDraws := rfl

/-! `afterIvRead` -/

@[simp] theorem afterIvRead_key (s : State) : (afterIvRead s).key = s.key := rfl
@[simp] theorem afterIvRead_w (s : State) : (afterIvRead s).w = s.w := rfl
@[simp] theorem afterIvRead_st (s : State) : (afterIvRead s).st = s.st := rfl
@[simp] theorem afterIvRead_buf (s : State) : (afterIvRead s).buf = s.buf := rfl
@[simp] theorem afterIvRead_prev (s : State) : (afterIvRead s).prev = s.prev := rfl
@[simp] theorem afterIvRead_save (s : State) : (afterIvRead s).save = s.save := rfl
@[simp] theorem afterIvRead_tmp (s : State) : (afterIvRead s).tmp = s.tmp := rfl
@[simp] theorem afterIvRead_opa (s : State) : (afterIvRead s).opa = s.opa := rfl
@[simp] theorem afterIvRead_res (s : State) : (afterIvRead s).res = s.res := rfl
@[simp] theorem afterIvRead_cmd (s : State) : (afterIvRead s).cmd = s.cmd := rfl
@[simp] theorem afterIvRead_len (s : State) : (afterIvRead s).len = s.len := rfl
@[simp] theorem afterIvRead_status (s : State) : (afterIvRead s).status = s.status := rfl
@[simp] theorem afterIvRead_byteCount (s : State) : (afterIvRead s).byteCount = s.byteCount := rfl
@[simp] theorem afterIvRead_phase (s : State) : (afterIvRead s).phase = s.phase := rfl
@[simp] theorem afterIvRead_seq (s : State) : (afterIvRead s).seq = s.seq := rfl
@[simp] theorem afterIvRead_inStream (s : State) : (afterIvRead s).inStream = s.inStream := rfl
@[simp] theorem afterIvRead_outStream (s : State) : (afterIvRead s).outStream = s.outStream := rfl
@[simp] theorem afterIvRead_host (s : State) : (afterIvRead s).host = s.host := rfl
@[simp] theorem afterIvRead_ivReads (s : State) : (afterIvRead s).ivReads = s.ivReads + 1 := rfl
@[simp] theorem afterIvRead_ivFixed (s : State) : (afterIvRead s).ivFixed = none := rfl
@[simp] theorem afterIvRead_seqDraws (s : State) : (afterIvRead s).seqDraws = s.seqDraws := rfl

/-! `freeWidx` -/

@[simp] theorem freeWidx_key (s : State) : (freeWidx s).key = s.key := rfl
@[simp] theorem freeWidx_w (s : State) : (freeWidx s).w = s.w := rfl
@[simp] theorem freeWidx_st (s : State) : (freeWidx s).st = s.st := rfl
@[simp] theorem freeWidx_buf (s : State) : (freeWidx s).buf = s.buf := rfl
@[simp] theorem freeWidx_prev (s : State) : (freeWidx s).prev = s.prev := rfl
@[simp] theorem freeWidx_save (s : State) : (freeWidx s).save = s.save := rfl
@[simp] theorem freeWidx_tmp (s : State) : (freeWidx s).tmp = s.tmp := rfl
@[simp] theorem freeWidx_opa (s : State) : (freeWidx s).opa = s.opa := rfl
@[simp] theorem freeWidx_res (s : State) : (freeWidx s).res = s.res := rfl
@[simp] theorem freeWidx_cmd (s : State) : (freeWidx s).cmd = s.cmd := rfl
@[simp] theorem freeWidx_len (s : State) : (freeWidx s).len = s.len := rfl
@[simp] theorem freeWidx_status (s : State) : (freeWidx s).status = s.status := rfl
@[simp] theorem freeWidx_byteCount (s : State) : (freeWidx s).byteCount = s.byteCount := rfl
@[simp] theorem freeWidx_phase (s : State) : (freeWidx s).phase = s.phase := rfl
@[simp] theorem freeWidx_seq (s : State) : (freeWidx s).seq = { s.seq with widx := 8 + seqValue s 0 % 53 } := rfl
@[simp] theorem freeWidx_inStream (s : State) : (freeWidx s).inStream = s.inStream := rfl
@[simp] theorem freeWidx_outStream (s : State) : (freeWidx s).outStream = s.outStream := rfl
@[simp] theorem freeWidx_host (s : State) : (freeWidx s).host = s.host := rfl
@[simp] theorem freeWidx_ivReads (s : State) : (freeWidx s).ivReads = s.ivReads := rfl
@[simp] theorem freeWidx_ivFixed (s : State) : (freeWidx s).ivFixed = s.ivFixed := rfl
@[simp] theorem freeWidx_seqDraws (s : State) : (freeWidx s).seqDraws = s.seqDraws + 1 := rfl

/-! `freeRnd` -/

@[simp] theorem freeRnd_key (s : State) : (freeRnd s).key = s.key := rfl
@[simp] theorem freeRnd_w (s : State) : (freeRnd s).w = s.w := rfl
@[simp] theorem freeRnd_st (s : State) : (freeRnd s).st = s.st := rfl
@[simp] theorem freeRnd_buf (s : State) : (freeRnd s).buf = s.buf := rfl
@[simp] theorem freeRnd_prev (s : State) : (freeRnd s).prev = s.prev := rfl
@[simp] theorem freeRnd_save (s : State) : (freeRnd s).save = s.save := rfl
@[simp] theorem freeRnd_tmp (s : State) : (freeRnd s).tmp = s.tmp := rfl
@[simp] theorem freeRnd_opa (s : State) : (freeRnd s).opa = s.opa := rfl
@[simp] theorem freeRnd_res (s : State) : (freeRnd s).res = s.res := rfl
@[simp] theorem freeRnd_cmd (s : State) : (freeRnd s).cmd = s.cmd := rfl
@[simp] theorem freeRnd_len (s : State) : (freeRnd s).len = s.len := rfl
@[simp] theorem freeRnd_status (s : State) : (freeRnd s).status = s.status := rfl
@[simp] theorem freeRnd_byteCount (s : State) : (freeRnd s).byteCount = s.byteCount := rfl
@[simp] theorem freeRnd_phase (s : State) : (freeRnd s).phase = s.phase := rfl
@[simp] theorem freeRnd_seq (s : State) : (freeRnd s).seq = { s.seq with rnd := seqValue s 1 % 15 } := rfl
@[simp] theorem freeRnd_inStream (s : State) : (freeRnd s).inStream = s.inStream := rfl
@[simp] theorem freeRnd_outStream (s : State) : (freeRnd s).outStream = s.outStream := rfl
@[simp] theorem freeRnd_host (s : State) : (freeRnd s).host = s.host := rfl
@[simp] theorem freeRnd_ivReads (s : State) : (freeRnd s).ivReads = s.ivReads := rfl
@[simp] theorem freeRnd_ivFixed (s : State) : (freeRnd s).ivFixed = s.ivFixed := rfl
@[simp] theorem freeRnd_seqDraws (s : State) : (freeRnd s).seqDraws = s.seqDraws + 1 := rfl

/-! `freeSequencer` -/

@[simp] theorem freeSequencer_key (s : State) : (freeSequencer s).key = s.key := rfl
@[simp] theorem freeSequencer_w (s : State) : (freeSequencer s).w = s.w := rfl
@[simp] theorem freeSequencer_st (s : State) : (freeSequencer s).st = s.st := rfl
@[simp] theorem freeSequencer_buf (s : State) : (freeSequencer s).buf = s.buf := rfl
@[simp] theorem freeSequencer_prev (s : State) : (freeSequencer s).prev = s.prev := rfl
@[simp] theorem freeSequencer_save (s : State) : (freeSequencer s).save = s.save := rfl
@[simp] theorem freeSequencer_tmp (s : State) : (freeSequencer s).tmp = s.tmp := rfl
@[simp] theorem freeSequencer_opa (s : State) : (freeSequencer s).opa = s.opa := rfl
@[simp] theorem freeSequencer_res (s : State) : (freeSequencer s).res = s.res := rfl
@[simp] theorem freeSequencer_cmd (s : State) : (freeSequencer s).cmd = s.cmd := rfl
@[simp] theorem freeSequencer_len (s : State) : (freeSequencer s).len = s.len := rfl
@[simp] theorem freeSequencer_status (s : State) : (freeSequencer s).status = s.status := rfl
@[simp] theorem freeSequencer_byteCount (s : State) : (freeSequencer s).byteCount = s.byteCount := rfl
@[simp] theorem freeSequencer_phase (s : State) : (freeSequencer s).phase = s.phase := rfl
@[simp] theorem freeSequencer_inStream (s : State) : (freeSequencer s).inStream = s.inStream := rfl
@[simp] theorem freeSequencer_outStream (s : State) : (freeSequencer s).outStream = s.outStream := rfl
@[simp] theorem freeSequencer_host (s : State) : (freeSequencer s).host = s.host := rfl
@[simp] theorem freeSequencer_ivReads (s : State) : (freeSequencer s).ivReads = s.ivReads := rfl
@[simp] theorem freeSequencer_ivFixed (s : State) : (freeSequencer s).ivFixed = s.ivFixed := rfl
@[simp] theorem freeSequencer_seqDraws (s : State) : (freeSequencer s).seqDraws = s.seqDraws + 1 := rfl

/-! `beginCommand` -/

@[simp] theorem beginCommand_key (s : State) : (beginCommand s).key = s.key := rfl
@[simp] theorem beginCommand_w (s : State) : (beginCommand s).w = s.w := rfl
@[simp] theorem beginCommand_st (s : State) : (beginCommand s).st = s.st := rfl
@[simp] theorem beginCommand_buf (s : State) : (beginCommand s).buf = s.buf := rfl
@[simp] theorem beginCommand_prev (s : State) : (beginCommand s).prev = s.prev := rfl
@[simp] theorem beginCommand_save (s : State) : (beginCommand s).save = s.save := rfl
@[simp] theorem beginCommand_tmp (s : State) : (beginCommand s).tmp = s.tmp := rfl
@[simp] theorem beginCommand_opa (s : State) : (beginCommand s).opa = s.opa := rfl
@[simp] theorem beginCommand_res (s : State) : (beginCommand s).res = s.res := rfl
@[simp] theorem beginCommand_cmd (s : State) : (beginCommand s).cmd = s.cmd := rfl
@[simp] theorem beginCommand_len (s : State) : (beginCommand s).len = s.len := rfl
@[simp] theorem beginCommand_byteCount (s : State) : (beginCommand s).byteCount = 0 := rfl
@[simp] theorem beginCommand_phase (s : State) : (beginCommand s).phase = s.phase := rfl
@[simp] theorem beginCommand_seq (s : State) : (beginCommand s).seq = s.seq := rfl
@[simp] theorem beginCommand_inStream (s : State) : (beginCommand s).inStream = s.inStream := rfl
@[simp] theorem beginCommand_outStream (s : State) : (beginCommand s).outStream = s.outStream := rfl
@[simp] theorem beginCommand_host (s : State) : (beginCommand s).host = s.host := rfl
@[simp] theorem beginCommand_ivReads (s : State) : (beginCommand s).ivReads = s.ivReads := rfl
@[simp] theorem beginCommand_ivFixed (s : State) : (beginCommand s).ivFixed = s.ivFixed := rfl
@[simp] theorem beginCommand_seqDraws (s : State) : (beginCommand s).seqDraws = s.seqDraws := rfl

/-! `completeCommand` -/

@[simp] theorem completeCommand_key (s : State) : (completeCommand s).key = s.key := rfl
@[simp] theorem completeCommand_w (s : State) : (completeCommand s).w = s.w := rfl
@[simp] theorem completeCommand_st (s : State) : (completeCommand s).st = s.st := rfl
@[simp] theorem completeCommand_buf (s : State) : (completeCommand s).buf = s.buf := rfl
@[simp] theorem completeCommand_prev (s : State) : (completeCommand s).prev = s.prev := rfl
@[simp] theorem completeCommand_save (s : State) : (completeCommand s).save = s.save := rfl
@[simp] theorem completeCommand_tmp (s : State) : (completeCommand s).tmp = s.tmp := rfl
@[simp] theorem completeCommand_opa (s : State) : (completeCommand s).opa = s.opa := rfl
@[simp] theorem completeCommand_res (s : State) : (completeCommand s).res = s.res := rfl
@[simp] theorem completeCommand_cmd (s : State) : (completeCommand s).cmd = s.cmd := rfl
@[simp] theorem completeCommand_len (s : State) : (completeCommand s).len = s.len := rfl
@[simp] theorem completeCommand_status (s : State) : (completeCommand s).status = setBit 0 true s.status := rfl
@[simp] theorem completeCommand_byteCount (s : State) : (completeCommand s).byteCount = s.byteCount := rfl
@[simp] theorem completeCommand_phase (s : State) : (completeCommand s).phase = .idle := rfl
@[simp] theorem completeCommand_seq (s : State) : (completeCommand s).seq = s.seq := rfl
@[simp] theorem completeCommand_inStream (s : State) : (completeCommand s).inStream = s.inStream := rfl
@[simp] theorem completeCommand_outStream (s : State) : (completeCommand s).outStream = s.outStream := rfl
@[simp] theorem completeCommand_host (s : State) : (completeCommand s).host = s.host := rfl
@[simp] theorem completeCommand_ivReads (s : State) : (completeCommand s).ivReads = s.ivReads := rfl
@[simp] theorem completeCommand_ivFixed (s : State) : (completeCommand s).ivFixed = s.ivFixed := rfl
@[simp] theorem completeCommand_seqDraws (s : State) : (completeCommand s).seqDraws = s.seqDraws := rfl

/-! `raiseException` -/

@[simp] theorem raiseException_key (e : Exc) (s : State) : (raiseException e s).key = s.key := rfl
@[simp] theorem raiseException_w (e : Exc) (s : State) : (raiseException e s).w = s.w := rfl
@[simp] theorem raiseException_st (e : Exc) (s : State) : (raiseException e s).st = s.st := rfl
@[simp] theorem raiseException_buf (e : Exc) (s : State) : (raiseException e s).buf = s.buf := rfl
@[simp] theorem raiseException_prev (e : Exc) (s : State) : (raiseException e s).prev = s.prev := rfl
@[simp] theorem raiseException_save (e : Exc) (s : State) : (raiseException e s).save = s.save := rfl
@[simp] theorem raiseException_tmp (e : Exc) (s : State) : (raiseException e s).tmp = s.tmp := rfl
@[simp] theorem raiseException_opa (e : Exc) (s : State) : (raiseException e s).opa = s.opa := rfl
@[simp] theorem raiseException_res (e : Exc) (s : State) : (raiseException e s).res = s.res := rfl
@[simp] theorem raiseException_cmd (e : Exc) (s : State) : (raiseException e s).cmd = s.cmd := rfl
@[simp] theorem raiseException_len (e : Exc) (s : State) : (raiseException e s).len = s.len := rfl
@[simp] theorem raiseException_status (e : Exc) (s : State) : (raiseException e s).status = withErr e.code s.status := rfl
@[simp] theorem raiseException_byteCount (e : Exc) (s : State) : (raiseException e s).byteCount = s.byteCount := rfl
@[simp] theorem raiseException_phase (e : Exc) (s : State) : (raiseException e s).phase = .idle := rfl
@[simp] theorem raiseException_seq (e : Exc) (s : State) : (raiseException e s).seq = s.seq := rfl
@[simp] theorem raiseException_inStream (e : Exc) (s : State) : (raiseException e s).inStream = s.inStream := rfl
@[simp] theorem raiseException_outStream (e : Exc) (s : State) : (raiseException e s).outStream = s.outStream := rfl
@[simp] theorem raiseException_host (e : Exc) (s : State) : (raiseException e s).host = s.host := rfl
@[simp] theorem raiseException_ivReads (e : Exc) (s : State) : (raiseException e s).ivReads = s.ivReads := rfl
@[simp] theorem raiseException_ivFixed (e : Exc) (s : State) : (raiseException e s).ivFixed = s.ivFixed := rfl
@[simp] theorem raiseException_seqDraws (e : Exc) (s : State) : (raiseException e s).seqDraws = s.seqDraws := rfl

/-! `resetCore` -/

@[simp] theorem resetCore_key (s : State) : (resetCore s).key = State.reset.key := rfl
@[simp] theorem resetCore_w (s : State) : (resetCore s).w = State.reset.w := rfl
@[simp] theorem resetCore_st (s : State) : (resetCore s).st = State.reset.st := rfl
@[simp] theorem resetCore_buf (s : State) : (resetCore s).buf = State.reset.buf := rfl
@[simp] theorem resetCore_prev (s : State) : (resetCore s).prev = State.reset.prev := rfl
@[simp] theorem resetCore_save (s : State) : (resetCore s).save = State.reset.save := rfl
@[simp] theorem resetCore_tmp (s : State) : (resetCore s).tmp = State.reset.tmp := rfl
@[simp] theorem resetCore_opa (s : State) : (resetCore s).opa = State.reset.opa := rfl
@[simp] theorem resetCore_res (s : State) : (resetCore s).res = State.reset.res := rfl
@[simp] theorem resetCore_cmd (s : State) : (resetCore s).cmd = State.reset.cmd := rfl
@[simp] theorem resetCore_len (s : State) : (resetCore s).len = State.reset.len := rfl
@[simp] theorem resetCore_status (s : State) : (resetCore s).status = State.reset.status := rfl
@[simp] theorem resetCore_byteCount (s : State) : (resetCore s).byteCount = State.reset.byteCount := rfl
@[simp] theorem resetCore_phase (s : State) : (resetCore s).phase = State.reset.phase := rfl
@[simp] theorem resetCore_seq (s : State) : (resetCore s).seq = State.reset.seq := rfl
@[simp] theorem resetCore_inStream (s : State) : (resetCore s).inStream = s.inStream := rfl
@[simp] theorem resetCore_outStream (s : State) : (resetCore s).outStream = s.outStream := rfl
@[simp] theorem resetCore_host (s : State) : (resetCore s).host = s.host := rfl
@[simp] theorem resetCore_ivReads (s : State) : (resetCore s).ivReads = s.ivReads := rfl
@[simp] theorem resetCore_ivFixed (s : State) : (resetCore s).ivFixed = s.ivFixed := rfl
@[simp] theorem resetCore_seqDraws (s : State) : (resetCore s).seqDraws = s.seqDraws := rfl

/-! `hostWriteKey` -/

@[simp] theorem hostWriteKey_key (k : Key) (s : State) : (hostWriteKey k s).key = k := rfl
@[simp] theorem hostWriteKey_w (k : Key) (s : State) : (hostWriteKey k s).w = s.w := rfl
@[simp] theorem hostWriteKey_st (k : Key) (s : State) : (hostWriteKey k s).st = s.st := rfl
@[simp] theorem hostWriteKey_buf (k : Key) (s : State) : (hostWriteKey k s).buf = s.buf := rfl
@[simp] theorem hostWriteKey_prev (k : Key) (s : State) : (hostWriteKey k s).prev = s.prev := rfl
@[simp] theorem hostWriteKey_save (k : Key) (s : State) : (hostWriteKey k s).save = s.save := rfl
@[simp] theorem hostWriteKey_tmp (k : Key) (s : State) : (hostWriteKey k s).tmp = s.tmp := rfl
@[simp] theorem hostWriteKey_opa (k : Key) (s : State) : (hostWriteKey k s).opa = s.opa := rfl
@[simp] theorem hostWriteKey_res (k : Key) (s : State) : (hostWriteKey k s).res = s.res := rfl
@[simp] theorem hostWriteKey_cmd (k : Key) (s : State) : (hostWriteKey k s).cmd = s.cmd := rfl
@[simp] theorem hostWriteKey_len (k : Key) (s : State) : (hostWriteKey k s).len = s.len := rfl
@[simp] theorem hostWriteKey_status (k : Key) (s : State) : (hostWriteKey k s).status = setBit 2 false (setBit 1 true s.status) := rfl
@[simp] theorem hostWriteKey_byteCount (k : Key) (s : State) : (hostWriteKey k s).byteCount = s.byteCount := rfl
@[simp] theorem hostWriteKey_phase (k : Key) (s : State) : (hostWriteKey k s).phase = s.phase := rfl
@[simp] theorem hostWriteKey_seq (k : Key) (s : State) : (hostWriteKey k s).seq = s.seq := rfl
@[simp] theorem hostWriteKey_inStream (k : Key) (s : State) : (hostWriteKey k s).inStream = s.inStream := rfl
@[simp] theorem hostWriteKey_outStream (k : Key) (s : State) : (hostWriteKey k s).outStream = s.outStream := rfl
@[simp] theorem hostWriteKey_host (k : Key) (s : State) : (hostWriteKey k s).host = s.host := rfl
@[simp] theorem hostWriteKey_ivReads (k : Key) (s : State) : (hostWriteKey k s).ivReads = s.ivReads := rfl
@[simp] theorem hostWriteKey_ivFixed (k : Key) (s : State) : (hostWriteKey k s).ivFixed = s.ivFixed := rfl
@[simp] theorem hostWriteKey_seqDraws (k : Key) (s : State) : (hostWriteKey k s).seqDraws = s.seqDraws := rfl

/-! `hostSupplyIn` -/

@[simp] theorem hostSupplyIn_key (v : List Byte) (s : State) : (hostSupplyIn v s).key = s.key := rfl
@[simp] theorem hostSupplyIn_w (v : List Byte) (s : State) : (hostSupplyIn v s).w = s.w := rfl
@[simp] theorem hostSupplyIn_st (v : List Byte) (s : State) : (hostSupplyIn v s).st = s.st := rfl
@[simp] theorem hostSupplyIn_buf (v : List Byte) (s : State) : (hostSupplyIn v s).buf = s.buf := rfl
@[simp] theorem hostSupplyIn_prev (v : List Byte) (s : State) : (hostSupplyIn v s).prev = s.prev := rfl
@[simp] theorem hostSupplyIn_save (v : List Byte) (s : State) : (hostSupplyIn v s).save = s.save := rfl
@[simp] theorem hostSupplyIn_tmp (v : List Byte) (s : State) : (hostSupplyIn v s).tmp = s.tmp := rfl
@[simp] theorem hostSupplyIn_opa (v : List Byte) (s : State) : (hostSupplyIn v s).opa = s.opa := rfl
@[simp] theorem hostSupplyIn_res (v : List Byte) (s : State) : (hostSupplyIn v s).res = s.res := rfl
@[simp] theorem hostSupplyIn_cmd (v : List Byte) (s : State) : (hostSupplyIn v s).cmd = s.cmd := rfl
@[simp] theorem hostSupplyIn_len (v : List Byte) (s : State) : (hostSupplyIn v s).len = v.length := rfl
@[simp] theorem hostSupplyIn_status (v : List Byte) (s : State) : (hostSupplyIn v s).status = s.status := rfl
@[simp] theorem hostSupplyIn_byteCount (v : List Byte) (s : State) : (hostSupplyIn v s).byteCount = s.byteCount := rfl
@[simp] theorem hostSupplyIn_phase (v : List Byte) (s : State) : (hostSupplyIn v s).phase = s.phase := rfl
@[simp] theorem hostSupplyIn_seq (v : List Byte) (s : State) : (hostSupplyIn v s).seq = s.seq := rfl
@[simp] theorem hostSupplyIn_inStream (v : List Byte) (s : State) : (hostSupplyIn v s).inStream = v := rfl
@[simp] theorem hostSupplyIn_outStream (v : List Byte) (s : State) : (hostSupplyIn v s).outStream = [] := rfl
@[simp] theorem hostSupplyIn_host (v : List Byte) (s : State) : (hostSupplyIn v s).host = s.host := rfl
@[simp] theorem hostSupplyIn_ivReads (v : List Byte) (s : State) : (hostSupplyIn v s).ivReads = s.ivReads := rfl
@[simp] theorem hostSupplyIn_ivFixed (v : List Byte) (s : State) : (hostSupplyIn v s).ivFixed = s.ivFixed := rfl
@[simp] theorem hostSupplyIn_seqDraws (v : List Byte) (s : State) : (hostSupplyIn v s).seqDraws = s.seqDraws := rfl

end Sys2Proof.Machine
end

