-- ==== Sys2Proof/Laws/Flags.lean ====
section
/-! SUPPORT. What the writes of `STATUS` do to each of its fields, and what the command frame leaves in
`STATUS`. -/

namespace Sys2Proof.Machine

open Sys2Proof.Safety

/-! ### One field written, every field read -/

theorem setBit_getLsbD (k : Nat) (v : Bool) (x : Byte) (j : Nat) (hk : k < 8) :
    (setBit k v x).getLsbD j = if j = k then v else x.getLsbD j := by
  by_cases hj : j < 8
  · have hone : (1#8).getLsbD (j - k) = decide (j - k = 0) := by
      simp [BitVec.getLsbD_one]
    unfold setBit
    rcases Nat.lt_trichotomy j k with h | h | h
    · have h1 : j ≠ k := by omega
      cases v <;> simp [hj, h, h1]
    · subst h
      cases v <;> simp [hj]
    · have h1 : j ≠ k := by omega
      have h2 : ¬ j < k := by omega
      have h3 : j - k ≠ 0 := by omega
      cases v <;> simp [hj, h1, h2, h3]
  · have h1 : j ≠ k := by omega
    rw [if_neg h1, BitVec.getLsbD_of_ge _ j (by omega), BitVec.getLsbD_of_ge _ j (by omega)]

theorem setBit_err (k : Nat) (v : Bool) (x : Byte) (hk : k < 5) :
    (setBit k v x).extractLsb' 5 3 = x.extractLsb' 5 3 := by
  apply BitVec.eq_of_getLsbD_eq
  intro i hi
  have : 5 + i ≠ k := by omega
  simp [BitVec.getLsbD_extractLsb', setBit_getLsbD k v x (5 + i) (by omega), this]

theorem withErr_getLsbD (c : BitVec 3) (x : Byte) (j : Nat) (hj : j < 5) :
    (withErr c x).getLsbD j = x.getLsbD j := by
  have : j = 0 ∨ j = 1 ∨ j = 2 ∨ j = 3 ∨ j = 4 := by omega
  rcases this with rfl | rfl | rfl | rfl | rfl <;> revert c x <;> decide

theorem withErr_err (c : BitVec 3) (x : Byte) : (withErr c x).extractLsb' 5 3 = c := by
  revert c x; decide

@[simp] theorem setDone_done (v : Bool) (s : State) :
    (s.setDone v).done = v :=
  setBit_getLsbD 0 v s.status 0 (by decide)
@[simp] theorem setDone_keyValid (v : Bool) (s : State) :
    (s.setDone v).keyValid = s.keyValid :=
  setBit_getLsbD 0 v s.status 1 (by decide)
@[simp] theorem setDone_ksValid (v : Bool) (s : State) :
    (s.setDone v).ksValid = s.ksValid :=
  setBit_getLsbD 0 v s.status 2 (by decide)
@[simp] theorem setDone_padOk (v : Bool) (s : State) :
    (s.setDone v).padOk = s.padOk :=
  setBit_getLsbD 0 v s.status 3 (by decide)
@[simp] theorem setDone_err (v : Bool) (s : State) : (s.setDone v).err = s.err :=
  setBit_err 0 v s.status (by decide)

@[simp] theorem setKeyValid_done (v : Bool) (s : State) :
    (s.setKeyValid v).done = s.done :=
  setBit_getLsbD 1 v s.status 0 (by decide)
@[simp] theorem setKeyValid_keyValid (v : Bool) (s : State) :
    (s.setKeyValid v).keyValid = v :=
  setBit_getLsbD 1 v s.status 1 (by decide)
@[simp] theorem setKeyValid_ksValid (v : Bool) (s : State) :
    (s.setKeyValid v).ksValid = s.ksValid :=
  setBit_getLsbD 1 v s.status 2 (by decide)
@[simp] theorem setKeyValid_padOk (v : Bool) (s : State) :
    (s.setKeyValid v).padOk = s.padOk :=
  setBit_getLsbD 1 v s.status 3 (by decide)
@[simp] theorem setKeyValid_err (v : Bool) (s : State) : (s.setKeyValid v).err = s.err :=
  setBit_err 1 v s.status (by decide)

@[simp] theorem setKsValid_done (v : Bool) (s : State) :
    (s.setKsValid v).done = s.done :=
  setBit_getLsbD 2 v s.status 0 (by decide)
@[simp] theorem setKsValid_keyValid (v : Bool) (s : State) :
    (s.setKsValid v).keyValid = s.keyValid :=
  setBit_getLsbD 2 v s.status 1 (by decide)
@[simp] theorem setKsValid_ksValid (v : Bool) (s : State) :
    (s.setKsValid v).ksValid = v :=
  setBit_getLsbD 2 v s.status 2 (by decide)
@[simp] theorem setKsValid_padOk (v : Bool) (s : State) :
    (s.setKsValid v).padOk = s.padOk :=
  setBit_getLsbD 2 v s.status 3 (by decide)
@[simp] theorem setKsValid_err (v : Bool) (s : State) : (s.setKsValid v).err = s.err :=
  setBit_err 2 v s.status (by decide)

@[simp] theorem setPadOk_done (v : Bool) (s : State) :
    (s.setPadOk v).done = s.done :=
  setBit_getLsbD 3 v s.status 0 (by decide)
@[simp] theorem setPadOk_keyValid (v : Bool) (s : State) :
    (s.setPadOk v).keyValid = s.keyValid :=
  setBit_getLsbD 3 v s.status 1 (by decide)
@[simp] theorem setPadOk_ksValid (v : Bool) (s : State) :
    (s.setPadOk v).ksValid = s.ksValid :=
  setBit_getLsbD 3 v s.status 2 (by decide)
@[simp] theorem setPadOk_padOk (v : Bool) (s : State) :
    (s.setPadOk v).padOk = v :=
  setBit_getLsbD 3 v s.status 3 (by decide)
@[simp] theorem setPadOk_err (v : Bool) (s : State) : (s.setPadOk v).err = s.err :=
  setBit_err 3 v s.status (by decide)

@[simp] theorem setErr_done (c : BitVec 3) (s : State) : (s.setErr c).done = s.done :=
  withErr_getLsbD c s.status 0 (by decide)
@[simp] theorem setErr_keyValid (c : BitVec 3) (s : State) : (s.setErr c).keyValid = s.keyValid :=
  withErr_getLsbD c s.status 1 (by decide)
@[simp] theorem setErr_ksValid (c : BitVec 3) (s : State) : (s.setErr c).ksValid = s.ksValid :=
  withErr_getLsbD c s.status 2 (by decide)
@[simp] theorem setErr_padOk (c : BitVec 3) (s : State) : (s.setErr c).padOk = s.padOk :=
  withErr_getLsbD c s.status 3 (by decide)
@[simp] theorem setErr_err (c : BitVec 3) (s : State) : (s.setErr c).err = c :=
  withErr_err c s.status

/-! ### The frame on `STATUS` -/

/-- The frame's first line keeps `KEY_VALID`, `KS_VALID` and bit 4, and clears the rest. -/
theorem clearStatus_eq (x : Byte) :
    setBit 3 false (withErr 0 (setBit 0 false x)) = x &&& 0x16#8 := by
  revert x; decide

theorem completeStatus_eq (x : Byte) (pad : Bool) :
    setBit 0 true (setBit 3 pad (x &&& 0x16#8)) = completedStatus x pad := by
  revert x pad; decide

theorem raiseStatus_eq (x : Byte) (e : Exc) :
    withErr e.code (x &&& 0x16#8) = raisedStatus x e := by
  cases e <;> revert x <;> decide

end Sys2Proof.Machine
end

