-- ==== Sys2Proof/Laws/Ops.lean ====
section
/-! SUPPORT. What each shared operation can do, said once: the command frame, the operand checks, the
unit-access shapes, and the streams. -/

namespace Sys2Proof.Machine

open Sys2Proof.Safety

/-! ### The command frame -/

theorem beginCommand_eq (s : State) :
    beginCommand s = { s with status := s.status &&& 0x16#8, byteCount := 0 } := by
  have h := clearStatus_eq s.status
  simp only [beginCommand, State.setDone, State.setErr, State.setPadOk, h]

@[simp] theorem beginCommand_status (s : State) :
    (beginCommand s).status = s.status &&& 0x16#8 := by rw [beginCommand_eq]

@[simp] theorem beginCommand_keyValid (s : State) : (beginCommand s).keyValid = s.keyValid := by
  simp [beginCommand_eq, State.keyValid]

@[simp] theorem beginCommand_ksValid (s : State) : (beginCommand s).ksValid = s.ksValid := by
  simp [beginCommand_eq, State.ksValid]

/-- Taking an exception straight after the frame's first line: nothing but `STATUS`, `BYTECOUNT` and
`PHASE` differs from the state before the command. -/
@[simp] theorem raise_begin (e : Exc) (s : State) : raiseException e (beginCommand s) = raised s e := by
  simp [raiseException, beginCommand_eq, raised, State.setErr, raiseStatus_eq]

/-- Completing a command whose body wrote `STATUS.PAD_OK` and nothing else of `STATUS`. -/
theorem complete_begin (s t : State) (pad : Bool)
    (h : t.status = setBit 3 pad (s.status &&& 0x16#8)) :
    completeCommand t = { t with status := completedStatus s.status pad, phase := .idle } := by
  simp [completeCommand, State.setDone, h, completeStatus_eq]

theorem clearedPad_eq (x : Byte) : setBit 3 false (x &&& 0x16#8) = x &&& 0x16#8 := by
  revert x; decide

/-- Completing a command whose body left `STATUS` alone. -/
theorem complete_plain (s t : State) (h : t.status = s.status &&& 0x16#8) :
    completeCommand t = { t with status := completedStatus s.status false, phase := .idle } :=
  complete_begin s t false (by rw [h, clearedPad_eq])

theorem expandedStatus_eq (x : Byte) (pad : Bool) :
    setBit 0 true (setBit 3 pad (setBit 2 true (x &&& 0x16#8))) = completedStatus x pad ||| 0x04#8 := by
  revert x pad; decide

/-- Completing a command whose body ran the key expansion and then perhaps wrote `PAD_OK`. -/
theorem complete_expanded (s t : State) (pad : Bool)
    (h : t.status = setBit 3 pad (setBit 2 true (s.status &&& 0x16#8))) :
    completeCommand t =
      { t with status := completedStatus s.status pad ||| 0x04#8, phase := .idle } := by
  simp [completeCommand, State.setDone, h, expandedStatus_eq]

theorem command_completes {body : State → Ending} {s t : State}
    (h : body (beginCommand s) = .completes t) : command body s = .next (completeCommand t) := by
  simp [command, h, endCommand]

theorem command_raises {body : State → Ending} {s : State} {e : Exc}
    (h : body (beginCommand s) = .raises e (beginCommand s)) : command body s = .next (raised s e) := by
  simp [command, h, endCommand, raise_begin]

/-- Everything a command can do: complete, raise, or be refused. -/
theorem command_cases (body : State → Ending) (s : State) :
    (∃ u, body (beginCommand s) = .completes u ∧ command body s = .next (completeCommand u)) ∨
    (∃ e u, body (beginCommand s) = .raises e u ∧ command body s = .next (raiseException e u)) ∨
    (∃ r, body (beginCommand s) = .refuses r ∧ command body s = .refused r) := by
  cases h : body (beginCommand s) with
  | completes u => exact .inl ⟨u, rfl, by simp [command, h, endCommand]⟩
  | raises e u => exact .inr (.inl ⟨e, u, rfl, by simp [command, h, endCommand]⟩)
  | refuses r => exact .inr (.inr ⟨r, rfl, by simp [command, h, endCommand]⟩)

/-- If a command answers a next state, its body completed or raised. -/
theorem command_next {body : State → Ending} {s t : State} (h : command body s = .next t) :
    (∃ u, body (beginCommand s) = .completes u ∧ t = completeCommand u) ∨
    (∃ e u, body (beginCommand s) = .raises e u ∧ t = raiseException e u) := by
  rcases command_cases body s with ⟨u, hu, h'⟩ | ⟨e, u, hu, h'⟩ | ⟨r, _, h'⟩ <;> rw [h'] at h
  · exact .inl ⟨u, hu, by cases h; rfl⟩
  · exact .inr ⟨e, u, hu, by cases h; rfl⟩
  · cases h

theorem reservedCommand_eq (s : State) : reservedCommand s = .next (raised s .eReserved) :=
  command_raises rfl

/-! ### The operand checks -/

theorem needKey_cases (s : State) (k : Ending) :
    (s.keyValid = true ∧ needKey s k = k) ∨
    (s.keyValid = false ∧ needKey s k = .raises .eNoKey s) := by
  cases h : s.keyValid <;> simp [needKey, h]

theorem needSchedule_cases (s : State) (k : Ending) :
    (s.ksValid = true ∧ needSchedule s k = k) ∨
    (s.ksValid = false ∧ needSchedule s k = .raises .eNoKey s) := by
  cases h : s.ksValid <;> simp [needSchedule, h]

theorem needWritten_cases {α : Type} (r : Reg α) (s : State) (k : α → Ending) :
    (r.written = true ∧ needWritten r s k = k r.value) ∨
    (r.written = false ∧ needWritten r s k = .raises .eUninit s) := by
  cases h : r.written <;> simp [needWritten, h]

theorem needAtMost_cases (max : Nat) (a : Byte) (s : State) (k : Fin (max + 1) → Ending) :
    (∃ h : a.toNat ≤ max, needAtMost max a s k = k ⟨a.toNat, Nat.lt_succ_of_le h⟩) ∨
    (max < a.toNat ∧ needAtMost max a s k = .raises .eReserved s) := by
  by_cases h : a.toNat ≤ max
  · exact .inl ⟨h, by simp [needAtMost, h]⟩
  · exact .inr ⟨by omega, by simp [needAtMost, h]⟩

/-! ### The shapes of the unit-access commands -/

/-- `RES <- f(OPA)`: all it can do. -/
theorem byteUnit_spec (f : Byte → Byte) (s : State) :
    command (byteUnit f) s =
      .next (if s.opa.written then { completed s false with res := Reg.holding (f s.opa.value) }
        else raised s .eUninit) := by
  cases h : s.opa.written
  · simpa [h] using command_raises (body := byteUnit f) (s := s)
      (by simp [byteUnit, needWritten, beginCommand_eq, h])
  · rw [command_completes (t := (beginCommand s).writeRes (f s.opa.value))
      (by simp [byteUnit, needWritten, beginCommand_eq, h])]
    rw [complete_plain s _ (by simp [beginCommand_eq])]
    simp [completed, beginCommand_eq, State.writeRes]

/-- `ST <- f(ST)`: all it can do. -/
theorem matrixUnit_spec (f : Matrix → Matrix) (s : State) :
    command (matrixUnit f) s =
      .next (if s.st.written then { completed s false with st := Reg.holding (f s.st.value) }
        else raised s .eUninit) := by
  cases h : s.st.written
  · simpa [h] using command_raises (body := matrixUnit f) (s := s)
      (by simp [matrixUnit, needWritten, beginCommand_eq, h])
  · rw [command_completes (t := (beginCommand s).writeSt (f s.st.value))
      (by simp [matrixUnit, needWritten, beginCommand_eq, h])]
    rw [complete_plain s _ (by simp [beginCommand_eq])]
    simp [completed, beginCommand_eq, State.writeSt]

/-- `TMP <- f(TMP)`: all it can do. -/
theorem wordUnit_spec (f : Word → Word) (s : State) :
    command (wordUnit f) s =
      .next (if s.tmp.written then { completed s false with tmp := Reg.holding (f s.tmp.value) }
        else raised s .eUninit) := by
  cases h : s.tmp.written
  · simpa [h] using command_raises (body := wordUnit f) (s := s)
      (by simp [wordUnit, needWritten, beginCommand_eq, h])
  · rw [command_completes (t := (beginCommand s).writeTmp (f s.tmp.value))
      (by simp [wordUnit, needWritten, beginCommand_eq, h])]
    rw [complete_plain s _ (by simp [beginCommand_eq])]
    simp [completed, beginCommand_eq, State.writeTmp]

/-! ### Bytes, words and blocks -/

@[simp] theorem matrixOf_cell (f : Fin 4 → Fin 4 → Byte) (r c : Fin 4) : (matrixOf f)[r][c] = f r c := by
  simp [matrixOf]

@[simp] theorem matrixOf_cell_nat (f : Fin 4 → Fin 4 → Byte) (r c : Nat) (hr : r < 4) (hc : c < 4) :
    ((matrixOf f)[r]'hr)[c]'hc = f ⟨r, hr⟩ ⟨c, hc⟩ := by
  simp [matrixOf]

@[simp] theorem xorBlock_byte (a b : Block) (i : Nat) (hi : i < 16) :
    (xorBlock a b)[i] = a[i] ^^^ b[i] := by
  simp [xorBlock]

@[simp] theorem xorWord_byte (a b : Word) (i : Nat) (hi : i < 4) :
    (xorWord a b)[i] = a[i] ^^^ b[i] := by
  simp [xorWord]

@[simp] theorem blockOf_byte (v : List Byte) (i : Nat) (hi : i < 16) :
    (blockOf v)[i] = v.getD i 0 := by
  simp [blockOf]

/-- Two States with the same cells are equal. -/
theorem matrix_ext {A B : Matrix} (h : ∀ r c : Fin 4, A[r][c] = B[r][c]) : A = B := by
  apply Vector.ext
  intro r hr
  apply Vector.ext
  intro c hc
  exact h ⟨r, hr⟩ ⟨c, hc⟩

/-! ### The streams -/

@[simp] theorem memRead_length (S : List Byte) (a n : Nat) :
    (memRead S a n).length = min n (S.length - a) := by
  simp [memRead]

/-- `InRead(16)` returns as many bytes as are left, at most 16, when `LEN` is the length of `IN`. -/
theorem inBytes_length {s : State} (h : s.len = s.inStream.length) :
    (inBytes s).length = availableBytes s := by
  simp [inBytes, availableBytes, h]

end Sys2Proof.Machine
end

