-- ==== Sys2Proof/Laws/KeySchedule.lean ====
section
/-! SUPPORT. The key expansion, said once: which words its loop has settled, the word it adds, and what
the expansion inside a command does to the state. -/

namespace Sys2Proof.Machine

/-- Words below `8 + n` no longer change after `n` turns of the loop. -/
theorem expandTo_settled (T : SBox) (K : Key) (n : Nat) (hn : n ≤ 52) (i : Nat) (hi : i < n + 8)
    (m : Nat) (hm : m ≤ 52) (hnm : n ≤ m) :
    (expandTo T K m hm)[i]'(by omega) = (expandTo T K n hn)[i]'(by omega) := by
  induction m with
  | zero =>
    obtain rfl : n = 0 := by omega
    rfl
  | succ m ih =>
    by_cases e : n = m + 1
    · subst e; rfl
    · rw [← ih (by omega) (by omega)]
      simp only [expandTo]
      rw [Vector.getElem_set_ne]
      omega

/-- The word that turn `n` of the loop adds. -/
theorem expandTo_new (T : SBox) (K : Key) (n : Nat) (h : n + 1 ≤ 52) :
    (expandTo T K (n + 1) h)[n + 8]'(by omega) =
      nextWord T (expandTo T K n (by omega)) n (by omega) := by
  simp [expandTo]

/-- The finished schedule holds the words its loop settled. -/
theorem keyExpansion_settled (T : SBox) (K : Key) (n : Nat) (hn : n ≤ 52) (i : Nat) (hi : i < n + 8)
    (h60 : i < 60) : (keyExpansion T K)[i] = (expandTo T K n hn)[i] := by
  have h : ∀ (m : Nat) (hm : m ≤ 52), m = 52 → (expandTo T K m hm)[i] = (expandTo T K n hn)[i] :=
    fun m hm e => expandTo_settled T K n hn i hi m hm (by omega)
  unfold keyExpansion
  exact h 52 (Nat.le_refl 52) rfl

/-- Everything the key expansion inside a command does (R145, R149, R31). -/
theorem expandKey_eq (s : State) :
    expandKey s =
      { s with
        phase := .expand
        w := keyExpansion Config.sbox s.key
        tmp := Reg.holding (keyExpansion Config.sbox s.key)[58]
        status := setBit 2 true s.status } := by
  simp only [expandKey, State.writePhase, State.writeW, State.writeTmp, State.setKsValid]

/-- Everything that leaving `WIDX` open does. -/
theorem freeWidx_eq (s : State) :
    ∃ n, 8 ≤ n ∧ n ≤ 60 ∧
      freeWidx s = { s with seq := { s.seq with widx := n }, seqDraws := s.seqDraws + 1 } :=
  ⟨8 + seqValue s 0 % 53, by omega, by omega, rfl⟩

/-- Everything that leaving `RND` open does. -/
theorem freeRnd_eq (s : State) :
    ∃ n, n ≤ 14 ∧ freeRnd s = { s with seq := { s.seq with rnd := n }, seqDraws := s.seqDraws + 1 } :=
  ⟨seqValue s 1 % 15, by omega, rfl⟩

/-- Everything that leaving all sequencer registers open does. -/
theorem freeSequencer_eq (s : State) :
    ∃ q : Sequencer, 8 ≤ q.widx ∧ q.widx ≤ 60 ∧ q.rnd ≤ 14 ∧
      freeSequencer s = { s with seq := q, seqDraws := s.seqDraws + 1 } :=
  ⟨_, by show 8 ≤ 8 + seqValue s 0 % 53; omega, by show 8 + seqValue s 0 % 53 ≤ 60; omega,
    by show seqValue s 1 % 15 ≤ 14; omega, rfl⟩

end Sys2Proof.Machine
end

