-- ==== Sys2Proof/Laws/BlockTransform.lean ====
section
/-! SUPPORT. The block transform, said once: the cells each round operation writes, and what a cipher run
does to the state. -/

namespace Sys2Proof.Machine

/-! ### The cells of each operation -/

@[simp] theorem load_cell (B : Block) (r c : Nat) (hr : r < 4) (hc : c < 4) :
    ((load B)[r]'hr)[c]'hc = B[r + 4 * c] := by
  simp [load]

@[simp] theorem unload_byte (S : Matrix) (i : Nat) (hi : i < 16) :
    (unload S)[i]'hi = (S[i % 4]'(Nat.mod_lt _ (by decide)))[i / 4]'(by omega) := by
  simp [unload]

@[simp] theorem subBytes_cell (T : SBox) (S : Matrix) (r c : Nat) (hr : r < 4) (hc : c < 4) :
    ((subBytes T S)[r]'hr)[c]'hc = T (S[r]'hr)[c] := by
  simp [subBytes, sboxRead]

@[simp] theorem invSubBytes_cell (T : SBox) (S : Matrix) (r c : Nat) (hr : r < 4) (hc : c < 4) :
    ((invSubBytes T S)[r]'hr)[c]'hc = T.symm (S[r]'hr)[c] := by
  simp [invSubBytes, invSboxRead]

@[simp] theorem shiftRows_cell (S : Matrix) (r c : Nat) (hr : r < 4) (hc : c < 4) :
    ((shiftRows S)[r]'hr)[c]'hc = (S[r]'hr)[(c + r) % 4]'(Nat.mod_lt _ (by decide)) := by
  simp [shiftRows]

@[simp] theorem invShiftRows_cell (S : Matrix) (r c : Nat) (hr : r < 4) (hc : c < 4) :
    ((invShiftRows S)[r]'hr)[c]'hc = (S[r]'hr)[(c + 4 - r) % 4]'(Nat.mod_lt _ (by decide)) := by
  simp [invShiftRows]

@[simp] theorem addRoundKey_cell (S : Matrix) (W : Schedule) (rd : Fin 15) (r c : Nat) (hr : r < 4)
    (hc : c < 4) :
    ((addRoundKey S W rd)[r]'hr)[c]'hc =
      (S[r]'hr)[c] ^^^ (W[4 * rd.val + c]'(by have := rd.isLt; omega))[r] := by
  simp [addRoundKey]

/-! ### A cipher run inside a command -/

/-- Everything the forward cipher inside a command does (R171). -/
theorem encryptBuf_eq (B : Block) (s : State) :
    encryptBuf B s =
      { s with
        st := Reg.holding (cipherState Config.sbox B s.w)
        buf := Reg.holding (cipher Config.sbox B s.w) } := by
  simp only [encryptBuf, State.writeSt, State.writeBuf, cipher]

/-- Everything the inverse cipher inside a command does (R172). -/
theorem decryptBuf_eq (B : Block) (s : State) :
    decryptBuf B s =
      { s with
        st := Reg.holding (invCipherState Config.sbox B s.w)
        buf := Reg.holding (invCipher Config.sbox B s.w) } := by
  simp only [decryptBuf, State.writeSt, State.writeBuf, invCipher]

end Sys2Proof.Machine
end

