-- ==== Sys2Proof/Laws/ModeDriver.lean ====
section
/-! SUPPORT. The mode driver, said once: what opening the streams, one turn of each block loop and the end
of a file-level command do to the state, and the encrypt loop as a fold over the plaintext blocks. -/

namespace Sys2Proof.Machine

open Sys2Proof.Safety

/-- Everything `Begin` does after its checks (R214). -/
theorem openStreams_eq (s : State) :
    openStreams s =
      { s with
        phase := .blocks
        w := keyExpansion Config.sbox s.key
        tmp := Reg.holding (keyExpansion Config.sbox s.key)[58]
        status := setBit 2 true s.status
        seq := { s.seq with blk := 0, rpos := 0, wpos := 0 }
        outStream := [] } := by
  simp only [openStreams, expandKey_eq, State.writePhase]

/-- Everything the IV of an encryption does (R207). -/
theorem emitIv_eq (s : State) :
    emitIv s =
      { s with
        prev := Reg.holding s.ivDraw
        ivReads := s.ivReads + 1
        ivFixed := none
        outStream := s.outStream ++ s.ivDraw.toList
        seq := { s.seq with wpos := s.seq.wpos + 16 } } := by
  simp [emitIv, outWrite, afterIvRead, State.writePrev]

/-- Everything one turn of the `ECB_ENC` loop does (R205). -/
theorem ecbEncryptBlock_eq (B : Block) (s : State) :
    ecbEncryptBlock B s =
      { s with
        st := Reg.holding (cipherState Config.sbox B s.w)
        buf := Reg.holding (cipher Config.sbox B s.w)
        outStream := s.outStream ++ (cipher Config.sbox B s.w).toList
        seq := { s.seq with wpos := s.seq.wpos + 16, blk := s.seq.blk + 1 } } := by
  simp [ecbEncryptBlock, encryptBuf_eq, outWrite, nextBlockIndex, State.writeBuf]

/-- Everything one turn of the `CBC_ENC` loop does (R207). -/
theorem cbcEncryptBlock_eq (B : Block) (s : State) :
    cbcEncryptBlock B s =
      { s with
        st := Reg.holding (cipherState Config.sbox (xorBlock B s.prev.value) s.w)
        buf := Reg.holding (cipher Config.sbox (xorBlock B s.prev.value) s.w)
        prev := Reg.holding (cipher Config.sbox (xorBlock B s.prev.value) s.w)
        outStream := s.outStream ++ (cipher Config.sbox (xorBlock B s.prev.value) s.w).toList
        seq := { s.seq with wpos := s.seq.wpos + 16, blk := s.seq.blk + 1 } } := by
  simp [cbcEncryptBlock, encryptBuf_eq, outWrite, nextBlockIndex, State.writeBuf, State.writePrev]

/-- Everything the write of a decrypted block does (R202, R206). -/
theorem writePlain_eq (last : Bool) (B : Block) (s : State) :
    writePlain last B s =
      { s with
        status := if last then setBit 3 (padOK B) s.status else s.status
        outStream := s.outStream ++ (if last then unpad B else B.toList)
        seq :=
          { s.seq with wpos := s.seq.wpos + (if last then (unpad B).length else 16) } } := by
  cases last <;> simp [writePlain, outWrite, State.setPadOk]

/-- Everything one turn of the `ECB_DEC` loop does (R206). -/
theorem ecbDecryptBlock_eq (last : Bool) (s : State) :
    ecbDecryptBlock last s =
      nextBlockIndex (writePlain last (invCipher Config.sbox (cipherBlock s) s.w)
        { afterRead s with
          st := Reg.holding (invCipherState Config.sbox (cipherBlock s) s.w)
          buf := Reg.holding (invCipher Config.sbox (cipherBlock s) s.w) }) := by
  simp [ecbDecryptBlock, decryptBuf_eq, State.writeBuf]

/-- Everything one turn of the `CBC_DEC` loop does (R208): `PREV` becomes the ciphertext block. -/
theorem cbcDecryptBlock_eq (last : Bool) (s : State) :
    cbcDecryptBlock last s =
      nextBlockIndex
        { writePlain last (xorBlock (invCipher Config.sbox (cipherBlock s) s.w) s.prev.value)
            { afterRead s with
              st := Reg.holding (invCipherState Config.sbox (cipherBlock s) s.w)
              buf := Reg.holding
                (xorBlock (invCipher Config.sbox (cipherBlock s) s.w) s.prev.value)
              save := Reg.holding (cipherBlock s) } with
          prev := Reg.holding (cipherBlock s) } := by
  simp [cbcDecryptBlock, decryptBuf_eq, writePlain_eq, State.writeBuf, State.writeSave,
    State.writePrev]

/-- Everything the end of a file-level command does (R214): the sequencer registers are left open. -/
theorem endFile_eq (s : State) :
    ∃ q : Sequencer, 8 ≤ q.widx ∧ q.widx ≤ 60 ∧ q.rnd ≤ 14 ∧
      endFile s =
        .completes { s with byteCount := s.seq.wpos, seq := q, seqDraws := s.seqDraws + 1 } := by
  obtain ⟨q, h1, h2, h3, e⟩ := freeSequencer_eq (s.writeByteCount s.seq.wpos)
  exact ⟨q, h1, h2, h3, by rw [endFile, e]; rfl⟩

/-! ### The checks of the file-level commands -/

theorem checkLen_cases (cbc : Bool) (s : State) (k : Ending) :
    (badLength cbc s.len = false ∧ checkLen cbc s k = k) ∨
    (badLength cbc s.len = true ∧ checkLen cbc s k = .raises .eLength s) := by
  by_cases h : s.len % 16 = 0 ∧ minCipherLen cbc ≤ s.len
  · refine .inl ⟨?_, by rw [checkLen, if_pos h]⟩
    have h2 := h.2
    simp [badLength, h.1]
    simpa [minCipherLen] using h2
  · refine .inr ⟨?_, by rw [checkLen, if_neg h]⟩
    simp only [badLength, Bool.or_eq_true, bne_iff_ne, ne_eq, decide_eq_true_eq]
    simp only [minCipherLen] at h
    omega

theorem beginFile_cases (s : State) (k : State → Ending) :
    (s.keyValid = false ∧ beginFile s k = .raises .eNoKey s) ∨
    (s.keyValid = true ∧ s.len ≠ s.inStream.length ∧
      beginFile s k = .refuses .lenNotInputLength) ∨
    (s.keyValid = true ∧ s.len = s.inStream.length ∧ beginFile s k = k (openStreams s)) := by
  cases h : s.keyValid
  · exact .inl ⟨rfl, by simp [beginFile, needKey, h]⟩
  · by_cases hl : s.len = s.inStream.length
    · exact .inr (.inr ⟨rfl, hl, by simp [beginFile, needKey, h, needInput, hl]⟩)
    · exact .inr (.inl ⟨rfl, hl, by simp [beginFile, needKey, h, needInput, hl]⟩)

/-! ### The loops -/

/-- A loop body that leaves the input and the read cursor alone and moves to the next block. -/
def Advances (body : Block → State → State) : Prop :=
  ∀ B s, (body B s).inStream = s.inStream ∧ (body B s).len = s.len ∧
    (body B s).seq.rpos = s.seq.rpos ∧ (body B s).seq.blk = s.seq.blk + 1

theorem ecbEncryptBlock_advances : Advances ecbEncryptBlock := by
  intro B s; simp [ecbEncryptBlock_eq]

theorem cbcEncryptBlock_advances : Advances cbcEncryptBlock := by
  intro B s; simp [cbcEncryptBlock_eq]

/-- Reading at the end of the input changes nothing. -/
theorem afterRead_end {s : State} (h : s.len ≤ s.seq.rpos) : afterRead s = s := by
  have : availableBytes s = 0 := by unfold availableBytes; omega
  simp [afterRead, this]

/-- The first 16 bytes decide the block. -/
theorem blockOf_take (v : List Byte) : blockOf (v.take 16) = blockOf v := by
  apply Vector.ext
  intro i hi
  simp [List.getD, hi]

/-- The encrypt loop from block `k` on is the body over the plaintext blocks `k`, `k + 1`, .. up to the
last one (R200, R215). -/
theorem encryptLoop_eq_foldl {body : Block → State → State} (hb : Advances body) (fuel : Nat) :
    ∀ s : State, s.len = s.inStream.length → s.seq.rpos = 16 * s.seq.blk → 16 * s.seq.blk ≤ s.len →
      fuel = (s.len - 16 * s.seq.blk) / 16 + 1 →
      encryptLoop body fuel s =
        ((List.range' s.seq.blk (nbBlocks s.len - s.seq.blk)).map
          (plainBlockAt s.inStream)).foldl (fun s B => body B (afterRead s)) s := by
  induction fuel with
  | zero => intro s _ _ _ h; omega
  | succ fuel ih =>
    intro s hl hp hle hf
    have havail : (inBytes s).length = min 16 (s.len - 16 * s.seq.blk) := by
      rw [inBytes_length hl, availableBytes, hp]
    by_cases hfull : s.seq.blk * 16 + 16 ≤ s.len
    · have h16 : (inBytes s).length = 16 := by rw [havail]; omega
      have hB : blockOf (inBytes s) = plainBlockAt s.inStream s.seq.blk := by
        have ha : availableBytes s = 16 := by unfold availableBytes; omega
        rw [plainBlockAt, if_pos (by omega), inBytes, ha, memRead, hp, blockOf_take]
      have hn : nbBlocks s.len - s.seq.blk = nbBlocks s.len - (s.seq.blk + 1) + 1 := by
        unfold nbBlocks; split <;> omega
      obtain ⟨b1, b2, b3, b4⟩ := hb (plainBlockAt s.inStream s.seq.blk) (afterRead s)
      have c1 : (afterRead s).inStream = s.inStream := rfl
      have c2 : (afterRead s).len = s.len := rfl
      have c3 : (afterRead s).seq.blk = s.seq.blk := rfl
      have c4 : (afterRead s).seq.rpos = 16 * s.seq.blk + 16 := by
        show s.seq.rpos + availableBytes s = _
        unfold availableBytes; omega
      rw [encryptLoop, plainBlock, if_pos h16, hB]
      simp only
      rw [ih _ (by rw [b1, b2]; exact hl) (by rw [b3, b4, c3, c4]; omega)
        (by rw [b4, c3, b2, c2]; omega) (by rw [b4, c3, b2, c2]; omega)]
      rw [b1, b2, b4, c1, c2, c3, hn, List.range'_succ]
      rfl
    · have hlt : (inBytes s).length = s.len - 16 * s.seq.blk := by rw [havail]; omega
      rw [encryptLoop, plainBlock, if_neg (by omega)]
      by_cases hsome : 1 ≤ (inBytes s).length ∨ s.seq.blk = 0
      · have hB : pad (inBytes s) = plainBlockAt s.inStream s.seq.blk := by
          rw [plainBlockAt, if_neg (by omega), inBytes, memRead, hp]
          congr 1
          apply List.take_of_length_le
          unfold availableBytes
          simp only [List.length_drop]; omega
        have hn : nbBlocks s.len - s.seq.blk = 1 := by
          unfold nbBlocks; split <;> omega
        rw [if_pos hsome, hn, hB]
        simp [List.range'_succ]
      · have hn : nbBlocks s.len - s.seq.blk = 0 := by
          unfold nbBlocks; split <;> omega
        rw [if_neg hsome, hn]
        simp only [List.range'_zero, List.map_nil, List.foldl_nil]
        exact afterRead_end (by omega)

/-- One turn of the decrypt loop. -/
theorem decryptLoop_succ (body : Bool → State → State) (n : Nat) (s : State) :
    decryptLoop body (n + 1) s = decryptLoop body n (body (n == 0) s) := rfl

end Sys2Proof.Machine
end

