-- ==== Sys2Proof/Laws/PerInstr.lean ====
section
/-! SUPPORT. The per-instruction family `CommandWord`: what every command's word looks like, one lemma per
constructor of `Instr` (30_encoding.md R80, R83). -/

namespace Sys2Proof.Laws.CommandWord

/-- The word of a command passes the four checks of R83, has its must-be-zero bits 6:5 at 0, and in
format C bits 4:3 too (R80). -/
def Statement (i : Instr) : Prop :=
  wellFormedWord (encode i) = true ∧ encode i &&& 0x60#8 = 0#8 ∧
    (cmdUnit (encode i) = false → encode i &&& 0x18#8 = 0#8)

theorem ecbEnc : Statement .ecbEnc := by unfold Statement; decide
theorem ecbDec : Statement .ecbDec := by unfold Statement; decide
theorem cbcEnc : Statement .cbcEnc := by unfold Statement; decide
theorem cbcDec : Statement .cbcDec := by unfold Statement; decide
theorem blkEnc : Statement .blkEnc := by unfold Statement; decide
theorem blkDec : Statement .blkDec := by unfold Statement; decide
theorem keyExp : Statement .keyExp := by unfold Statement; decide
theorem xtime : Statement .xtime := by unfold Statement; decide
theorem mul02 : Statement .mul02 := by unfold Statement; decide
theorem mul03 : Statement .mul03 := by unfold Statement; decide
theorem mul09 : Statement .mul09 := by unfold Statement; decide
theorem mul0b : Statement .mul0b := by unfold Statement; decide
theorem mul0d : Statement .mul0d := by unfold Statement; decide
theorem mul0e : Statement .mul0e := by unfold Statement; decide
theorem sboxRd : Statement .sboxRd := by unfold Statement; decide
theorem invSboxRd : Statement .invSboxRd := by unfold Statement; decide
theorem rconRd : Statement .rconRd := by unfold Statement; decide
theorem rdw : Statement .rdw := by unfold Statement; decide
theorem rotWord : Statement .rotWord := by unfold Statement; decide
theorem subWord : Statement .subWord := by unfold Statement; decide
theorem loadSt : Statement .loadSt := by unfold Statement; decide
theorem unloadSt : Statement .unloadSt := by unfold Statement; decide
theorem subBytes : Statement .subBytes := by unfold Statement; decide
theorem shiftRows : Statement .shiftRows := by unfold Statement; decide
theorem mixColumns : Statement .mixColumns := by unfold Statement; decide
theorem addRoundKey : Statement .addRoundKey := by unfold Statement; decide
theorem invSubBytes : Statement .invSubBytes := by unfold Statement; decide
theorem invShiftRows : Statement .invShiftRows := by unfold Statement; decide
theorem invMixColumns : Statement .invMixColumns := by unfold Statement; decide
theorem pad : Statement .pad := by unfold Statement; decide
theorem unpad : Statement .unpad := by unfold Statement; decide
theorem xorPrev : Statement .xorPrev := by unfold Statement; decide

end Sys2Proof.Laws.CommandWord
end

