-- ==== Sys2Proof/Tests/Slice0.lean ====
section
/-! SUPPORT. Tests of the model, each a named theorem: the well-formedness smoke test, every command's word
as the spec's tables give it, small one-step tests whose expected values stand in spec/95_test_vectors.md or in
the rule's own example, and for every obligation with hypotheses a witness that meets them. `tLin` is the test
instantiation `T_LIN` of spec/95_test_vectors.md section 3; it is never the table of this hardware. -/

namespace Sys2Proof.Tests

open Sys2Proof Sys2Proof.Machine Sys2Proof.Safety

/-! ### Helpers -/

/-- The block whose 16 bytes are written as one hexadecimal number, byte 0 leftmost (R11). -/
def blk (n : Nat) : Block := Vector.ofFn fun i => BitVec.ofNat 8 (n >>> (8 * (15 - i.val)))

/-- The word whose 4 bytes are written as one hexadecimal number, byte 0 leftmost (R57). -/
def wd (n : Nat) : Word := Vector.ofFn fun i => BitVec.ofNat 8 (n >>> (8 * (3 - i.val)))

/-- The key `000102..1f` of the vectors. -/
def testKey : Key := Vector.ofFn fun i => BitVec.ofNat 8 i.val

/-- `T_LIN`: `SBOX[x] = (5x + 1) mod 256`. -/
def tLin : SBox where
  toFun x := 5 * x + 1
  invFun y := 205 * (y - 1)
  left_inv := by unfold Function.LeftInverse; decide
  right_inv := by unfold Function.RightInverse Function.LeftInverse; decide

/-- Every register written, `OPA` holding `a`, and a schedule whose words 0 to 7 are those of the key. -/
def ready (a : Byte) : State :=
  { State.reset with
    key := testKey
    w := keyWords testKey
    status := 0x06
    st := Reg.holding (load (blk 0x000102030405060708090a0b0c0d0e0f))
    buf := Reg.holding (blk 0x000102030405060708090a0b0c0d0e0f)
    prev := Reg.holding (blk 0xa0a1a2a3a4a5a6a7a8a9aaabacadaeaf)
    save := Reg.holding zeroBlock
    tmp := Reg.holding (wd 0x1c1d1e1f)
    opa := Reg.holding a
    res := Reg.holding 0 }

/-- `ready` with another block in `BUF`. -/
def readyBuf (a : Byte) (n : Nat) : State := { ready a with buf := Reg.holding (blk n) }

/-- `ready` with another State in `ST`. -/
def readySt (n : Nat) : State := { ready 0 with st := Reg.holding (load (blk n)) }

/-- A key and an input are there, and nothing else (R282). -/
def fileReady (v : List Byte) : State :=
  { State.reset with key := testKey, status := 0x02, inStream := v, len := v.length }

/-- The bytes `00, 01, ..`. -/
def count (n : Nat) : List Byte := (List.range n).map fun i => BitVec.ofNat 8 i

/-- `fileReady` on a plaintext of `n` bytes, with the draw of `IVSRC` fixed (R92). -/
def ivReady (n : Nat) : State :=
  { fileReady (count n) with ivFixed := some (blk 0xa0a1a2a3a4a5a6a7a8a9aaabacadaeaf) }

/-- The state of a `next` answer; the reset state of any other. -/
def after : Result → State
  | .next t => t
  | _ => State.reset

/-- Whether the answer is a next state. -/
def isNext : Result → Bool
  | .next _ => true
  | _ => false

/-- One write of a command word as the only access. -/
def run (w : Nat) (s : State) : State := after (step (s.withFetchWord 8 w))

/-! ### Well-formedness: for each clause of R83 a word the check refuses, and its nearest neighbours -/

theorem test_wf_clause_a : wellFormedWord 0x08 = false ∧ wellFormedWord 0x7F = false := by decide
theorem test_wf_clause_b : wellFormedWord 0x07 = false := by decide
theorem test_wf_clause_c : wellFormedWord 0xA0 = false ∧ wellFormedWord 0xFF = false := by decide
theorem test_wf_clause_d :
    wellFormedWord 0x87 = false ∧ wellFormedWord 0x8E = false ∧ wellFormedWord 0x8F = false ∧
    wellFormedWord 0x99 = false ∧ wellFormedWord 0x9D = false ∧ wellFormedWord 0x9F = false := by decide
theorem test_wf_neighbours :
    wellFormedWord 0x06 = true ∧ wellFormedWord 0x80 = true ∧ wellFormedWord 0x9C = true := by decide
theorem test_reserved_named :
    decode 0x08 = .reserved .zeroBitsFormatC ∧ decode 0x07 = .reserved .selectSeven ∧
    decode 0xA0 = .reserved .zeroBitsFormatU ∧ decode 0x87 = .reserved .unusedUop := by decide

/-! ### Every command's word, bit by bit from R81 and R82 -/

theorem test_decode_ecbEnc : decode 0b00000000#8 = .command .ecbEnc := by decide
theorem test_decode_ecbDec : decode 0b00000001#8 = .command .ecbDec := by decide
theorem test_decode_cbcEnc : decode 0b00000010#8 = .command .cbcEnc := by decide
theorem test_decode_cbcDec : decode 0b00000011#8 = .command .cbcDec := by decide
theorem test_decode_blkEnc : decode 0b00000100#8 = .command .blkEnc := by decide
theorem test_decode_blkDec : decode 0b00000101#8 = .command .blkDec := by decide
theorem test_decode_keyExp : decode 0b00000110#8 = .command .keyExp := by decide
theorem test_decode_xtime : decode 0b10000000#8 = .command .xtime := by decide
theorem test_decode_mul02 : decode 0b10000001#8 = .command .mul02 := by decide
theorem test_decode_mul03 : decode 0b10000010#8 = .command .mul03 := by decide
theorem test_decode_mul09 : decode 0b10000011#8 = .command .mul09 := by decide
theorem test_decode_mul0b : decode 0b10000100#8 = .command .mul0b := by decide
theorem test_decode_mul0d : decode 0b10000101#8 = .command .mul0d := by decide
theorem test_decode_mul0e : decode 0b10000110#8 = .command .mul0e := by decide
theorem test_decode_sboxRd : decode 0b10001000#8 = .command .sboxRd := by decide
theorem test_decode_invSboxRd : decode 0b10001001#8 = .command .invSboxRd := by decide
theorem test_decode_rconRd : decode 0b10001010#8 = .command .rconRd := by decide
theorem test_decode_rdw : decode 0b10001011#8 = .command .rdw := by decide
theorem test_decode_rotWord : decode 0b10001100#8 = .command .rotWord := by decide
theorem test_decode_subWord : decode 0b10001101#8 = .command .subWord := by decide
theorem test_decode_loadSt : decode 0b10010000#8 = .command .loadSt := by decide
theorem test_decode_unloadSt : decode 0b10010001#8 = .command .unloadSt := by decide
theorem test_decode_subBytes : decode 0b10010010#8 = .command .subBytes := by decide
theorem test_decode_shiftRows : decode 0b10010011#8 = .command .shiftRows := by decide
theorem test_decode_mixColumns : decode 0b10010100#8 = .command .mixColumns := by decide
theorem test_decode_addRoundKey : decode 0b10010101#8 = .command .addRoundKey := by decide
theorem test_decode_invSubBytes : decode 0b10010110#8 = .command .invSubBytes := by decide
theorem test_decode_invShiftRows : decode 0b10010111#8 = .command .invShiftRows := by decide
theorem test_decode_invMixColumns : decode 0b10011000#8 = .command .invMixColumns := by decide
theorem test_decode_pad : decode 0b10011010#8 = .command .pad := by decide
theorem test_decode_unpad : decode 0b10011011#8 = .command .unpad := by decide
theorem test_decode_xorPrev : decode 0b10011100#8 = .command .xorPrev := by decide
theorem test_decodeTableWord :
    decodeTableWord 8 0x9B = some .unpad ∧ decodeTableWord 8 0x99 = none := by decide

/-! ### Field arithmetic (spec/95_test_vectors.md section 2) -/

theorem test_xtime : (after (exec .xtime (ready 0x57))).res = Reg.holding 0xAE := by decide
theorem test_xtime_reduces : (after (exec .xtime (ready 0x80))).res = Reg.holding 0x1B := by decide
theorem test_mul02 : (after (exec .mul02 (ready 0x80))).res = Reg.holding 0x1B := by decide
theorem test_mul03 : (after (exec .mul03 (ready 0xff))).res = Reg.holding 0x1A := by decide
theorem test_mul09 : (after (exec .mul09 (ready 0x57))).res = Reg.holding 0xD9 := by decide
theorem test_mul0b : (after (exec .mul0b (ready 0x80))).res = Reg.holding 0xF7 := by decide
theorem test_mul0d : (after (exec .mul0d (ready 0xff))).res = Reg.holding 0x97 := by decide
theorem test_mul0e : (after (exec .mul0e (ready 0x57))).res = Reg.holding 0x67 := by decide

/-! ### Tables (section 3; R130, R131) -/

theorem test_sbox : sboxRead tLin 0x00 = 0x01 ∧ sboxRead tLin 0x33 = 0x00 := by decide
theorem test_invSbox : invSboxRead tLin 0x01 = 0x00 ∧ invSboxRead tLin 0x00 = 0x33 := by decide

/-! ### Key schedule (section 4) -/

theorem test_rconRd : (after (exec .rconRd (ready 7))).res = Reg.holding 0x40 := by decide
theorem test_rconRd_last : (after (exec .rconRd (ready 10))).res = Reg.holding 0x36 := by decide
theorem test_rdw : (after (exec .rdw (ready 7))).tmp = Reg.holding (wd 0x1c1d1e1f) := by decide
theorem test_rotWord : (after (exec .rotWord (ready 0))).tmp = Reg.holding (wd 0x1d1e1f1c) := by decide
theorem test_subWord : subWord tLin (wd 0x1d1e1f1c) = wd 0x92979c8d := by decide
theorem test_firstNewWord : nextWord tLin (keyWords testKey) 0 (by decide) = wd 0x93969e8e := by decide
theorem test_keyExp : (run 0x06 (fileReady [])).status = 0x07 := by decide

/-! ### Round operations (section 5) -/

theorem test_loadSt :
    (after (exec .loadSt (ready 0))).st.value[1] = #v[0x01, 0x05, 0x09, 0x0d] := by decide
theorem test_unloadSt :
    (after (exec .unloadSt (readySt 0x00112233445566778899aabbccddeeff))).buf =
      Reg.holding (blk 0x00112233445566778899aabbccddeeff) := by decide
theorem test_subBytes :
    unload (subBytes tLin (load (blk 0x00112233445566778899aabbccddeeff))) =
      blk 0x0156ab0055aaff54a9fe53a8fd52a7fc := by decide
theorem test_invSubBytes :
    unload (invSubBytes tLin (load (blk 0x00112233445566778899aabbccddeeff))) =
      blk 0x33d06d0aa744e17e1bb855f28f2cc966 := by decide
theorem test_shiftRows :
    unload (after (exec .shiftRows (ready 0))).st.value =
      blk 0x00050a0f04090e03080d02070c01060b := by decide
theorem test_invShiftRows :
    unload (after (exec .invShiftRows (ready 0))).st.value =
      blk 0x000d0a0704010e0b0805020f0c090603 := by decide
theorem test_mixColumns :
    unload (after (exec .mixColumns (readySt 0xdb135345f20a225c01000000d4d4d4d5))).st.value =
      blk 0x8e4da1bc9fdc589d02010103d5d5d7d6 := by decide
theorem test_invMixColumns :
    unload (after (exec .invMixColumns (readySt 0x8e4da1bcf20a225c01000000d4d4d4d5))).st.value =
      blk 0xdb135345aec369820e090d0bddd9dfda := by decide
theorem test_addRoundKey_0 :
    unload (addRoundKey (load (blk 0x00112233445566778899aabbccddeeff)) (keyWords testKey) 0) =
      blk 0x00102030405060708090a0b0c0d0e0f0 := by decide
theorem test_addRoundKey_1 :
    unload (after (exec .addRoundKey
      { readySt 0x00112233445566778899aabbccddeeff with opa := Reg.holding 1 })).st.value =
      blk 0x10003020504070609080b0a0d0c0f0e0 := by decide

/-! ### The ciphers (section 6): round 1 under `T_LIN`, and what a command leaves besides data -/

theorem test_cipherRound :
    unload (cipherRound tLin (keyWords testKey) 1 (load (blk 0x00102030405060708090a0b0c0d0e0f0))) =
      blk 0x2afb08d96ebf4c9da2738051e637c415 := by decide
theorem test_invCipherRound_0 :
    unload (invCipherRound tLin (keyWords testKey) 0
      (load (blk 0x019121b141d161f18111a131c151e171))) =
      blk 0x00112233445566778899aabbccddeeff := by decide
theorem test_blkEnc : (run 0x04 (ready 0)).status = 0x07 := by decide
theorem test_blkDec : (run 0x05 (ready 0)).status = 0x07 := by decide

/-! ### The padding unit and the chaining XOR (sections 7.1 to 7.3) -/

theorem test_pad :
    (after (exec .pad (readyBuf 2 0xffffffffffffffffffffffffffffffff))).buf =
      Reg.holding (blk 0xffff000000000000000000000000000e) := by decide
theorem test_pad_empty : pad [] = blk 0x00000000000000000000000000000010 := by decide
theorem test_unpad :
    (after (exec .unpad (readyBuf 0 0x000102030405060708090a0b0c0d0002))).res = Reg.holding 14 ∧
    (after (exec .unpad (readyBuf 0 0x000102030405060708090a0b0c0d0e01))).status = 0x0F := by decide
theorem test_unpad_fails :
    (after (exec .unpad (readyBuf 0 0x00000000000000000000000000000011))).res = Reg.holding 16 ∧
    (after (exec .unpad (readyBuf 0 0x01000000000000000000000000000010))).status = 0x07 := by decide
theorem test_xorPrev :
    (after (exec .xorPrev (ready 0))).buf =
      Reg.holding (blk 0xa0a0a0a0a0a0a0a0a0a0a0a0a0a0a0a0) := by decide

/-! ### The file-level commands (sections 7.4 to 7.7, 9): lengths and `STATUS`, which no table decides -/

theorem test_ecbEnc_empty :
    (run 0x00 (fileReady [])).byteCount = 16 ∧ (run 0x00 (fileReady [])).status = 0x07 := by decide
theorem test_ecbEnc_20 : (run 0x00 (fileReady (count 20))).byteCount = 32 := by decide
theorem test_ecbDec_short : (run 0x01 (fileReady (count 31))).status = 0x22 := by decide
theorem test_cbcEnc_16 :
    (run 0x02 (ivReady 16)).byteCount = 32 ∧ (run 0x02 (ivReady 16)).ivReads = 1 := by decide
theorem test_cbcEnc_iv :
    (run 0x02 (ivReady 0)).outStream.take 16 = (blk 0xa0a1a2a3a4a5a6a7a8a9aaabacadaeaf).toList := by
  decide
theorem test_cbcDec_ivOnly : (run 0x03 (fileReady (count 16))).status = 0x22 := by decide
theorem test_plainBlocks_20 :
    (plainBlocks (count 20)).map (fun b => b.toList.take 5) =
      [[0, 1, 2, 3, 4], [0x10, 0x11, 0x12, 0x13, 0]] := by decide
theorem test_stripLast :
    stripLast [blk 0x000102030405060708090a0b0c0d0e0f, blk 0x1011121300000000000000000000000c] =
      count 20 := by decide

/-! ### Exceptions from reset (section 9) -/

theorem test_reset_xtime : (run 0x80 State.reset).status = 0x80 := by decide
theorem test_reset_keyExp : (run 0x06 State.reset).status = 0x60 := by decide
theorem test_reset_ecbDec : (run 0x01 { State.reset with len := 5 }).status = 0x20 := by decide
theorem test_reset_reserved : (run 0xA0 State.reset).status = 0x40 := by decide
theorem test_error_kept_by_key_write : (hostWriteKey testKey (run 0x40 State.reset)).status = 0x42 := by
  decide
theorem test_priority_addRoundKey :
    (run 0x95 { ready 15 with st := Reg.unwritten (load zeroBlock) }).status = 0x86 ∧
    (run 0x95 (ready 15)).status = 0x46 := by decide
theorem test_pad_range : (run 0x9A (ready 16)).status = 0x46 := by decide
theorem test_rdw_range : (run 0x8B (ready 60)).status = 0x46 := by decide

/-! ### Witnesses: for every obligation with hypotheses, states and operands that meet them -/

/-- `ready` with one register unwritten. -/
def noOpa : State := { ready 0 with opa := Reg.unwritten 0 }
/-- `ready` with `BUF` unwritten. -/
def noBuf : State := { ready 0 with buf := Reg.unwritten zeroBlock }
/-- `ready` with `ST` unwritten. -/
def noSt : State := { ready 0 with st := Reg.unwritten (load zeroBlock) }
/-- `ready` with `PREV` unwritten. -/
def noPrev : State := { ready 0 with prev := Reg.unwritten zeroBlock }
/-- `ready` with `TMP` unwritten. -/
def noTmp : State := { ready 0 with tmp := Reg.unwritten zeroWord }

theorem witness_StepRunsTheDecodedCommand :
    ((ready 0).withFetchWord 8 0x80).host = .writeCmd 0x80 :: [] ∧ decode 0x80 = .command .xtime := by
  decide
theorem witness_IdleCoreWaits : (ready 0).host = [] := by decide
theorem witness_KeyWriteInvalidatesSchedule :
    ({ ready 0 with host := [.writeKey testKey] }).host = .writeKey testKey :: [] ∧
    ∀ i ∈ [Instr.blkEnc, .blkDec, .addRoundKey, .rdw],
      (i = .blkEnc ∨ i = .blkDec ∨ i = .addRoundKey ∨ i = .rdw) := by decide
theorem witness_HostAccessesWriteWhatTheyName :
    ({ ready 0 with host := [.writeBuf zeroBlock] }).host = .writeBuf zeroBlock :: [] ∧
    ({ ready 0 with host := [.writePrev zeroBlock] }).host = .writePrev zeroBlock :: [] ∧
    ({ ready 0 with host := [.writeTmp zeroWord] }).host = .writeTmp zeroWord :: [] ∧
    ({ ready 0 with host := [.writeOpa 0xFF] }).host = .writeOpa 0xFF :: [] ∧
    ({ ready 0 with host := [.writeLen 0] }).host = .writeLen 0 :: [] ∧
    ({ ready 0 with host := [.supplyIn []] }).host = .supplyIn [] :: [] ∧
    ({ ready 0 with host := [.provideOut] }).host = .provideOut :: [] ∧
    ({ ready 0 with host := [.fixIv zeroBlock] }).host = .fixIv zeroBlock :: [] ∧
    ({ ready 0 with host := [.read .buf] }).host = .read .buf :: [] := by decide
theorem witness_ResetAccessRestoresCore :
    ({ ready 0 with host := [.reset, .read .status] }).host = .reset :: [.read .status] := by decide
theorem witness_HostReadsTheNamedRegister :
    (ready 0).buf.written = true ∧ (ready 0).prev.written = true ∧ (ready 0).tmp.written = true ∧
    (ready 0).res.written = true := by decide
theorem witness_CommandsReportTheFirstFailingCheck :
    firstFailure .ecbDec { State.reset with len := 5 } = some .eLength ∧
    firstFailure .rdw { ready 60 with status := 0x02 } = some .eNoKey ∧
    firstFailure .addRoundKey { noSt with opa := Reg.holding 15 } = some .eUninit ∧
    firstFailure .addRoundKey (ready 15) = some .eReserved ∧
    firstFailure .ecbEnc (fileReady []) = none ∧
    firstFailure .cbcDec { fileReady (count 48) with len := 32 } = none := by decide
theorem witness_NoCommandWritesWhatOnlyHostWrites :
    ∃ t, exec .xtime (ready 0x57) = .next t := ⟨_, rfl⟩
theorem witness_CommandsWriteOnlyTheirRegisters :
    ∃ t, exec .xorPrev (ready 0) = .next t := ⟨_, rfl⟩
theorem witness_StepKeepsInvariant :
    Inv { State.reset with status := 0x02, host := [.writeOpa 0x57] } ∧
    ∃ t, step { State.reset with status := 0x02, host := [.writeOpa 0x57] } = .next t := by
  constructor
  · constructor <;> decide
  · exact ⟨_, rfl⟩
theorem witness_FileCommandsDependOnKeyAndInputOnly :
    fileLevel .cbcEnc = true ∧ (ivReady 0).key = { ivReady 0 with ivReads := 7, res := Reg.holding 1 }.key ∧
    (ivReady 0).ivDraw = { ivReady 0 with ivReads := 7, res := Reg.holding 1 }.ivDraw ∧
    isNext (exec .cbcEnc (ivReady 0)) = true ∧
    isNext (exec .cbcEnc { ivReady 0 with ivReads := 7, res := Reg.holding 1 }) = true ∧
    (after (exec .cbcEnc (ivReady 0))).err = 0 := by decide
theorem witness_UnacceptableLengthRaisesELength :
    (0 : Nat) < 16 ∧ (15 : Nat) % 16 ≠ 0 ∧ (16 : Nat) < 32 ∧ (33 : Nat) % 16 ≠ 0 ∧
    isNext (exec .ecbDec (fileReady (count 16))) = true ∧
    isNext (exec .cbcDec (fileReady (count 32))) = true ∧
    isNext (exec .ecbEnc (fileReady [])) = true ∧ isNext (exec .cbcEnc (ivReady 0)) = true := by decide
theorem witness_ReservedWordOrOperandRaisesEReserved :
    (State.reset.withFetchWord 8 0x7F).host = .writeCmd 0x7F :: [] ∧
    (State.reset.withFetchWord 8 0x9D).host = .writeCmd 0x9D :: [] ∧
    (ready 11).opa.written = true ∧ 10 < (ready 11).opa.value.toNat ∧
    59 < (ready 60).opa.value.toNat ∧ (ready 60).ksValid = true ∧
    14 < (ready 15).opa.value.toNat ∧ (ready 15).st.written = true ∧
    15 < (ready 16).opa.value.toNat ∧ (ready 16).buf.written = true := by decide
theorem witness_MissingKeyOrScheduleRaisesENoKey :
    ({ State.reset with len := 32 }).keyValid = false ∧ ({ State.reset with len := 32 }).len % 16 = 0 ∧
    ({ State.reset with len := 16 }).keyValid = false ∧ 16 ≤ ({ State.reset with len := 16 }).len ∧
    (fileReady []).ksValid = false := by decide
theorem witness_UnwrittenRegisterRaisesEUninit :
    noOpa.opa.written = false ∧ noOpa.ksValid = true ∧ noTmp.tmp.written = false ∧
    noBuf.buf.written = false ∧ noBuf.ksValid = true ∧ noSt.st.written = false ∧
    noSt.ksValid = true ∧ noPrev.prev.written = false ∧
    isNext (exec .ecbEnc (fileReady [])) = true := by decide
theorem witness_FalseInputLengthIsRefused :
    ({ fileReady [] with len := 32 }).keyValid = true ∧
    ({ fileReady [] with len := 32 }).len ≠ ({ fileReady [] with len := 32 }).inStream.length ∧
    ({ fileReady [] with len := 32 }).len % 16 = 0 ∧ 32 ≤ ({ fileReady [] with len := 32 }).len := by
  decide
theorem witness_XtimeShiftsAndReduces :
    (ready 0xFF).opa.written = true ∧ noOpa.opa.written = false := by decide
theorem witness_MultipliersGiveTheGeneralProduct :
    ((.mul0e, 0x0E) : Instr × Byte) ∈ [(.mul02, 0x02), (.mul03, 0x03), (.mul09, 0x09), (.mul0b, 0x0B),
      (.mul0d, 0x0D), (.mul0e, 0x0E)] ∧ (ready 0xFF).opa.written = true ∧
    noOpa.opa.written = false := by decide
theorem witness_MultipliersAreLinearBijections :
    mul0e ∈ [xtime, mul02, mul03, mul09, mul0b, mul0d, mul0e] := by simp
theorem witness_TableCommandsReadTheirTable :
    (ready 0xFF).opa.written = true ∧ noOpa.opa.written = false := by decide
theorem witness_RoundConstantsAreDoublings : 1 + 1 < 11 ∧ 9 + 1 < 11 ∧ 1 ≤ 9 := by decide
theorem witness_RconrdReadsOneRoundConstant :
    (ready 0).opa.value.toNat ≤ 10 ∧ (ready 10).opa.value.toNat ≤ 10 ∧ (ready 10).opa.written = true ∧
    10 < (ready 11).opa.value.toNat ∧ noOpa.opa.written = false := by decide
theorem witness_RotwordRotatesTmp :
    (ready 0).tmp.written = true ∧ noTmp.tmp.written = false := by decide
theorem witness_SubwordSubstitutesTmp :
    (ready 0).tmp.written = true ∧ noTmp.tmp.written = false := by decide
theorem witness_KeyExpansionFollowsItsRecurrence :
    7 < 8 ∧ 3 < 4 ∧ 8 < 60 ∧ 8 ≤ 8 ∧ 59 < 60 ∧ 8 ≤ 59 := by decide
theorem witness_KeyexpWritesTheSchedule :
    (fileReady []).keyValid = true ∧ State.reset.keyValid = false := by decide
theorem witness_RdwReadsOneScheduleWord :
    (ready 0).opa.value.toNat ≤ 59 ∧ (ready 59).opa.value.toNat ≤ 59 ∧ (ready 59).ksValid = true ∧
    (ready 59).opa.written = true ∧ (fileReady []).ksValid = false ∧ noOpa.ksValid = true ∧
    noOpa.opa.written = false ∧ 59 < (ready 60).opa.value.toNat := by decide
theorem witness_LoadAndUnloadAreColumnMajor :
    (ready 0).buf.written = true ∧ noBuf.buf.written = false ∧ (ready 0).st.written = true ∧
    noSt.st.written = false ∧ 3 < 4 ∧ 15 < 16 := by decide
theorem witness_SubbytesSubstitutesEveryCell :
    (ready 0).st.written = true ∧ noSt.st.written = false := by decide
theorem witness_InvsubbytesSubstitutesEveryCell :
    (ready 0).st.written = true ∧ noSt.st.written = false := by decide
theorem witness_ShiftrowsRotatesRowsLeft :
    (ready 0).st.written = true ∧ noSt.st.written = false := by decide
theorem witness_InvshiftrowsRotatesRowsRight :
    (ready 0).st.written = true ∧ noSt.st.written = false := by decide
theorem witness_ColumnMixesAreCirculantProducts :
    (Instr.mixColumns = .mixColumns ∧ (#v[2, 3, 1, 1] : Vector Byte 4) = #v[2, 3, 1, 1]) ∧
    (Instr.invMixColumns = .invMixColumns ∧
      (#v[14, 11, 13, 9] : Vector Byte 4) = #v[14, 11, 13, 9]) ∧
    (ready 0).st.written = true ∧ noSt.st.written = false := by decide
theorem witness_AddroundkeyXorsTheRoundKey :
    (ready 0).opa.value.toNat ≤ 14 ∧ (ready 14).opa.value.toNat ≤ 14 ∧ (ready 14).ksValid = true ∧
    (ready 14).st.written = true ∧ (ready 14).opa.written = true ∧ (fileReady []).ksValid = false ∧
    noSt.ksValid = true ∧ noSt.st.written = false ∧ noOpa.ksValid = true ∧
    noOpa.opa.written = false ∧ 14 < (ready 15).opa.value.toNat := by decide
theorem witness_BlkEncEnciphersBuf :
    (ready 0).ksValid = true ∧ (ready 0).buf.written = true ∧ (fileReady []).ksValid = false ∧
    noBuf.ksValid = true ∧ noBuf.buf.written = false := by decide
theorem witness_BlkDecDeciphersBufAndRestoresIt :
    (ready 0).ksValid = true ∧ (ready 0).buf.written = true ∧ (fileReady []).ksValid = false ∧
    noBuf.ksValid = true ∧ noBuf.buf.written = false := by decide
theorem witness_PadWritesThePaddedFormat :
    (ready 0).opa.written = true ∧ (ready 0).buf.written = true ∧ (ready 0).opa.value.toNat ≤ 15 ∧
    (ready 15).opa.value.toNat ≤ 15 ∧ noOpa.opa.written = false ∧ noBuf.buf.written = false ∧
    15 < (ready 16).opa.value.toNat := by decide
theorem witness_UnpadCountsTheKeptBytes :
    (ready 0).buf.written = true ∧ padOK (blk 0xffffffffffffffffffffffffffffff01) = true ∧
    padOK (blk 0x00000000000000000000000000000010) = true ∧
    padOK (blk 0x000102030405060708090a0b0c0d0e00) = false ∧
    padOK (blk 0x00000000000000000000000000000011) = false ∧ noBuf.buf.written = false := by decide
theorem witness_UnpadUndoesPad : (count 0).length ≤ 15 ∧ (count 15).length ≤ 15 := by decide
theorem witness_XorprevXorsPrevIntoBuf :
    (ready 0).buf.written = true ∧ (ready 0).prev.written = true ∧ noBuf.buf.written = false ∧
    noPrev.prev.written = false := by decide
theorem witness_EcbEncWritesTheEcbCiphertext :
    State.reset.keyValid = false ∧ (fileReady []).keyValid = true ∧
    (fileReady []).len = (fileReady []).inStream.length ∧
    (fileReady (count 20)).len = (fileReady (count 20)).inStream.length := by decide
theorem witness_EcbDecWritesTheEcbPlaintext :
    (fileReady []).len < 16 ∧ (fileReady (count 17)).len % 16 ≠ 0 ∧
    ({ State.reset with len := 16 }).keyValid = false ∧ (fileReady (count 16)).len % 16 = 0 ∧
    16 ≤ (fileReady (count 16)).len ∧ (fileReady (count 16)).keyValid = true ∧
    (fileReady (count 16)).len = (fileReady (count 16)).inStream.length := by decide
theorem witness_CbcEncWritesTheCbcCiphertext :
    State.reset.keyValid = false ∧ (ivReady 0).keyValid = true ∧
    (ivReady 0).len = (ivReady 0).inStream.length ∧ (ivReady 20).len = (ivReady 20).inStream.length := by
  decide
theorem witness_CbcDecWritesTheCbcPlaintext :
    (fileReady (count 16)).len < 32 ∧ (fileReady (count 33)).len % 16 ≠ 0 ∧
    ({ State.reset with len := 32 }).keyValid = false ∧ (fileReady (count 32)).len % 16 = 0 ∧
    32 ≤ (fileReady (count 32)).len ∧ (fileReady (count 32)).keyValid = true ∧
    (fileReady (count 32)).len = (fileReady (count 32)).inStream.length := by decide
theorem witness_FileRoundTrip :
    ¬ amb (count 16) ∧ ¬ amb [] ∧ amb (count 15 ++ [1]) := by
  unfold amb; decide
theorem witness_PaddingAmbiguityIsACollision :
    (count 32).length % 16 = 0 ∧ (count 15).length ≤ 15 ∧ count 15 ≠ [] ∧ count 1 ≠ [] ∧
    ([] : List Byte).length % 16 = 0 ∧ ([] : List Byte).length ≤ 15 := by decide
theorem witness_CbcErrorsStayLocal :
    0 ≠ [zeroBlock].length ∧ 0 ≠ [zeroBlock].length + 1 ∧ 3 ≠ [zeroBlock].length ∧
    3 ≠ [zeroBlock].length + 1 := by decide

end Sys2Proof.Tests
end

/-! Two runs of a file-level command (00_scope.md R10). `Alike` relates two runs once the streams are
open: they agree on everything the block loops read and on everything HOST will observe, and on nothing
else. Every part of a file-level command keeps it, so the runs end alike. -/

namespace Sys2Proof.Machine

open Sys2Proof.Safety

/-! ### The frame on `DONE`, `ERR` and `PAD_OK` -/

@[simp] theorem beginCommand_done (s : State) : (beginCommand s).done = false := by
  have h : (beginCommand s).done = (((s.setDone false).setErr 0).setPadOk false).done := rfl
  simp [h]

@[simp] theorem beginCommand_err (s : State) : (beginCommand s).err = 0 := by
  have h : (beginCommand s).err = (((s.setDone false).setErr 0).setPadOk false).err := rfl
  simp [h]

@[simp] theorem beginCommand_padOk (s : State) : (beginCommand s).padOk = false :=
  setPadOk_padOk false _

@[simp] theorem completeCommand_done (s : State) : (completeCommand s).done = true :=
  setDone_done true s

@[simp] theorem completeCommand_err (s : State) : (completeCommand s).err = s.err :=
  setDone_err true s

@[simp] theorem completeCommand_padOk (s : State) : (completeCommand s).padOk = s.padOk :=
  setDone_padOk true s

@[simp] theorem raiseException_done (e : Exc) (s : State) : (raiseException e s).done = s.done :=
  setErr_done e.code s

@[simp] theorem raiseException_err (e : Exc) (s : State) : (raiseException e s).err = e.code :=
  setErr_err e.code s

@[simp] theorem raiseException_padOk (e : Exc) (s : State) : (raiseException e s).padOk = s.padOk :=
  setErr_padOk e.code s

/-- No exception has the code that means "none" (R250). -/
theorem code_ne_zero (e : Exc) : e.code ≠ 0 := by cases e <;> decide

theorem fileLevel_iff (i : Instr) :
    fileLevel i = true ↔ i = .ecbEnc ∨ i = .ecbDec ∨ i = .cbcEnc ∨ i = .cbcDec := by
  cases i <;> simp [fileLevel]

/-! ### What two runs have in common -/

/-- The same report of a command: what HOST reads of `STATUS` but for the validity flags, and
`BYTECOUNT`. -/
structure SameReport (s s' : State) : Prop where
  done : s.done = s'.done
  err : s.err = s'.err
  padOk : s.padOk = s'.padOk
  byteCount : s.byteCount = s'.byteCount

/-- The same observation of a command: its report and, when it completes, `OUT`. -/
structure SameObservation (t t' : State) : Prop extends SameReport t t' where
  out : t.err = 0 → t.outStream = t'.outStream

/-- The same operands of a file-level command (R84): the key and the input. -/
structure SameOperands (s s' : State) : Prop where
  key : s.key = s'.key
  keyValid : s.keyValid = s'.keyValid
  inStream : s.inStream = s'.inStream
  len : s.len = s'.len

/-- Two runs whose streams are open: they agree on all that the block loops read and all that HOST will
observe. `PREV` is read by the CBC loops only, so it is compared when `cbc` holds. -/
structure Alike (cbc : Bool) (s s' : State) : Prop extends SameReport s s' where
  w : s.w = s'.w
  inStream : s.inStream = s'.inStream
  len : s.len = s'.len
  blk : s.seq.blk = s'.seq.blk
  rpos : s.seq.rpos = s'.seq.rpos
  wpos : s.seq.wpos = s'.seq.wpos
  outStream : s.outStream = s'.outStream
  prev : cbc = true → s.prev.value = s'.prev.value

/-- Two runs of a command's body that end alike: both complete with one report and one `OUT`, both raise
one exception, or both are outside the spec. -/
inductive SameEnding : Ending → Ending → Prop where
  | completes {u u' : State} (report : SameReport u u') (out : u.outStream = u'.outStream) :
      SameEnding (.completes u) (.completes u')
  | raises (e : Exc) {u u' : State} (report : SameReport u u') :
      SameEnding (.raises e u) (.raises e u')
  | refuses (r : Refusal) : SameEnding (.refuses r) (.refuses r)

/-! ### The frame and the checks on two runs -/

/-- The frame's first line makes any two reports the same (R259). -/
theorem beginCommand_sameReport (s s' : State) : SameReport (beginCommand s) (beginCommand s') := by
  constructor <;> simp

theorem SameOperands.beginCommand {s s' : State} (h : SameOperands s s') :
    SameOperands (beginCommand s) (beginCommand s') where
  key := h.key
  keyValid := by simpa using h.keyValid
  inStream := h.inStream
  len := h.len

theorem SameReport.completeCommand {u u' : State} (h : SameReport u u') :
    SameReport (completeCommand u) (completeCommand u') where
  done := by simp
  err := by simpa using h.err
  padOk := by simpa using h.padOk
  byteCount := h.byteCount

theorem SameReport.raiseException {u u' : State} (e : Exc) (h : SameReport u u') :
    SameReport (raiseException e u) (raiseException e u') where
  done := by simpa using h.done
  err := by simp
  padOk := by simpa using h.padOk
  byteCount := h.byteCount

/-- Two commands whose bodies end alike answer states in which HOST observes the same. -/
theorem SameEnding.observed {body body' : State → Ending} {s s' t t' : State}
    (h : SameEnding (body (beginCommand s)) (body' (beginCommand s')))
    (ht : command body s = .next t) (ht' : command body' s' = .next t') :
    SameObservation t t' := by
  unfold command at ht ht'
  generalize body (Machine.beginCommand s) = ending at h ht
  generalize body' (Machine.beginCommand s') = ending' at h ht'
  cases h with
  | completes report out =>
    cases ht; cases ht'
    exact { report.completeCommand with out := fun _ => out }
  | raises e report =>
    cases ht; cases ht'
    exact { report.raiseException e with
      out := fun h0 => absurd h0 (by simpa using code_ne_zero e) }
  | refuses r => cases ht

/-- The length check looks at `LEN` only. -/
theorem checkLen_sameEnding (cbc : Bool) {s s' : State} {k k' : Ending} (hlen : s.len = s'.len)
    (hr : SameReport s s') (hk : SameEnding k k') :
    SameEnding (checkLen cbc s k) (checkLen cbc s' k') := by
  unfold checkLen
  rw [hlen]
  split
  · exact hk
  · exact .raises _ hr

/-- The checks of `Begin` look at `KEY_VALID`, `LEN` and `IN` only. -/
theorem beginFile_sameEnding {s s' : State} {k k' : State → Ending} (ho : SameOperands s s')
    (hr : SameReport s s') (hk : SameEnding (k (openStreams s)) (k' (openStreams s'))) :
    SameEnding (beginFile s k) (beginFile s' k') := by
  unfold beginFile needKey needInput
  rw [ho.keyValid, ho.len, ho.inStream]
  split
  · split
    · exact hk
    · exact .refuses _
  · exact .raises _ hr

/-! ### The block loops on two runs -/

/-- The schedule comes from the key, and the cursors and `OUT` start afresh (R214). -/
theorem openStreams_alike {s s' : State} (ho : SameOperands s s') (hr : SameReport s s') :
    Alike false (openStreams s) (openStreams s') := by
  rw [openStreams_eq, openStreams_eq]
  exact
    { done := (setKsValid_done true s).trans (hr.done.trans (setKsValid_done true s').symm)
      err := (setKsValid_err true s).trans (hr.err.trans (setKsValid_err true s').symm)
      padOk := (setKsValid_padOk true s).trans (hr.padOk.trans (setKsValid_padOk true s').symm)
      byteCount := hr.byteCount
      w := congrArg (keyExpansion Config.sbox) ho.key
      inStream := ho.inStream
      len := ho.len
      blk := rfl
      rpos := rfl
      wpos := rfl
      outStream := rfl
      prev := nofun }

@[simp] theorem openStreams_ivDraw (s : State) : (openStreams s).ivDraw = s.ivDraw := by
  rw [openStreams_eq]; rfl

@[simp] theorem beginCommand_ivDraw (s : State) : (beginCommand s).ivDraw = s.ivDraw := rfl

section TwoRuns

variable {cbc : Bool} {s s' : State}

/-- `BYTECOUNT` is `WPOS`, and what the sequencer draws afterwards HOST does not observe (R214). -/
theorem endFile_sameEnding (h : Alike cbc s s') : SameEnding (endFile s) (endFile s') :=
  .completes { done := h.done, err := h.err, padOk := h.padOk, byteCount := h.wpos } h.outStream

theorem Alike.availableBytes_eq (h : Alike cbc s s') : availableBytes s = availableBytes s' := by
  simp only [availableBytes, h.len, h.rpos]

theorem Alike.inBytes_eq (h : Alike cbc s s') : inBytes s = inBytes s' := by
  simp only [inBytes, h.inStream, h.rpos, h.availableBytes_eq]

theorem Alike.cipherBlock_eq (h : Alike cbc s s') : cipherBlock s = cipherBlock s' :=
  congrArg blockOf h.inBytes_eq

theorem Alike.afterRead (h : Alike cbc s s') : Alike cbc (afterRead s) (afterRead s') :=
  { h with rpos := by simp only [afterRead_seq, h.rpos, h.availableBytes_eq] }

theorem Alike.nextBlockIndex (h : Alike cbc s s') :
    Alike cbc (nextBlockIndex s) (nextBlockIndex s') :=
  { h with blk := by simp only [nextBlockIndex_seq, h.blk] }

theorem Alike.outWrite (h : Alike cbc s s') (v : List Byte) :
    Alike cbc (outWrite v s) (outWrite v s') :=
  { h with
    outStream := by simp only [outWrite_outStream, h.outStream]
    wpos := by simp only [outWrite_seq, h.wpos] }

theorem Alike.setPadOk (h : Alike cbc s s') (v : Bool) :
    Alike cbc (s.setPadOk v) (s'.setPadOk v) :=
  { h with
    done := by simpa using h.done
    err := by simpa using h.err
    padOk := by simp }

/-- A write of `PREV` with one block makes the runs agree on it. -/
theorem Alike.writePrev (h : Alike cbc s s') (B : Block) :
    Alike true (s.writePrev B) (s'.writePrev B) :=
  { h with prev := fun _ => rfl }

/-- The scratch registers may hold anything: no loop reads one it has not written. -/
theorem Alike.scratch (h : Alike cbc s s') (st st' : Reg Matrix) (buf buf' save save' : Reg Block) :
    Alike cbc { s with st := st, buf := buf, save := save }
      { s' with st := st', buf := buf', save := save' } :=
  { h with }

theorem Alike.writePlain (h : Alike cbc s s') (last : Bool) (B : Block) :
    Alike cbc (writePlain last B s) (writePlain last B s') := by
  cases last with
  | false => exact h.outWrite _
  | true => exact (h.setPadOk _).outWrite _

/-! #### One turn of each loop -/

theorem Alike.ecbEncryptBlock (h : Alike cbc s s') (B : Block) :
    Alike cbc (ecbEncryptBlock B s) (ecbEncryptBlock B s') := by
  rw [ecbEncryptBlock_eq, ecbEncryptBlock_eq]
  exact
    { h with
      outStream := by simp only [h.outStream, h.w]
      wpos := by simp only [h.wpos]
      blk := by simp only [h.blk] }

theorem Alike.cbcEncryptBlock (h : Alike true s s') (B : Block) :
    Alike true (cbcEncryptBlock B s) (cbcEncryptBlock B s') := by
  have hprev : s.prev.value = s'.prev.value := h.prev rfl
  rw [cbcEncryptBlock_eq, cbcEncryptBlock_eq]
  exact
    { h with
      outStream := by simp only [h.outStream, h.w, hprev]
      wpos := by simp only [h.wpos]
      blk := by simp only [h.blk]
      prev := fun _ => by simp only [h.w, hprev] }

theorem Alike.ecbDecryptBlock (h : Alike cbc s s') (last : Bool) :
    Alike cbc (ecbDecryptBlock last s) (ecbDecryptBlock last s') := by
  rw [ecbDecryptBlock_eq, ecbDecryptBlock_eq, h.cipherBlock_eq, h.w]
  exact ((h.afterRead.scratch _ _ _ _ _ _).writePlain last _).nextBlockIndex

theorem Alike.cbcDecryptBlock (h : Alike true s s') (last : Bool) :
    Alike true (cbcDecryptBlock last s) (cbcDecryptBlock last s') := by
  rw [cbcDecryptBlock_eq, cbcDecryptBlock_eq, h.cipherBlock_eq, h.w, h.prev rfl]
  exact (((h.afterRead.scratch _ _ _ _ _ _).writePlain last _).writePrev _).nextBlockIndex

/-! #### The IV -/

/-- The IV of an encryption: runs with one draw agree on `PREV` and on what `OUT` begins with (R207). -/
theorem Alike.emitIv (h : Alike cbc s s') (hdraw : s.ivDraw = s'.ivDraw) :
    Alike true (emitIv s) (emitIv s') := by
  rw [emitIv_eq, emitIv_eq, hdraw]
  exact
    { h with
      outStream := by simp only [h.outStream]
      wpos := by simp only [h.wpos]
      prev := fun _ => rfl }

/-- The IV of a decryption is the first block of `IN`, so the runs agree on `PREV` (R208). -/
theorem Alike.takeIv (h : Alike cbc s s') : Alike true (takeIv s) (takeIv s') := by
  unfold Machine.takeIv
  rw [h.cipherBlock_eq]
  exact h.afterRead.writePrev _

/-! #### The loops -/

theorem Alike.encryptLoop {body : Block → State → State}
    (hbody : ∀ (B : Block) {u u' : State}, Alike cbc u u' → Alike cbc (body B u) (body B u'))
    (fuel : Nat) (h : Alike cbc s s') :
    Alike cbc (encryptLoop body fuel s) (encryptLoop body fuel s') := by
  induction fuel generalizing s s' with
  | zero => exact h
  | succ fuel ih =>
    rw [Machine.encryptLoop, Machine.encryptLoop, h.inBytes_eq, h.blk]
    split
    · exact h.afterRead
    · exact hbody _ h.afterRead
    · exact ih (hbody _ h.afterRead)

theorem Alike.decryptLoop {body : Bool → State → State}
    (hbody : ∀ (last : Bool) {u u' : State}, Alike cbc u u' → Alike cbc (body last u) (body last u'))
    (n : Nat) (h : Alike cbc s s') : Alike cbc (decryptLoop body n s) (decryptLoop body n s') := by
  induction n generalizing s s' with
  | zero => exact h
  | succ n ih =>
    rw [decryptLoop_succ, decryptLoop_succ]
    exact ih (hbody _ h)

end TwoRuns

/-! ### The four file-level commands on two runs -/

section FileLevel

variable {s s' t t' : State}

/-- Once the frame has begun, two runs with the same operands get through `Begin` alike, and `rest` may take
them to be `Alike`. -/
theorem begunFile_sameEnding {k k' : State → Ending} (ho : SameOperands s s')
    (rest : Alike false (openStreams (beginCommand s)) (openStreams (beginCommand s')) →
      SameEnding (k (openStreams (beginCommand s))) (k' (openStreams (beginCommand s')))) :
    SameEnding (beginFile (beginCommand s) k) (beginFile (beginCommand s') k') :=
  have hr := beginCommand_sameReport s s'
  beginFile_sameEnding ho.beginCommand hr (rest (openStreams_alike ho.beginCommand hr))

theorem execEcbEnc_observed (ho : SameOperands s s') (ht : execEcbEnc s = .next t)
    (ht' : execEcbEnc s' = .next t') : SameObservation t t' := by
  refine SameEnding.observed (begunFile_sameEnding ho fun hopen => ?_) ht ht'
  rw [plainReads, plainReads, hopen.len]
  exact endFile_sameEnding (hopen.encryptLoop (fun B _ _ h => h.ecbEncryptBlock B) _)

theorem execCbcEnc_observed (ho : SameOperands s s') (hdraw : s.ivDraw = s'.ivDraw)
    (ht : execCbcEnc s = .next t) (ht' : execCbcEnc s' = .next t') : SameObservation t t' := by
  refine SameEnding.observed (begunFile_sameEnding ho fun hopen => ?_) ht ht'
  have hiv := hopen.emitIv (by simpa using hdraw)
  rw [plainReads, plainReads, hopen.len]
  exact endFile_sameEnding (hiv.encryptLoop (fun B _ _ h => h.cbcEncryptBlock B) _)

theorem execEcbDec_observed (ho : SameOperands s s') (ht : execEcbDec s = .next t)
    (ht' : execEcbDec s' = .next t') : SameObservation t t' := by
  refine SameEnding.observed (checkLen_sameEnding _ ho.beginCommand.len
    (beginCommand_sameReport s s') (begunFile_sameEnding ho fun hopen => ?_)) ht ht'
  rw [hopen.len]
  exact endFile_sameEnding (hopen.decryptLoop (fun last _ _ h => h.ecbDecryptBlock last) _)

theorem execCbcDec_observed (ho : SameOperands s s') (ht : execCbcDec s = .next t)
    (ht' : execCbcDec s' = .next t') : SameObservation t t' := by
  refine SameEnding.observed (checkLen_sameEnding _ ho.beginCommand.len
    (beginCommand_sameReport s s') (begunFile_sameEnding ho fun hopen => ?_)) ht ht'
  rw [hopen.len]
  exact endFile_sameEnding (hopen.takeIv.decryptLoop (fun last _ _ h => h.cbcDecryptBlock last) _)

end FileLevel

/-- Settles O16: the checks read only the operands, `Begin` makes the two runs `Alike`, and every turn of
the loops keeps them so. -/
theorem fileCommandsDependOnKeyAndInputOnly : Obligations.FileCommandsDependOnKeyAndInputOnly := by
  intro i s s' t t' hi hkey hvalid hin hlen hdraw ht ht'
  have ho : SameOperands s s' := ⟨hkey, hvalid, hin, hlen⟩
  have same : SameObservation t t' := by
    rcases (fileLevel_iff i).mp hi with rfl | rfl | rfl | rfl
    · exact execEcbEnc_observed ho ht ht'
    · exact execEcbDec_observed ho ht ht'
    · exact execCbcEnc_observed ho (hdraw rfl) ht ht'
    · exact execCbcDec_observed ho ht ht'
  exact ⟨same.done, same.err, same.padOk, same.byteCount, same.out⟩

end Sys2Proof.Machine

/-! HOST's accesses, the frame of every command, and the invariant between accesses (10_state.md R21,
R31, R33, R40, R43, R44). `Writes` says once what the body of a command does: which registers it may have
written, and what it keeps whatever it wrote. Every command is shown to stay within its row of the access
tables (`written`); the frame statements and the invariant are then read off. -/

namespace Sys2Proof.Machine

open Sys2Proof.Safety

/-! ### One step, by HOST's next access -/

theorem step_idle {s : State} (h : s.host = []) : step s = .next s := by
  simp [step, nextAccess, h]

theorem step_writeCmd {s : State} {c : Byte} {rest : List HostAccess}
    (h : s.host = .writeCmd c :: rest) : step s = writeCommand c { s with host := rest } := by
  simp [step, nextAccess, h]

theorem step_hostAccess {s : State} {a : HostAccess} {rest : List HostAccess}
    (h : s.host = a :: rest) (ha : ∀ c, a ≠ .writeCmd c) :
    step s = .next (hostAccess a { s with host := rest }) := by
  cases a with
  | writeCmd c => exact absurd rfl (ha c)
  | _ => simp [step, nextAccess, h]

theorem writeCommand_command {c : Byte} {i : Instr} (h : decode c = .command i) (s : State) :
    writeCommand c s = exec i (latchCommand c s) := by
  simp [writeCommand, h]

theorem writeCommand_reserved {c : Byte} {why : ReservedReason} (h : decode c = .reserved why)
    (s : State) : writeCommand c s = .next (raised (latchCommand c s) .eReserved) := by
  simp [writeCommand, h, reservedCommand_eq]

/-- Settles O4. -/
theorem stepRunsTheDecodedCommand : Obligations.StepRunsTheDecodedCommand := by
  intro s c rest i hhost hdecode
  rw [step_writeCmd hhost, writeCommand_command hdecode]
  rfl

/-- Settles O7: no access of the list writes `CMD`, and `hostAccess` is the update the clause names. -/
theorem hostAccessesWriteWhatTheyName : Obligations.HostAccessesWriteWhatTheyName := by
  intro s rest
  exact ⟨fun _ h => step_hostAccess h nofun, fun _ h => step_hostAccess h nofun,
    fun _ h => step_hostAccess h nofun, fun _ h => step_hostAccess h nofun,
    fun _ h => step_hostAccess h nofun, fun _ h => step_hostAccess h nofun,
    fun h => step_hostAccess h nofun, fun _ h => step_hostAccess h nofun,
    fun _ h => step_hostAccess h nofun⟩

/-- Settles O8. -/
theorem resetAccessRestoresCore : Obligations.ResetAccessRestoresCore := by
  intro s rest hhost
  exact ⟨resetCore { s with host := rest }, step_hostAccess hhost nofun, rfl, rfl, rfl, rfl, rfl, rfl,
    rfl, rfl, rfl, rfl, rfl, rfl, rfl, rfl, rfl, rfl⟩

/-- Settles O10. -/
theorem resetValuesOfTheSpec : Obligations.ResetValuesOfTheSpec := by
  unfold Obligations.ResetValuesOfTheSpec
  decide

theorem readWritten_of_written {α : Type} {r : Reg α} (h : r.written = true) (f : α → HostDatum) :
    readWritten r f = some (f r.value) := by
  simp [readWritten, h]

/-- Settles O9. -/
theorem hostReadsTheNamedRegister : Obligations.HostReadsTheNamedRegister := by
  intro s
  exact ⟨rfl, rfl, rfl, fun h => readWritten_of_written h fun b => .bytes b.toList,
    fun h => readWritten_of_written h fun b => .bytes b.toList,
    fun h => readWritten_of_written h fun w => .bytes w.toList,
    fun h => readWritten_of_written h fun a => .bytes [a]⟩

/-! ### A write of `KEY` -/

theorem needSchedule_raises {s : State} (h : s.ksValid = false) (k : Ending) :
    needSchedule s k = .raises .eNoKey s := by
  simp [needSchedule, h]

/-- Without the schedule of the current key, the four commands that read `W` raise `E_NOKEY` before they
look at any other operand (R253(b), R260). -/
theorem exec_scheduleReader_raises {i : Instr} {s : State}
    (hi : i = .blkEnc ∨ i = .blkDec ∨ i = .addRoundKey ∨ i = .rdw) (h : s.ksValid = false) :
    exec i s = .next (raised s .eNoKey) := by
  have hbegin : (beginCommand s).ksValid = false := by simpa using h
  rcases hi with rfl | rfl | rfl | rfl
  · show execBlkEnc s = _
    exact command_raises (needSchedule_raises hbegin _)
  · show execBlkDec s = _
    exact command_raises (needSchedule_raises hbegin _)
  · show execAddRoundKey s = _
    exact command_raises (needSchedule_raises hbegin _)
  · show execRdw s = _
    exact command_raises (needSchedule_raises hbegin _)

theorem keyWriteStatus_eq (x : Byte) :
    setBit 2 false (setBit 1 true x) = (x ||| 0x02#8) &&& 0xFB#8 := by
  revert x; decide

/-- Everything a write of `KEY` does (R31, R285). -/
theorem hostWriteKey_eq (k : Key) (s : State) :
    hostWriteKey k s = { s with key := k, status := (s.status ||| 0x02#8) &&& 0xFB#8 } := by
  simp only [hostWriteKey, State.setKeyValid, State.setKsValid, keyWriteStatus_eq]

@[simp] theorem hostWriteKey_done (k : Key) (s : State) : (hostWriteKey k s).done = s.done :=
  (setKsValid_done false _).trans (setKeyValid_done true _)

@[simp] theorem hostWriteKey_ksValid (k : Key) (s : State) : (hostWriteKey k s).ksValid = false :=
  setKsValid_ksValid false _

@[simp] theorem hostWriteKey_padOk (k : Key) (s : State) : (hostWriteKey k s).padOk = s.padOk :=
  (setKsValid_padOk false _).trans (setKeyValid_padOk true _)

@[simp] theorem hostWriteKey_err (k : Key) (s : State) : (hostWriteKey k s).err = s.err :=
  (setKsValid_err false _).trans (setKeyValid_err true _)

/-- Settles O6: the write clears `KS_VALID`, and each schedule reader checks it first. -/
theorem keyWriteInvalidatesSchedule : Obligations.KeyWriteInvalidatesSchedule := by
  intro s k rest hhost
  have hwrite := hostWriteKey_eq k { s with host := rest }
  refine ⟨_, rfl, ?_, fun i hi => exec_scheduleReader_raises hi ?_⟩
  · rw [step_hostAccess hhost nofun]
    exact congrArg _ hwrite
  · exact (congrArg State.ksValid hwrite).symm.trans (hostWriteKey_ksValid k _)

/-! ### A false `LEN` -/

theorem command_refuses {body : State → Ending} {s : State} {r : Refusal}
    (h : body (beginCommand s) = .refuses r) : command body s = .refused r := by
  simp [command, h, endCommand]

theorem checkLen_passes {cbc : Bool} {s : State} (h16 : s.len % 16 = 0)
    (hmin : minCipherLen cbc ≤ s.len) (k : Ending) : checkLen cbc s k = k :=
  if_pos ⟨h16, hmin⟩

theorem beginFile_refuses {s : State} (hkey : s.keyValid = true)
    (hlen : s.len ≠ s.inStream.length) (k : State → Ending) :
    beginFile s k = .refuses .lenNotInputLength := by
  simp [beginFile, needKey, hkey, needInput, hlen]

/-- Settles O21: with the length and the key accepted, `Begin` refuses to open the streams. -/
theorem falseInputLengthIsRefused : Obligations.FalseInputLengthIsRefused := by
  intro s hkey hlen
  have refuses (k : State → Ending) :
      beginFile (beginCommand s) k = .refuses .lenNotInputLength :=
    beginFile_refuses (by simpa using hkey) (by simpa using hlen) k
  have passes (cbc : Bool) (h16 : s.len % 16 = 0) (hmin : minCipherLen cbc ≤ s.len) (k : Ending) :
      checkLen cbc (beginCommand s) k = k :=
    checkLen_passes (by simpa using h16) (by simpa using hmin) k
  refine ⟨?_, ?_, fun h16 hmin => ?_, fun h16 hmin => ?_⟩
  · show execEcbEnc s = _
    exact command_refuses (refuses _)
  · show execCbcEnc s = _
    exact command_refuses (refuses _)
  · show execEcbDec s = _
    exact command_refuses ((passes false h16 hmin _).trans (refuses _))
  · show execCbcDec s = _
    exact command_refuses ((passes true h16 hmin _).trans (refuses _))

/-! ### The fields of `STATUS` that end a command leaves alone -/

@[simp] theorem completeCommand_keyValid (s : State) : (completeCommand s).keyValid = s.keyValid :=
  setDone_keyValid true s

@[simp] theorem completeCommand_ksValid (s : State) : (completeCommand s).ksValid = s.ksValid :=
  setDone_ksValid true s

@[simp] theorem raiseException_keyValid (e : Exc) (s : State) :
    (raiseException e s).keyValid = s.keyValid :=
  setErr_keyValid e.code s

@[simp] theorem raiseException_ksValid (e : Exc) (s : State) :
    (raiseException e s).ksValid = s.ksValid :=
  setErr_ksValid e.code s

/-- `STATUS` bit 4, which reads 0 (R31). -/
def State.bit4 (s : State) : Bool := s.status.getLsbD 4

theorem setBit_bit4 (k : Nat) (v : Bool) (x : Byte) (hk : k < 4) :
    (setBit k v x).getLsbD 4 = x.getLsbD 4 := by
  rw [setBit_getLsbD k v x 4 (by omega), if_neg (by omega)]

@[simp] theorem beginCommand_bit4 (s : State) : (beginCommand s).bit4 = s.bit4 := by
  simp [State.bit4]

@[simp] theorem completeCommand_bit4 (s : State) : (completeCommand s).bit4 = s.bit4 :=
  setBit_bit4 0 true s.status (by decide)

@[simp] theorem raiseException_bit4 (e : Exc) (s : State) : (raiseException e s).bit4 = s.bit4 :=
  withErr_getLsbD e.code s.status 4 (by decide)

@[simp] theorem raised_done (e : Exc) (s : State) : (raised s e).done = false := by
  rw [← raise_begin, raiseException_done, beginCommand_done]

@[simp] theorem raised_padOk (e : Exc) (s : State) : (raised s e).padOk = false := by
  rw [← raise_begin, raiseException_padOk, beginCommand_padOk]

@[simp] theorem raised_err (e : Exc) (s : State) : (raised s e).err = e.code := by
  rw [← raise_begin, raiseException_err]

@[simp] theorem raised_keyValid (e : Exc) (s : State) : (raised s e).keyValid = s.keyValid := by
  rw [← raise_begin, raiseException_keyValid, beginCommand_keyValid]

@[simp] theorem raised_ksValid (e : Exc) (s : State) : (raised s e).ksValid = s.ksValid := by
  rw [← raise_begin, raiseException_ksValid, beginCommand_ksValid]

@[simp] theorem raised_bit4 (e : Exc) (s : State) : (raised s e).bit4 = s.bit4 := by
  rw [← raise_begin, raiseException_bit4, beginCommand_bit4]

@[simp] theorem hostWriteKey_bit4 (k : Key) (s : State) : (hostWriteKey k s).bit4 = s.bit4 :=
  (setBit_bit4 2 false _ (by decide)).trans (setBit_bit4 1 true _ (by decide))

/-! ### What the body of a command may write -/

/-- What some command may write. -/
inductive Target where
  | w | st | buf | prev | save | tmp | res | seq | out | byteCount | ivSource
deriving DecidableEq

/-- `WIDX` and `RND` in the ranges of R33. -/
def SeqInRange (q : Sequencer) : Prop := 8 ≤ q.widx ∧ q.widx ≤ 60 ∧ q.rnd ≤ 14

/-- A run inside a command, from `s` to `u`, that writes no register outside `rs`. It keeps what only HOST
writes and what only the frame of R259 writes; it keeps `W` and `KS_VALID` or leaves both as the key
expansion does (R40(b)). -/
structure Writes (rs : List Target) (s u : State) : Prop where
  key : u.key = s.key
  opa : u.opa = s.opa
  len : u.len = s.len
  inStream : u.inStream = s.inStream
  cmd : u.cmd = s.cmd
  host : u.host = s.host
  keyValid : u.keyValid = s.keyValid
  done : u.done = s.done
  err : u.err = s.err
  bit4 : u.bit4 = s.bit4
  schedule : (u.w = s.w ∧ u.ksValid = s.ksValid) ∨
    (.w ∈ rs ∧ s.keyValid = true ∧ u.w = keyExpansion Config.sbox s.key ∧ u.ksValid = true)
  seqInRange : SeqInRange s.seq → SeqInRange u.seq
  st : .st ∉ rs → u.st = s.st
  buf : .buf ∉ rs → u.buf = s.buf
  prev : .prev ∉ rs → u.prev = s.prev
  save : .save ∉ rs → u.save = s.save
  tmp : .tmp ∉ rs → u.tmp = s.tmp
  res : .res ∉ rs → u.res = s.res
  seq : .seq ∉ rs → u.seq = s.seq
  outStream : .out ∉ rs → u.outStream = s.outStream
  byteCount : .byteCount ∉ rs → u.byteCount = s.byteCount
  ivSource : .ivSource ∉ rs → u.ivReads = s.ivReads ∧ u.ivFixed = s.ivFixed

theorem Writes.refl (rs : List Target) (s : State) : Writes rs s s where
  key := rfl
  opa := rfl
  len := rfl
  inStream := rfl
  cmd := rfl
  host := rfl
  keyValid := rfl
  done := rfl
  err := rfl
  bit4 := rfl
  schedule := .inl ⟨rfl, rfl⟩
  seqInRange := id
  st _ := rfl
  buf _ := rfl
  prev _ := rfl
  save _ := rfl
  tmp _ := rfl
  res _ := rfl
  seq _ := rfl
  outStream _ := rfl
  byteCount _ := rfl
  ivSource _ := ⟨rfl, rfl⟩

theorem Writes.trans {rs : List Target} {s u v : State} (h : Writes rs s u) (h' : Writes rs u v) :
    Writes rs s v where
  key := h'.key.trans h.key
  opa := h'.opa.trans h.opa
  len := h'.len.trans h.len
  inStream := h'.inStream.trans h.inStream
  cmd := h'.cmd.trans h.cmd
  host := h'.host.trans h.host
  keyValid := h'.keyValid.trans h.keyValid
  done := h'.done.trans h.done
  err := h'.err.trans h.err
  bit4 := h'.bit4.trans h.bit4
  schedule := by
    rcases h'.schedule with ⟨hw', hks'⟩ | ⟨hmem, hkey, hw', hks'⟩
    · rw [hw', hks']
      exact h.schedule
    · rw [h.key] at hw'
      exact .inr ⟨hmem, h.keyValid.symm.trans hkey, hw', hks'⟩
  seqInRange := h'.seqInRange ∘ h.seqInRange
  st hr := (h'.st hr).trans (h.st hr)
  buf hr := (h'.buf hr).trans (h.buf hr)
  prev hr := (h'.prev hr).trans (h.prev hr)
  save hr := (h'.save hr).trans (h.save hr)
  tmp hr := (h'.tmp hr).trans (h.tmp hr)
  res hr := (h'.res hr).trans (h.res hr)
  seq hr := (h'.seq hr).trans (h.seq hr)
  outStream hr := (h'.outStream hr).trans (h.outStream hr)
  byteCount hr := (h'.byteCount hr).trans (h.byteCount hr)
  ivSource hr :=
    have h1 := h.ivSource hr
    have h2 := h'.ivSource hr
    ⟨h2.1.trans h1.1, h2.2.trans h1.2⟩

/-! #### The shared operations -/

section Operations

variable {rs : List Target} {s : State}

theorem writes_st (hr : .st ∈ rs) (S : Matrix) : Writes rs s (s.writeSt S) :=
  { Writes.refl rs s with st := absurd hr }

theorem writes_buf (hr : .buf ∈ rs) (B : Block) : Writes rs s (s.writeBuf B) :=
  { Writes.refl rs s with buf := absurd hr }

theorem writes_prev (hr : .prev ∈ rs) (B : Block) : Writes rs s (s.writePrev B) :=
  { Writes.refl rs s with prev := absurd hr }

theorem writes_tmp (hr : .tmp ∈ rs) (t : Word) : Writes rs s (s.writeTmp t) :=
  { Writes.refl rs s with tmp := absurd hr }

theorem writes_res (hr : .res ∈ rs) (a : Byte) : Writes rs s (s.writeRes a) :=
  { Writes.refl rs s with res := absurd hr }

theorem writes_byteCount (hr : .byteCount ∈ rs) (n : Nat) : Writes rs s (s.writeByteCount n) :=
  { Writes.refl rs s with byteCount := absurd hr }

theorem writes_padOk (v : Bool) : Writes rs s (s.setPadOk v) :=
  { Writes.refl rs s with
    keyValid := setPadOk_keyValid v s
    done := setPadOk_done v s
    err := setPadOk_err v s
    bit4 := setBit_bit4 3 v s.status (by decide)
    schedule := .inl ⟨rfl, setPadOk_ksValid v s⟩ }

theorem writes_afterRead (hr : .seq ∈ rs) : Writes rs s (afterRead s) :=
  { Writes.refl rs s with seq := absurd hr }

theorem writes_nextBlockIndex (hr : .seq ∈ rs) : Writes rs s (nextBlockIndex s) :=
  { Writes.refl rs s with seq := absurd hr }

theorem writes_outWrite (hout : .out ∈ rs) (hseq : .seq ∈ rs) (v : List Byte) :
    Writes rs s (outWrite v s) :=
  { Writes.refl rs s with outStream := absurd hout, seq := absurd hseq }

theorem writes_freeWidx (hr : .seq ∈ rs) : Writes rs s (freeWidx s) := by
  obtain ⟨n, hlow, hhigh, e⟩ := freeWidx_eq s
  rw [e]
  exact
    { Writes.refl rs s with
      seq := absurd hr
      seqInRange := fun ⟨_, _, hrnd⟩ => ⟨hlow, hhigh, hrnd⟩ }

theorem writes_freeRnd (hr : .seq ∈ rs) : Writes rs s (freeRnd s) := by
  obtain ⟨n, hn, e⟩ := freeRnd_eq s
  rw [e]
  exact
    { Writes.refl rs s with
      seq := absurd hr
      seqInRange := fun ⟨hlow, hhigh, _⟩ => ⟨hlow, hhigh, hn⟩ }

theorem writes_freeSequencer (hr : .seq ∈ rs) : Writes rs s (freeSequencer s) := by
  obtain ⟨q, hlow, hhigh, hrnd, e⟩ := freeSequencer_eq s
  rw [e]
  exact { Writes.refl rs s with seq := absurd hr, seqInRange := fun _ => ⟨hlow, hhigh, hrnd⟩ }

/-- With a key there, the expansion leaves `W` and `KS_VALID` as R40(b) wants them. -/
theorem writes_expandKey (hw : .w ∈ rs) (htmp : .tmp ∈ rs) (hkey : s.keyValid = true) :
    Writes rs s (expandKey s) :=
  { Writes.refl rs s with
    keyValid := setKsValid_keyValid true _
    done := setKsValid_done true _
    err := setKsValid_err true _
    bit4 := setBit_bit4 2 true s.status (by decide)
    schedule := .inr ⟨hw, hkey, rfl, setKsValid_ksValid true _⟩
    tmp := absurd htmp }

theorem writes_encryptBuf (hst : .st ∈ rs) (hbuf : .buf ∈ rs) (B : Block) :
    Writes rs s (encryptBuf B s) :=
  (writes_st hst _).trans (writes_buf hbuf _)

theorem writes_decryptBuf (hst : .st ∈ rs) (hbuf : .buf ∈ rs) (B : Block) :
    Writes rs s (decryptBuf B s) :=
  (writes_st hst _).trans (writes_buf hbuf _)

end Operations

/-! #### The parts of a file-level command -/

/-- What every file-level command may write (R81, R84, R214). -/
def fileTargets : List Target := [.w, .st, .buf, .tmp, .seq, .out, .byteCount]

section FileParts

variable {rs : List Target} {s : State}

theorem writes_openStreams (hrs : fileTargets ⊆ rs) (hkey : s.keyValid = true) :
    Writes rs s (openStreams s) := by
  have hexpand : Writes rs s (expandKey s) :=
    writes_expandKey (hrs (by decide)) (hrs (by decide)) hkey
  exact hexpand.trans
    { Writes.refl rs (expandKey s) with
      seq := absurd (hrs (by decide))
      outStream := absurd (hrs (by decide)) }

theorem writes_ecbEncryptBlock (hrs : fileTargets ⊆ rs) (B : Block) :
    Writes rs s (ecbEncryptBlock B s) := by
  rw [ecbEncryptBlock_eq]
  exact
    { Writes.refl rs s with
      st := absurd (hrs (by decide))
      buf := absurd (hrs (by decide))
      outStream := absurd (hrs (by decide))
      seq := absurd (hrs (by decide)) }

theorem writes_cbcEncryptBlock (hrs : fileTargets ⊆ rs) (hprev : .prev ∈ rs) (B : Block) :
    Writes rs s (cbcEncryptBlock B s) := by
  rw [cbcEncryptBlock_eq]
  exact
    { Writes.refl rs s with
      st := absurd (hrs (by decide))
      buf := absurd (hrs (by decide))
      prev := absurd hprev
      outStream := absurd (hrs (by decide))
      seq := absurd (hrs (by decide)) }

theorem writes_emitIv (hrs : fileTargets ⊆ rs) (hprev : .prev ∈ rs) (hiv : .ivSource ∈ rs) :
    Writes rs s (emitIv s) := by
  rw [emitIv_eq]
  exact
    { Writes.refl rs s with
      prev := absurd hprev
      ivSource := absurd hiv
      outStream := absurd (hrs (by decide))
      seq := absurd (hrs (by decide)) }

theorem writes_takeIv (hrs : fileTargets ⊆ rs) (hprev : .prev ∈ rs) : Writes rs s (takeIv s) :=
  (writes_afterRead (hrs (by decide))).trans (writes_prev hprev _)

theorem writes_writePlain (hrs : fileTargets ⊆ rs) (last : Bool) (B : Block) :
    Writes rs s (writePlain last B s) := by
  have hout (u : State) (v : List Byte) : Writes rs u (outWrite v u) :=
    writes_outWrite (hrs (by decide)) (hrs (by decide)) v
  cases last with
  | false => exact hout _ _
  | true => exact (writes_padOk _).trans (hout _ _)

theorem writes_ecbDecryptBlock (hrs : fileTargets ⊆ rs) (last : Bool) :
    Writes rs s (ecbDecryptBlock last s) := by
  have hseq : .seq ∈ rs := hrs (by decide)
  rw [ecbDecryptBlock_eq]
  refine .trans (.trans ?_ (writes_writePlain hrs last _)) (writes_nextBlockIndex hseq)
  exact
    { Writes.refl rs s with
      st := absurd (hrs (by decide))
      buf := absurd (hrs (by decide))
      seq := absurd hseq }

theorem writes_cbcDecryptBlock (hrs : fileTargets ⊆ rs) (hprev : .prev ∈ rs) (hsave : .save ∈ rs)
    (last : Bool) : Writes rs s (cbcDecryptBlock last s) := by
  have hseq : .seq ∈ rs := hrs (by decide)
  rw [cbcDecryptBlock_eq]
  refine .trans (.trans (.trans ?_ (writes_writePlain hrs last _)) (writes_prev hprev _))
    (writes_nextBlockIndex hseq)
  exact
    { Writes.refl rs s with
      st := absurd (hrs (by decide))
      buf := absurd (hrs (by decide))
      save := absurd hsave
      seq := absurd hseq }

theorem writes_encryptLoop {body : Block → State → State} (hseq : .seq ∈ rs)
    (hbody : ∀ (B : Block) (u : State), Writes rs u (body B u)) (fuel : Nat) (s : State) :
    Writes rs s (encryptLoop body fuel s) := by
  induction fuel generalizing s with
  | zero => exact .refl rs s
  | succ fuel ih =>
    have hread : Writes rs s (afterRead s) := writes_afterRead hseq
    rw [encryptLoop]
    split
    · exact hread
    · exact hread.trans (hbody _ _)
    · exact (hread.trans (hbody _ _)).trans (ih _)

theorem writes_decryptLoop {body : Bool → State → State}
    (hbody : ∀ (last : Bool) (u : State), Writes rs u (body last u)) (n : Nat) (s : State) :
    Writes rs s (decryptLoop body n s) := by
  induction n generalizing s with
  | zero => exact .refl rs s
  | succ n ih =>
    rw [decryptLoop_succ]
    exact (hbody _ s).trans (ih _)

end FileParts

/-! ### How the body of a command may end -/

/-- A body that starts in `s` and writes within `rs` completes, raises before its first write, or is
refused (R259, R260). -/
inductive EndsWithin (rs : List Target) (s : State) : Ending → Prop where
  | completes {u : State} (h : Writes rs s u) : EndsWithin rs s (.completes u)
  | raises (e : Exc) : EndsWithin rs s (.raises e s)
  | refuses (r : Refusal) : EndsWithin rs s (.refuses r)

section Endings

variable {rs : List Target} {s : State}

theorem EndsWithin.needKey {k : Ending} (h : s.keyValid = true → EndsWithin rs s k) :
    EndsWithin rs s (needKey s k) := by
  rcases needKey_cases s k with ⟨hkey, e⟩ | ⟨_, e⟩ <;> rw [e]
  · exact h hkey
  · exact .raises _

theorem EndsWithin.needSchedule {k : Ending} (h : EndsWithin rs s k) :
    EndsWithin rs s (needSchedule s k) := by
  rcases needSchedule_cases s k with ⟨_, e⟩ | ⟨_, e⟩ <;> rw [e]
  · exact h
  · exact .raises _

theorem EndsWithin.needWritten {α : Type} {r : Reg α} {k : α → Ending}
    (h : ∀ a, EndsWithin rs s (k a)) : EndsWithin rs s (needWritten r s k) := by
  rcases needWritten_cases r s k with ⟨_, e⟩ | ⟨_, e⟩ <;> rw [e]
  · exact h _
  · exact .raises _

theorem EndsWithin.needAtMost {max : Nat} {a : Byte} {k : Fin (max + 1) → Ending}
    (h : ∀ n, EndsWithin rs s (k n)) : EndsWithin rs s (needAtMost max a s k) := by
  rcases needAtMost_cases max a s k with ⟨_, e⟩ | ⟨_, e⟩ <;> rw [e]
  · exact h _
  · exact .raises _

theorem EndsWithin.checkLen {cbc : Bool} {k : Ending} (h : EndsWithin rs s k) :
    EndsWithin rs s (checkLen cbc s k) := by
  rcases checkLen_cases cbc s k with ⟨_, e⟩ | ⟨_, e⟩ <;> rw [e]
  · exact h
  · exact .raises _

/-- Between `Begin` and the end of the file, `main` is all that is left of a file-level command. -/
theorem EndsWithin.file {main : State → State} (hrs : fileTargets ⊆ rs)
    (h : ∀ u, Writes rs u (main u)) :
    EndsWithin rs s (beginFile s fun u => endFile (main u)) := by
  rcases beginFile_cases s fun u => endFile (main u) with ⟨_, e⟩ | ⟨_, _, e⟩ | ⟨hkey, _, e⟩ <;> rw [e]
  · exact .raises _
  · exact .refuses _
  · have hmain := (writes_openStreams hrs hkey).trans (h _)
    exact .completes ((hmain.trans (writes_byteCount (hrs (by decide)) _)).trans
      (writes_freeSequencer (hrs (by decide))))

theorem byteUnit_endsWithin (f : Byte → Byte) : EndsWithin [.res] s (byteUnit f s) :=
  .needWritten fun _ => .completes (writes_res (by decide) _)

theorem matrixUnit_endsWithin (f : Matrix → Matrix) : EndsWithin [.st] s (matrixUnit f s) :=
  .needWritten fun _ => .completes (writes_st (by decide) _)

theorem wordUnit_endsWithin (f : Word → Word) : EndsWithin [.tmp] s (wordUnit f s) :=
  .needWritten fun _ => .completes (writes_tmp (by decide) _)

end Endings

/-! ### The access table of the commands -/

/-- What each command may write (R81, R82, R84). -/
def written : Instr → List Target
  | .ecbEnc | .ecbDec => fileTargets
  | .cbcEnc => .prev :: .ivSource :: fileTargets
  | .cbcDec => .prev :: .save :: fileTargets
  | .blkEnc | .blkDec => [.st, .buf, .seq]
  | .keyExp => [.w, .tmp, .seq]
  | .xtime | .mul02 | .mul03 | .mul09 | .mul0b | .mul0d | .mul0e => [.res]
  | .sboxRd | .invSboxRd | .rconRd | .unpad => [.res]
  | .rdw | .rotWord | .subWord => [.tmp]
  | .loadSt | .subBytes | .shiftRows | .mixColumns | .addRoundKey => [.st]
  | .invSubBytes | .invShiftRows | .invMixColumns => [.st]
  | .unloadSt | .pad | .xorPrev => [.buf]

/-- All that a command which answers `t` can have done after the frame's first line: its body ran to the
end within `rs`, or it raised an exception before it wrote anything (R259). -/
inductive Answers (rs : List Target) (s : State) : State → Prop where
  | completed {u : State} (h : Writes rs (beginCommand s) u) : Answers rs s (completeCommand u)
  | raised (e : Exc) : Answers rs s (raised s e)

theorem command_answers {rs : List Target} {body : State → Ending} {s t : State}
    (hbody : EndsWithin rs (beginCommand s) (body (beginCommand s)))
    (h : command body s = .next t) : Answers rs s t := by
  rcases command_next h with ⟨u, hu, rfl⟩ | ⟨e, u, hu, rfl⟩ <;> rw [hu] at hbody
  · cases hbody with
    | completes hwrites => exact .completed hwrites
  · cases hbody with
    | raises =>
      rw [raise_begin]
      exact .raised e

section PerCommand

variable {s t : State}

theorem execEcbEnc_answers (h : execEcbEnc s = .next t) : Answers fileTargets s t :=
  have hrs : fileTargets ⊆ fileTargets := List.Subset.refl _
  command_answers (.file hrs fun u =>
    writes_encryptLoop (by decide) (fun B _ => writes_ecbEncryptBlock hrs B) _ u) h

theorem execEcbDec_answers (h : execEcbDec s = .next t) : Answers fileTargets s t :=
  have hrs : fileTargets ⊆ fileTargets := List.Subset.refl _
  command_answers (.checkLen (.file hrs fun u =>
    writes_decryptLoop (fun last _ => writes_ecbDecryptBlock hrs last) _ u)) h

theorem execCbcEnc_answers (h : execCbcEnc s = .next t) :
    Answers (.prev :: .ivSource :: fileTargets) s t :=
  have hrs : fileTargets ⊆ .prev :: .ivSource :: fileTargets := by simp
  command_answers (.file hrs fun u => (writes_emitIv hrs (by decide) (by decide)).trans
    (writes_encryptLoop (by decide) (fun B _ => writes_cbcEncryptBlock hrs (by decide) B) _ _)) h

theorem execCbcDec_answers (h : execCbcDec s = .next t) :
    Answers (.prev :: .save :: fileTargets) s t :=
  have hrs : fileTargets ⊆ .prev :: .save :: fileTargets := by simp
  command_answers (.checkLen (.file hrs fun u => (writes_takeIv hrs (by decide)).trans
    (writes_decryptLoop
      (fun last _ => writes_cbcDecryptBlock hrs (by decide) (by decide) last) _ _))) h

theorem execBlkEnc_answers (h : execBlkEnc s = .next t) : Answers [.st, .buf, .seq] s t :=
  command_answers (.needSchedule <| .needWritten fun _ => .completes <|
    (writes_encryptBuf (by decide) (by decide) _).trans (writes_freeRnd (by decide))) h

theorem execBlkDec_answers (h : execBlkDec s = .next t) : Answers [.st, .buf, .seq] s t :=
  command_answers (.needSchedule <| .needWritten fun _ => .completes <|
    (writes_decryptBuf (by decide) (by decide) _).trans (writes_freeRnd (by decide))) h

theorem execKeyExp_answers (h : execKeyExp s = .next t) : Answers [.w, .tmp, .seq] s t :=
  command_answers (.needKey fun hkey => .completes <|
    (writes_expandKey (by decide) (by decide) hkey).trans (writes_freeWidx (by decide))) h

theorem execRconRd_answers (h : execRconRd s = .next t) : Answers [.res] s t :=
  command_answers (.needWritten fun _ => .needAtMost fun _ =>
    .completes (writes_res (by decide) _)) h

theorem execRdw_answers (h : execRdw s = .next t) : Answers [.tmp] s t :=
  command_answers (.needSchedule <| .needWritten fun _ => .needAtMost fun _ =>
    .completes (writes_tmp (by decide) _)) h

theorem execLoadSt_answers (h : execLoadSt s = .next t) : Answers [.st] s t :=
  command_answers (.needWritten fun _ => .completes (writes_st (by decide) _)) h

theorem execUnloadSt_answers (h : execUnloadSt s = .next t) : Answers [.buf] s t :=
  command_answers (.needWritten fun _ => .completes (writes_buf (by decide) _)) h

theorem execAddRoundKey_answers (h : execAddRoundKey s = .next t) : Answers [.st] s t :=
  command_answers (.needSchedule <| .needWritten fun _ => .needWritten fun _ => .needAtMost fun _ =>
    .completes (writes_st (by decide) _)) h

theorem execPad_answers (h : execPad s = .next t) : Answers [.buf] s t :=
  command_answers (.needWritten fun _ => .needWritten fun _ => .needAtMost fun _ =>
    .completes (writes_buf (by decide) _)) h

theorem execUnpad_answers (h : execUnpad s = .next t) : Answers [.res] s t :=
  command_answers (.needWritten fun _ => .completes <|
    (writes_res (by decide) _).trans (writes_padOk _)) h

theorem execXorPrev_answers (h : execXorPrev s = .next t) : Answers [.buf] s t :=
  command_answers (.needWritten fun _ => .needWritten fun _ =>
    .completes (writes_buf (by decide) _)) h

end PerCommand

/-- Every command stays within its row of the access table. -/
theorem exec_answers {i : Instr} {s t : State} (h : exec i s = .next t) :
    Answers (written i) s t := by
  cases i with
  | ecbEnc => exact execEcbEnc_answers h
  | ecbDec => exact execEcbDec_answers h
  | cbcEnc => exact execCbcEnc_answers h
  | cbcDec => exact execCbcDec_answers h
  | blkEnc => exact execBlkEnc_answers h
  | blkDec => exact execBlkDec_answers h
  | keyExp => exact execKeyExp_answers h
  | xtime | mul02 | mul03 | mul09 | mul0b | mul0d | mul0e | sboxRd | invSboxRd =>
    exact command_answers (byteUnit_endsWithin _) h
  | rconRd => exact execRconRd_answers h
  | rdw => exact execRdw_answers h
  | rotWord | subWord => exact command_answers (wordUnit_endsWithin _) h
  | loadSt => exact execLoadSt_answers h
  | unloadSt => exact execUnloadSt_answers h
  | subBytes | shiftRows | mixColumns | invSubBytes | invShiftRows | invMixColumns =>
    exact command_answers (matrixUnit_endsWithin _) h
  | addRoundKey => exact execAddRoundKey_answers h
  | pad => exact execPad_answers h
  | unpad => exact execUnpad_answers h
  | xorPrev => exact execXorPrev_answers h

/-! ### The frame of every command -/

/-- The last line of the frame touches only `STATUS` and `PHASE`, and of `STATUS` neither `KEY_VALID` nor
`KS_VALID`: everything else is as the body left it. -/
theorem Answers.frame {rs : List Target} {s t : State} (h : Answers rs s t) :
    ∃ u, Writes rs (beginCommand s) u ∧ t.keyValid = u.keyValid ∧ t.ksValid = u.ksValid ∧
      ∃ x p, t = { u with status := x, phase := p } := by
  cases h with
  | completed h =>
    exact ⟨_, h, completeCommand_keyValid _, completeCommand_ksValid _, _, _, rfl⟩
  | raised e =>
    rw [← raise_begin]
    exact ⟨_, .refl _ _, raiseException_keyValid e _, raiseException_ksValid e _, _, _, rfl⟩

/-- Settles O12. -/
theorem noCommandWritesWhatOnlyHostWrites : Obligations.NoCommandWritesWhatOnlyHostWrites := by
  intro i s t hexec
  obtain ⟨u, hu, hkeyValid, _, x, p, rfl⟩ := (exec_answers hexec).frame
  have hbegin := beginCommand_keyValid s
  rw [beginCommand_eq] at hu hbegin
  exact ⟨hu.key, hkeyValid.trans (hu.keyValid.trans hbegin), hu.opa, hu.len, hu.inStream, hu.cmd,
    hu.host⟩

/-- The table `written` by columns: which commands may write each register. -/
theorem notMem_written (i : Instr) :
    (i ≠ .cbcDec → .save ∉ written i) ∧
    (i ≠ .cbcEnc → i ≠ .cbcDec → .prev ∉ written i) ∧
    (i ≠ .cbcEnc → .ivSource ∉ written i) ∧
    (fileLevel i = false → .out ∉ written i ∧ .byteCount ∉ written i) ∧
    (fileLevel i = false → i ≠ .keyExp → .w ∉ written i) ∧
    (fileLevel i = false → i ∉ [.keyExp, .rdw, .rotWord, .subWord] → .tmp ∉ written i) ∧
    (fileLevel i = false → i ∉ [.blkEnc, .blkDec, .unloadSt, .pad, .xorPrev] →
      .buf ∉ written i) ∧
    (fileLevel i = false →
      i ∉ [.blkEnc, .blkDec, .loadSt, .subBytes, .shiftRows, .mixColumns, .addRoundKey,
        .invSubBytes, .invShiftRows, .invMixColumns] → .st ∉ written i) ∧
    (i ∉ [.xtime, .mul02, .mul03, .mul09, .mul0b, .mul0d, .mul0e, .sboxRd, .invSboxRd, .rconRd,
      .unpad] → .res ∉ written i) ∧
    (fileLevel i = false → i ∉ [.keyExp, .blkEnc, .blkDec] → .seq ∉ written i) := by
  cases i <;> simp [written, fileTargets, fileLevel]

/-- Settles O13: what the body leaves alone is read off the table, column by column. -/
theorem commandsWriteOnlyTheirRegisters : Obligations.CommandsWriteOnlyTheirRegisters := by
  intro i s t hexec
  obtain ⟨u, hu, _, hksValid, x, p, rfl⟩ := (exec_answers hexec).frame
  have hbegin := beginCommand_ksValid s
  rw [beginCommand_eq] at hu hbegin
  obtain ⟨save, prev, iv, out, w, tmp, buf, st, res, seq⟩ := notMem_written i
  have schedule (hw : .w ∉ written i) : u.w = s.w ∧ u.ksValid = s.ksValid := by
    obtain ⟨hkept, hks⟩ := hu.schedule.resolve_right fun h => hw h.1
    exact ⟨hkept, hks.trans hbegin⟩
  exact
    ⟨fun h => hu.save (save h), fun h h' => hu.prev (prev h h'), fun h => hu.ivSource (iv h),
      fun h => ⟨hu.outStream (out h).1, hu.byteCount (out h).2⟩,
      fun h h' => ⟨(schedule (w h h')).1, hksValid.trans (schedule (w h h')).2⟩,
      fun h h' => hu.tmp (tmp h h'), fun h h' => hu.buf (buf h h'), fun h h' => hu.st (st h h'),
      fun h => hu.res (res h), fun h h' => hu.seq (seq h h')⟩

/-! ### The invariant -/

/-- Settles O14. -/
theorem resetMeetsInvariant : Obligations.ResetMeetsInvariant where
  idle := rfl
  reservedBit := by decide
  errCode := by decide
  doneNoErr := by decide
  padDone := by decide
  raisedCount h := absurd (by decide) h
  schedule h := absurd h (by decide)
  ranges := by decide

/-- The codes of R250 are 1 to 4. -/
theorem code_le_four (e : Exc) : e.code.toNat ≤ 4 := by cases e <;> decide

/-- A raise sets `ERR` beside a cleared `DONE`, `PAD_OK` and `BYTECOUNT`; the schedule is untouched. -/
theorem inv_raised {s : State} (h : Inv s) (e : Exc) : Inv (raised s e) where
  idle := rfl
  reservedBit := (raised_bit4 e s).trans h.reservedBit
  errCode := by simpa using code_le_four e
  doneNoErr hdone := by simp at hdone
  padDone hpad := by simp at hpad
  raisedCount _ := rfl
  schedule hks := by
    rw [raised_ksValid] at hks
    rw [raised_keyValid]
    exact h.schedule hks
  ranges := h.ranges

/-- A completed command sets `DONE` beside an `ERR` the frame cleared; its body kept the schedule or
made it afresh. -/
theorem inv_complete {rs : List Target} {s u : State} (h : Inv s)
    (hu : Writes rs (beginCommand s) u) : Inv (completeCommand u) := by
  have herr : (completeCommand u).err = 0 := by
    rw [completeCommand_err, hu.err, beginCommand_err]
  have hkeyValid : u.keyValid = s.keyValid := by rw [hu.keyValid, beginCommand_keyValid]
  have hkey : u.key = s.key := by rw [hu.key, beginCommand_key]
  have hbit4 : (completeCommand u).bit4 = s.bit4 := by
    rw [completeCommand_bit4, hu.bit4, beginCommand_bit4]
  have hschedule (hks : u.ksValid = true) :
      u.keyValid = true ∧ u.w = keyExpansion Config.sbox u.key := by
    rw [hkeyValid, hkey]
    rcases hu.schedule with ⟨hw, hkept⟩ | ⟨_, hvalid, hw, _⟩
    · rw [beginCommand_w] at hw
      rw [beginCommand_ksValid] at hkept
      rw [hw]
      exact h.schedule (hkept.symm.trans hks)
    · rw [beginCommand_keyValid] at hvalid
      rw [beginCommand_key] at hw
      exact ⟨hvalid, hw⟩
  have hseq : SeqInRange (beginCommand s).seq := by
    rw [beginCommand_seq]
    exact h.ranges
  exact
    { idle := rfl
      reservedBit := hbit4.trans h.reservedBit
      errCode := by rw [herr]; decide
      doneNoErr := fun _ => herr
      padDone := fun _ => completeCommand_done u
      raisedCount := fun hne => absurd herr hne
      schedule := fun hks => by
        rw [completeCommand_ksValid] at hks
        rw [completeCommand_keyValid]
        exact hschedule hks
      ranges := hu.seqInRange hseq }

theorem inv_answers {rs : List Target} {s t : State} (h : Inv s) (ht : Answers rs s t) : Inv t := by
  cases ht with
  | completed hu => exact inv_complete h hu
  | raised e => exact inv_raised h e

/-- An access other than a write of `KEY` and a reset touches nothing the invariant speaks of. -/
theorem inv_hostAccess {s : State} (h : Inv s) (a : HostAccess) : Inv (hostAccess a s) := by
  cases a with
  | writeKey k =>
    exact
      { idle := h.idle
        reservedBit := (hostWriteKey_bit4 k s).trans h.reservedBit
        errCode := by simpa [hostAccess] using h.errCode
        doneNoErr := by simpa [hostAccess] using h.doneNoErr
        padDone := by simpa [hostAccess] using h.padDone
        raisedCount := by simpa [hostAccess] using h.raisedCount
        schedule := by simp [hostAccess]
        ranges := h.ranges }
  | reset => exact { resetMeetsInvariant with }
  | writeBuf | writePrev | writeTmp | writeOpa | writeLen | supplyIn | provideOut | fixIv | writeCmd
  | read => exact { h with }

theorem inv_writeCommand {s t : State} (h : Inv s) {c : Byte} (ht : writeCommand c s = .next t) :
    Inv t := by
  have hlatched : Inv (latchCommand c s) := inv_hostAccess h (.writeCmd c)
  cases hdecode : decode c with
  | command i =>
    rw [writeCommand_command hdecode] at ht
    exact inv_answers hlatched (exec_answers ht)
  | reserved why =>
    rw [writeCommand_reserved hdecode] at ht
    cases ht
    exact inv_raised hlatched .eReserved

/-- Settles O15: the next access is none, a write of `CMD`, or another access, and each keeps the
invariant. -/
theorem stepKeepsInvariant : Obligations.StepKeepsInvariant := by
  intro s t h hstep
  cases hhost : s.host with
  | nil =>
    rw [step_idle hhost] at hstep
    cases hstep
    exact h
  | cons a rest =>
    have hrest : Inv { s with host := rest } := { h with }
    by_cases ha : ∃ c, a = .writeCmd c
    · obtain ⟨c, rfl⟩ := ha
      rw [step_writeCmd hhost] at hstep
      exact inv_writeCommand hrest hstep
    · rw [step_hostAccess hhost fun c hc => ha ⟨c, hc⟩] at hstep
      cases hstep
      exact inv_hostAccess hrest a

end Sys2Proof.Machine

/-! The family `30_encoding.md`: decoding and encoding the command word (R80 to R83). The fields of
a word are arithmetic on its value, so the decoder has four ranges of words (`decode_ranges`), and in the two
that hold commands the tables of R81 and R82 are read row by row. -/

namespace Sys2Proof

/-! ### The fields of a command word, as numbers -/

theorem cmdUnit_iff (c : Byte) : cmdUnit c = true ↔ 128 ≤ c.toNat := by
  have hbit : cmdUnit c = decide (128 ≤ c.toNat) := BitVec.msb_eq_decide c
  simp [hbit]

theorem cmdSelect_toNat (c : Byte) : (cmdSelect c).toNat = c.toNat % 8 := by
  simp [cmdSelect]

theorem cmdUop_toNat (c : Byte) : (cmdUop c).toNat = c.toNat % 32 := by
  simp [cmdUop]

theorem cmdZeroC_eq_zero_iff (c : Byte) : cmdZeroC c = 0 ↔ c.toNat / 8 % 16 = 0 := by
  rw [← BitVec.toNat_inj]
  simp [cmdZeroC, Nat.shiftRight_eq_div_pow]

theorem cmdZeroU_eq_zero_iff (c : Byte) : cmdZeroU c = 0 ↔ c.toNat / 32 % 4 = 0 := by
  rw [← BitVec.toNat_inj]
  simp [cmdZeroU, Nat.shiftRight_eq_div_pow]

/-! ### What the decoder answers in each range of words -/

/-- Below 8 the word is its own `BLKSEL MODE DIR` (R81). -/
theorem decode_formatC {c : Byte} (h : c.toNat < 8) : decode c = decodeSelect c.toNat := by
  have hunit : ¬ cmdUnit c = true := by rw [cmdUnit_iff]; omega
  have hzero : cmdZeroC c = 0 := by rw [cmdZeroC_eq_zero_iff]; omega
  rw [decode, if_neg hunit, if_pos hzero, cmdSelect_toNat, Nat.mod_eq_of_lt h]

/-- R83(a). -/
theorem decode_zeroBitsFormatC {c : Byte} (hlo : 8 ≤ c.toNat) (hhi : c.toNat < 128) :
    decode c = .reserved .zeroBitsFormatC := by
  have hunit : ¬ cmdUnit c = true := by rw [cmdUnit_iff]; omega
  have hzero : cmdZeroC c ≠ 0 := by rw [ne_eq, cmdZeroC_eq_zero_iff]; omega
  rw [decode, if_neg hunit, if_neg hzero]

/-- From 128 up to 159 the word is 128 more than its `UOP` (R82). -/
theorem decode_formatU {c : Byte} (hlo : 128 ≤ c.toNat) (hhi : c.toNat < 160) :
    decode c = decodeUop (c.toNat - 128) := by
  have hunit : cmdUnit c = true := (cmdUnit_iff c).2 hlo
  have hzero : cmdZeroU c = 0 := by rw [cmdZeroU_eq_zero_iff]; omega
  have huop : (cmdUop c).toNat = c.toNat - 128 := by rw [cmdUop_toNat]; omega
  rw [decode, if_pos hunit, if_pos hzero, huop]

/-- R83(c). -/
theorem decode_zeroBitsFormatU {c : Byte} (h : 160 ≤ c.toNat) :
    decode c = .reserved .zeroBitsFormatU := by
  have hunit : cmdUnit c = true := by rw [cmdUnit_iff]; omega
  have hzero : cmdZeroU c ≠ 0 := by rw [ne_eq, cmdZeroU_eq_zero_iff]; omega
  rw [decode, if_pos hunit, if_neg hzero]

/-- The four ranges of words, and what the decoder answers in each. -/
theorem decode_ranges (c : Byte) :
    (c.toNat < 8 ∧ decode c = decodeSelect c.toNat) ∨
    ((8 ≤ c.toNat ∧ c.toNat < 128) ∧ decode c = .reserved .zeroBitsFormatC) ∨
    ((128 ≤ c.toNat ∧ c.toNat < 160) ∧ decode c = decodeUop (c.toNat - 128)) ∨
    (160 ≤ c.toNat ∧ decode c = .reserved .zeroBitsFormatU) := by
  rcases lt_or_ge c.toNat 8 with h8 | h8
  · exact .inl ⟨h8, decode_formatC h8⟩
  rcases lt_or_ge c.toNat 128 with h128 | h128
  · exact .inr (.inl ⟨⟨h8, h128⟩, decode_zeroBitsFormatC h8 h128⟩)
  rcases lt_or_ge c.toNat 160 with h160 | h160
  · exact .inr (.inr (.inl ⟨⟨h128, h160⟩, decode_formatU h128 h160⟩))
  · exact .inr (.inr (.inr ⟨h160, decode_zeroBitsFormatU h160⟩))

/-! ### The rows of the two tables -/

/-- Every row of R81 has the word of its command. -/
theorem encode_of_decodeSelect {n : Nat} {i : Instr} (h : decodeSelect n = .command i) :
    encode i = BitVec.ofNat 8 n := by
  unfold decodeSelect at h
  split at h <;> cases h <;> rfl

/-- Every row of R82 has the word of its command. -/
theorem encode_of_decodeUop {n : Nat} {i : Instr} (h : decodeUop n = .command i) :
    encode i = formatU n := by
  unfold decodeUop at h
  split at h <;> cases h <;> rfl

/-- R83(b): the only `BLKSEL MODE DIR` with no command is 7. -/
theorem decodeSelect_no_command_iff (n : Nat) :
    (∀ i, decodeSelect n ≠ .command i) ↔ 7 ≤ n := by
  unfold decodeSelect
  split
  case h_8 =>
    simp only [imp_false] at *
    exact iff_of_true nofun (by omega)
  all_goals simp

/-- R83(d): the values of `UOP` with no command. -/
theorem decodeUop_no_command_iff (n : Nat) :
    (∀ i, decodeUop n ≠ .command i) ↔ n = 7 ∨ n = 14 ∨ n = 15 ∨ n = 25 ∨ 29 ≤ n := by
  unfold decodeUop
  split
  case h_26 =>
    simp only [imp_false] at *
    exact iff_of_true nofun (by omega)
  all_goals simp

/-! ### Decoder and encoder together -/

/-- The decoder reads back the word of every command. -/
@[simp] theorem decode_encode (i : Instr) : decode (encode i) = .command i := by
  cases i <;> rfl

/-- A word that decodes to a command is that command's word: the two reserved ranges hold none, and the
other two are tables. -/
theorem encode_of_decode {c : Byte} {i : Instr} (h : decode c = .command i) : encode i = c := by
  rcases decode_ranges c with ⟨-, hc⟩ | ⟨-, hc⟩ | ⟨⟨hlo, -⟩, hc⟩ | ⟨-, hc⟩ <;> rw [hc] at h
  · rw [encode_of_decodeSelect h, BitVec.ofNat_toNat, BitVec.setWidth_eq]
  · cases h
  · rw [encode_of_decodeUop h, formatU, Nat.add_sub_cancel' hlo, BitVec.ofNat_toNat,
      BitVec.setWidth_eq]
  · cases h

/-- Settles O1. -/
theorem decodeIsInverseOfEncode : Obligations.DecodeIsInverseOfEncode := by
  intro c i
  refine ⟨encode_of_decode, fun h => ?_⟩
  rw [← h, decode_encode]

/-- Settles O2, range by range: clauses (a) and (c) of R83 are the two reserved ranges, (b) and (d) the
gaps of the two tables. -/
theorem reservedWordsAreTheListedOnes : Obligations.ReservedWordsAreTheListedOnes := by
  intro c
  rcases decode_ranges c with ⟨hlt, hc⟩ | ⟨⟨hlo, hhi⟩, hc⟩ | ⟨⟨hlo, hhi⟩, hc⟩ | ⟨hlo, hc⟩ <;> rw [hc]
  · rw [decodeSelect_no_command_iff]; omega
  · exact iff_of_true nofun (by omega)
  · rw [decodeUop_no_command_iff]; omega
  · exact iff_of_true nofun (by omega)

/-- Settles O3: the seven words of commands are those the encoder writes (O1), and 0x07 is the gap of
R81. -/
theorem sampleWordsDecode : Obligations.SampleWordsDecode :=
  ⟨decode_encode .ecbEnc, decode_encode .cbcDec, decode_encode .keyExp, decode_encode .mul0e,
    decode_encode .rdw, decode_encode .addRoundKey, decode_encode .pad,
    decode_formatC (c := 0x07) (by decide)⟩

end Sys2Proof

/-! The family `40_field_arithmetic.md`: `XTIME` and the six constant multipliers (R111 to R120). Each
multiplier is an XOR of powers of `xtime`, so it is linear over XOR because `xtime` is, and a function
linear over XOR is a bijection on bytes as soon as it sends only 0 to 0. -/

namespace Sys2Proof.Machine

open Sys2Proof.Safety

/-! ### A byte-level command, by the written flag of `OPA` -/

/-- What a command that is `byteUnit f` answers when `OPA` has been written and when it has not (R28,
R254). -/
theorem exec_of_byteUnit {i : Instr} {f : Byte → Byte}
    (hi : ∀ s, exec i s = command (byteUnit f) s) (s : State) :
    (s.opa.written = true →
      exec i s = .next { completed s false with res := Reg.holding (f s.opa.value) }) ∧
    (s.opa.written = false → exec i s = .next (raised s .eUninit)) := by
  rw [hi, byteUnit_spec]
  exact ⟨fun h => by rw [if_pos h], fun h => by rw [if_neg (by simp [h])]⟩

/-! ### The general product by the six constants (R119)

The bits of the constant say which powers of `xtime` the product XORs to 0, lowest first; the multiplier
XORs the same powers, highest first. -/

theorem gfmul_02 : gfmul 0x02 = mul02 := by
  funext a
  calc gfmul 0x02 a = 0 ^^^ x2 a := rfl
    _ = mul02 a := by rw [mul02, BitVec.ofNat_eq_ofNat, BitVec.zero_xor]

theorem gfmul_03 : gfmul 0x03 = mul03 := by
  funext a
  calc gfmul 0x03 a = 0 ^^^ a ^^^ x2 a := rfl
    _ = mul03 a := by rw [mul03, BitVec.ofNat_eq_ofNat, BitVec.zero_xor]; ac_rfl

theorem gfmul_09 : gfmul 0x09 = mul09 := by
  funext a
  calc gfmul 0x09 a = 0 ^^^ a ^^^ x8 a := rfl
    _ = mul09 a := by rw [mul09, BitVec.ofNat_eq_ofNat, BitVec.zero_xor]; ac_rfl

theorem gfmul_0b : gfmul 0x0B = mul0b := by
  funext a
  calc gfmul 0x0B a = 0 ^^^ a ^^^ x2 a ^^^ x8 a := rfl
    _ = mul0b a := by rw [mul0b, BitVec.ofNat_eq_ofNat, BitVec.zero_xor]; ac_rfl

theorem gfmul_0d : gfmul 0x0D = mul0d := by
  funext a
  calc gfmul 0x0D a = 0 ^^^ a ^^^ x4 a ^^^ x8 a := rfl
    _ = mul0d a := by rw [mul0d, BitVec.ofNat_eq_ofNat, BitVec.zero_xor]; ac_rfl

theorem gfmul_0e : gfmul 0x0E = mul0e := by
  funext a
  calc gfmul 0x0E a = 0 ^^^ x2 a ^^^ x4 a ^^^ x8 a := rfl
    _ = mul0e a := by rw [mul0e, BitVec.ofNat_eq_ofNat, BitVec.zero_xor]; ac_rfl

/-- Settles O23: the command of each constant computes its multiplier, which is the general product. -/
theorem multipliersGiveTheGeneralProduct : Obligations.MultipliersGiveTheGeneralProduct := by
  intro i c hic
  have hexec : ∀ s, exec i s = command (byteUnit (gfmul c)) s := by
    simp only [List.mem_cons, Prod.mk.injEq, List.not_mem_nil, or_false] at hic
    rcases hic with ⟨rfl, rfl⟩ | ⟨rfl, rfl⟩ | ⟨rfl, rfl⟩ | ⟨rfl, rfl⟩ | ⟨rfl, rfl⟩ | ⟨rfl, rfl⟩
    · rw [gfmul_02]; exact fun _ => rfl
    · rw [gfmul_03]; exact fun _ => rfl
    · rw [gfmul_09]; exact fun _ => rfl
    · rw [gfmul_0b]; exact fun _ => rfl
    · rw [gfmul_0d]; exact fun _ => rfl
    · rw [gfmul_0e]; exact fun _ => rfl
  exact exec_of_byteUnit hexec

/-! ### Linearity over XOR (R120(d)) -/

/-- `f` is linear over XOR. -/
def XorLinear (f : Byte → Byte) : Prop := ∀ a b : Byte, f (a ^^^ b) = f a ^^^ f b

theorem xorLinear_id : XorLinear fun a => a := fun _ _ => rfl

theorem XorLinear.comp {f g : Byte → Byte} (hf : XorLinear f) (hg : XorLinear g) :
    XorLinear fun a => f (g a) := by
  intro a b
  dsimp only
  rw [hg, hf]

theorem XorLinear.xor {f g : Byte → Byte} (hf : XorLinear f) (hg : XorLinear g) :
    XorLinear fun a => f a ^^^ g a := by
  intro a b
  dsimp only
  rw [hf, hg]
  ac_rfl

theorem XorLinear.map_zero {f : Byte → Byte} (hf : XorLinear f) : f 0 = 0 := by
  simpa using hf 0 0

/-- Two bytes with one image differ by a byte sent to 0, so a trivial kernel makes `f` injective; bytes
are finitely many. -/
theorem XorLinear.bijective {f : Byte → Byte} (hf : XorLinear f) (hker : ∀ a, f a = 0 → a = 0) :
    Function.Bijective f := by
  refine Finite.injective_iff_bijective.1 fun a b hab => BitVec.xor_eq_zero_iff.1 (hker _ ?_)
  rw [hf, hab]
  exact BitVec.xor_self

/-- `xtime` with the two cases in the reduction alone (R111). -/
theorem xtime_eq (a : Byte) : xtime a = a <<< 1 ^^^ if a.getLsbD 7 then 0x1B else 0 := by
  unfold xtime Config.reduction
  split <;> simp

/-- The shift is linear, and so is the reduction: when both bits shifted out are 1 the two cancel, as
those bits do. -/
theorem xorLinear_xtime : XorLinear xtime := by
  intro a b
  have hreduce : ∀ p q : Bool, (if (p ^^ q) = true then (0x1B : Byte) else 0) =
      (if p then 0x1B else 0) ^^^ (if q then 0x1B else 0) := by decide
  rw [xtime_eq, xtime_eq, xtime_eq, BitVec.getLsbD_xor, BitVec.shiftLeft_xor_distrib, hreduce]
  ac_rfl

theorem xorLinear_x4 : XorLinear x4 := xorLinear_xtime.comp xorLinear_xtime

theorem xorLinear_x8 : XorLinear x8 := xorLinear_xtime.comp xorLinear_x4

theorem xorLinear_multipliers :
    ∀ f ∈ [xtime, mul02, mul03, mul09, mul0b, mul0d, mul0e], XorLinear f := by
  have h1 := xorLinear_id
  have h2 : XorLinear x2 := xorLinear_xtime
  have h4 := xorLinear_x4
  have h8 := xorLinear_x8
  simp only [List.forall_mem_cons]
  exact ⟨h2, h2, h2.xor h1, h8.xor h1, (h8.xor h2).xor h1, (h8.xor h4).xor h1, (h8.xor h4).xor h2,
    nofun⟩

/-! ### Bijections on bytes (R120(e)) -/

/-- Only 0 goes to 0, by evaluating the 256 bytes as R120 says. -/
theorem eq_zero_of_multiplier_eq_zero :
    ∀ f ∈ [xtime, mul02, mul03, mul09, mul0b, mul0d, mul0e], ∀ a : Byte, f a = 0 → a = 0 := by
  simp only [List.forall_mem_cons]
  exact ⟨by decide, by decide, by decide, by decide, by decide, by decide, by decide, nofun⟩

/-- Settles O24. -/
theorem multipliersAreLinearBijections : Obligations.MultipliersAreLinearBijections := by
  intro f hf
  have hlinear := xorLinear_multipliers f hf
  exact ⟨hlinear.map_zero, hlinear, hlinear.bijective (eq_zero_of_multiplier_eq_zero f hf)⟩

/-- Settles O22: `XTIME` computes `xtime`, whose definition is the shift and the reduction; `xtime` is
linear and sends only 0 to 0. -/
theorem xtimeShiftsAndReduces : Obligations.XtimeShiftsAndReduces :=
  ⟨rfl, xorLinear_xtime.bijective (eq_zero_of_multiplier_eq_zero xtime (by simp)),
    exec_of_byteUnit (f := xtime) fun _ => rfl⟩

end Sys2Proof.Machine

/-! The family `41_substitution_tables.md`: the two tables and the commands that read them (R130 to R132).
The inverse table is the inverse of the permutation `SBOX`, so each table undoes the other, and from that
both are bijections. -/

namespace Sys2Proof.Machine

open Sys2Proof.Safety

/-! ### The two tables undo one another (R132) -/

/-- R132(a). -/
@[simp] theorem invSboxRead_sboxRead (T : SBox) (x : Byte) : invSboxRead T (sboxRead T x) = x :=
  T.symm_apply_apply x

/-- R132(b). -/
@[simp] theorem sboxRead_invSboxRead (T : SBox) (y : Byte) : sboxRead T (invSboxRead T y) = y :=
  T.apply_symm_apply y

theorem sboxRead_bijective (T : SBox) : Function.Bijective (sboxRead T) :=
  Function.bijective_iff_has_inverse.2
    ⟨invSboxRead T, invSboxRead_sboxRead T, sboxRead_invSboxRead T⟩

theorem invSboxRead_bijective (T : SBox) : Function.Bijective (invSboxRead T) :=
  Function.bijective_iff_has_inverse.2
    ⟨sboxRead T, sboxRead_invSboxRead T, invSboxRead_sboxRead T⟩

/-- Settles O26: each table is a two-sided inverse of the other, so both are bijections. -/
theorem tablesUndoOneAnother : Obligations.TablesUndoOneAnother := fun T =>
  ⟨sboxRead_bijective T, invSboxRead_bijective T, invSboxRead_sboxRead T, sboxRead_invSboxRead T⟩

/-! ### The commands that read them (R130, R131) -/

theorem exec_sboxRd (s : State) : exec .sboxRd s = command (byteUnit (sboxRead Config.sbox)) s := rfl

theorem exec_invSboxRd (s : State) :
    exec .invSboxRd s = command (byteUnit (invSboxRead Config.sbox)) s := rfl

/-- Settles O25: both commands are byte-level, with a table for their function, so `OPA` written or not
decides between the lookup and `E_UNINIT`. -/
theorem tableCommandsReadTheirTable : Obligations.TableCommandsReadTheirTable := by
  refine ⟨rfl, rfl, fun s => ?_⟩
  obtain ⟨hsbox, hsboxUninit⟩ := exec_of_byteUnit exec_sboxRd s
  obtain ⟨hinv, hinvUninit⟩ := exec_of_byteUnit exec_invSboxRd s
  exact ⟨hsbox, hinv, fun hopa => ⟨hsboxUninit hopa, hinvUninit hopa⟩⟩

end Sys2Proof.Machine

/-! The family `42_key_schedule.md`: the round constants, the word operations, the key expansion and the
commands that run them (R140 to R150). The loop of the expansion settles each word once
(`keyExpansion_settled`), so the finished schedule obeys the recurrence that the loop runs; a command is its
checks, each of which passes or raises, and then one register write. -/

namespace Sys2Proof.Machine

open Sys2Proof.Safety

section Checks

variable {s : State}

/-! ### The checks before a command's first write, passed or failed -/

theorem needKey_passes (h : s.keyValid = true) (k : Ending) : needKey s k = k := if_pos h

theorem needKey_raises (h : s.keyValid = false) (k : Ending) : needKey s k = .raises .eNoKey s :=
  if_neg (by simp [h])

theorem needSchedule_passes (h : s.ksValid = true) (k : Ending) : needSchedule s k = k := if_pos h

theorem needWritten_passes {α : Type} {r : Reg α} (h : r.written = true) (k : α → Ending) :
    needWritten r s k = k r.value :=
  if_pos h

theorem needWritten_raises {α : Type} {r : Reg α} (h : r.written = false) (k : α → Ending) :
    needWritten r s k = .raises .eUninit s :=
  if_neg (by simp [h])

theorem needAtMost_passes {max : Nat} {a : Byte} (h : a.toNat ≤ max) (k : Fin (max + 1) → Ending) :
    needAtMost max a s k = k ⟨a.toNat, Nat.lt_succ_of_le h⟩ :=
  dif_pos h

theorem needAtMost_raises {max : Nat} {a : Byte} (h : max < a.toNat) (k : Fin (max + 1) → Ending) :
    needAtMost max a s k = .raises .eReserved s :=
  dif_neg (by omega)

/-! ### A command that ends with one register write -/

theorem command_writeRes {body : State → Ending} {v : Byte}
    (h : body (beginCommand s) = .completes ((beginCommand s).writeRes v)) :
    command body s = .next { completed s false with res := Reg.holding v } := by
  rw [command_completes h, complete_plain s _ (by simp)]
  simp [completed, beginCommand_eq, State.writeRes]

theorem command_writeTmp {body : State → Ending} {v : Word}
    (h : body (beginCommand s) = .completes ((beginCommand s).writeTmp v)) :
    command body s = .next { completed s false with tmp := Reg.holding v } := by
  rw [command_completes h, complete_plain s _ (by simp)]
  simp [completed, beginCommand_eq, State.writeTmp]

end Checks

/-- What a command that is `wordUnit f` answers when `TMP` has been written and when it has not (R27,
R254). -/
theorem exec_of_wordUnit {i : Instr} {f : Word → Word}
    (hi : ∀ s, exec i s = command (wordUnit f) s) (s : State) :
    (s.tmp.written = true →
      exec i s = .next { completed s false with tmp := Reg.holding (f s.tmp.value) }) ∧
    (s.tmp.written = false → exec i s = .next (raised s .eUninit)) := by
  rw [hi, wordUnit_spec]
  exact ⟨fun h => by rw [if_pos h], fun h => by rw [if_neg (by simp [h])]⟩

/-! ### The round constants (R140, R141) -/

theorem rcon_succ : ∀ j : Fin 10, 1 ≤ j.val → rcon[j.val + 1] = xtime rcon[j.val] := by decide

/-- Settles O27: the doubling law is read off the eleven entries. -/
theorem roundConstantsAreDoublings : Obligations.RoundConstantsAreDoublings :=
  ⟨rfl, rfl, fun j h => rcon_succ ⟨j, by omega⟩, rfl⟩

/-- Settles O28: `OPA` is checked for being written, then for its range, then `RES` is written. -/
theorem rconrdReadsOneRoundConstant : Obligations.RconrdReadsOneRoundConstant := by
  refine ⟨rfl, fun s => ⟨fun hle hopa => ?_, fun hopa => ?_, fun hopa hgt => ?_⟩⟩
  · show execRconRd s = _
    exact command_writeRes (by simp [needWritten_passes hopa, needAtMost_passes hle])
  · show execRconRd s = _
    exact command_raises (by simp [needWritten_raises hopa])
  · show execRconRd s = _
    exact command_raises (by simp [needWritten_passes hopa, needAtMost_raises hgt])

/-! ### The word operations (R142, R143) -/

/-- Settles O29: `rotWord` is the rotation by its definition, and `ROTWORD` applies it to `TMP`. -/
theorem rotwordRotatesTmp : Obligations.RotwordRotatesTmp :=
  ⟨rfl, exec_of_wordUnit (f := rotWord) fun _ => rfl⟩

theorem subWord_eq (T : SBox) (t : Word) : subWord T t = #v[T t[0], T t[1], T t[2], T t[3]] := rfl

/-- Settles O30: `SUBWORD` applies `subWord` with the forward table to `TMP`. -/
theorem subwordSubstitutesTmp : Obligations.SubwordSubstitutesTmp := by
  refine ⟨rfl, fun s => ?_⟩
  rw [← subWord_eq]
  exact exec_of_wordUnit (f := subWord Config.sbox) (fun _ => rfl) s

/-! ### The words of the schedule (R145) -/

theorem keyWords_byte (K : Key) (i k : Nat) (hi : i < 8) (hk : k < 4) :
    ((keyWords K)[i])[k] = K[4 * i + k] := by
  simp [keyWords, hi]

theorem keyExpansion_keyWord (T : SBox) (K : Key) (i : Nat) (hi : i < 8) :
    (keyExpansion T K)[i] = (keyWords K)[i] :=
  keyExpansion_settled T K 0 (by omega) i hi (by omega)

/-- The recurrence on the finished schedule: when word `n + 8` is made, both words it reads are settled. -/
theorem keyExpansion_next (T : SBox) (K : Key) (n : Nat) (h : n < 52) :
    (keyExpansion T K)[n + 8] = nextWord T (keyExpansion T K) n h := by
  have hnew := keyExpansion_settled T K (n + 1) h (n + 8) (by omega) (by omega)
  have hback := keyExpansion_settled T K n (by omega) n (by omega) (by omega)
  have hprevious := keyExpansion_settled T K n (by omega) (n + 7) (by omega) (by omega)
  rw [hnew, expandTo_new, nextWord, nextWord, hback, hprevious]

theorem xorFirst_subWord_rotWord (T : SBox) (rc : Byte) (t : Word) :
    xorFirst rc (subWord T (rotWord t)) = #v[T t[1] ^^^ rc, T t[2], T t[3], T t[0]] := rfl

/-- The model's composition of `RotWord`, `SubWord` and the round constant is R145's byte by byte. -/
theorem transformPrevious_eq (T : SBox) (n : Nat) (h : n < 52) (t : Word) :
    transformPrevious T n h t = transformedWord T (n + 8) (by omega) t := by
  rw [transformPrevious, xorFirst_subWord_rotWord, subWord_eq]
  simp only [transformedWord, Nat.add_comm 8 n]

/-- Settles O31: the key words are settled before the loop starts, and word `n + 8` is the one turn `n`
adds. -/
theorem keyExpansionFollowsItsRecurrence : Obligations.KeyExpansionFollowsItsRecurrence := by
  refine fun T K => ⟨fun i k hi hk => ?_, fun i hi h8 k hk => ?_⟩
  · rw [keyExpansion_keyWord T K i hi, keyWords_byte K i k hi hk]
  · obtain ⟨n, rfl⟩ : ∃ n, i = n + 8 := ⟨i - 8, by omega⟩
    rw [keyExpansion_next T K n (by omega), nextWord, xorWord_byte _ _ k hk, transformPrevious_eq]
    rfl

/-! ### `KEYEXP` and `RDW` (R149, R150) -/

/-- Clearing `PAD_OK` after the frame's first line and the expansion changes nothing. -/
theorem expandedClearedPad_eq (x : Byte) :
    setBit 3 false (setBit 2 true (x &&& 0x16#8)) = setBit 2 true (x &&& 0x16#8) := by
  revert x; decide

/-- Settles O32: with a key the body is the expansion and then an open `WIDX`. -/
theorem keyexpWritesTheSchedule : Obligations.KeyexpWritesTheSchedule := by
  refine ⟨rfl, fun s => ⟨fun hkey => ?_, fun hkey => ?_⟩⟩
  · obtain ⟨n, h8, h60, hfree⟩ := freeWidx_eq (expandKey (beginCommand s))
    have hstatus : (freeWidx (expandKey (beginCommand s))).status =
        setBit 3 false (setBit 2 true (s.status &&& 0x16#8)) := by
      simp [expandKey_eq, expandedClearedPad_eq]
    have hexec : execKeyExp s = .next (completeCommand (freeWidx (expandKey (beginCommand s)))) :=
      command_completes (needKey_passes (by simpa using hkey) _)
    refine ⟨n, h8, h60, ?_⟩
    show execKeyExp s = _
    rw [hexec, complete_expanded s _ false hstatus, hfree, expandKey_eq, beginCommand_eq]
    rfl
  · show execKeyExp s = _
    exact command_raises (needKey_raises (by simpa using hkey) _)

/-- Settles O33: the schedule is checked first, then `OPA` for being written, then its range; then `TMP` is
written. -/
theorem rdwReadsOneScheduleWord : Obligations.RdwReadsOneScheduleWord := by
  refine ⟨rfl, fun s => ?_⟩
  have passes (h : s.ksValid = true) (k : Ending) : needSchedule (beginCommand s) k = k :=
    needSchedule_passes (by simpa using h) k
  refine ⟨fun hle hks hopa => ?_, fun hks => ?_, fun hks hopa => ?_, fun hks hopa hgt => ?_⟩
  · show execRdw s = _
    exact command_writeTmp (by simp [passes hks, needWritten_passes hopa, needAtMost_passes hle])
  · exact exec_scheduleReader_raises (by simp) hks
  · show execRdw s = _
    exact command_raises (by simp [passes hks, needWritten_raises hopa])
  · show execRdw s = _
    exact command_raises (by simp [passes hks, needWritten_passes hopa, needAtMost_raises hgt])

end Sys2Proof.Machine

/-! The family `43_block_transform.md`: the round operations, the two ciphers and their commands (R160 to
R172). Each round operation is settled cell by cell; the column mixes are circulant products, and two
circulants undo one another when four sums of coefficient products do. A round of the forward cipher and one
of the second formulation of the inverse cipher (R170) undo one another, so folding the one over the rounds
upwards and the other downwards gives back the State. -/

namespace Sys2Proof.Machine

open Sys2Proof.Safety

/-! ### Commands that end with a write of `ST` or `BUF` -/

section RegisterWrites

variable {s : State}

theorem command_writeSt {body : State → Ending} {S : Matrix}
    (h : body (beginCommand s) = .completes ((beginCommand s).writeSt S)) :
    command body s = .next { completed s false with st := Reg.holding S } := by
  rw [command_completes h, complete_plain s _ (by simp)]
  simp [completed, beginCommand_eq, State.writeSt]

theorem command_writeBuf {body : State → Ending} {B : Block}
    (h : body (beginCommand s) = .completes ((beginCommand s).writeBuf B)) :
    command body s = .next { completed s false with buf := Reg.holding B } := by
  rw [command_completes h, complete_plain s _ (by simp)]
  simp [completed, beginCommand_eq, State.writeBuf]

end RegisterWrites

/-- What a command that is `matrixUnit f` answers when `ST` has been written and when it has not (R23,
R254). -/
theorem exec_of_matrixUnit {i : Instr} {f : Matrix → Matrix}
    (hi : ∀ s, exec i s = command (matrixUnit f) s) (s : State) :
    (s.st.written = true →
      exec i s = .next { completed s false with st := Reg.holding (f s.st.value) }) ∧
    (s.st.written = false → exec i s = .next (raised s .eUninit)) := by
  rw [hi, matrixUnit_spec]
  exact ⟨fun h => by rw [if_pos h], fun h => by rw [if_neg (by simp [h])]⟩

/-- As `exec_of_matrixUnit`, for a claim `p` about the new `ST`. -/
theorem exec_of_matrixUnit_exists {i : Instr} {f : Matrix → Matrix} {p : Matrix → Prop}
    (hi : ∀ s, exec i s = command (matrixUnit f) s) (s : State) (hp : p (f s.st.value)) :
    (s.st.written = true → ∃ S : Matrix, p S ∧
      exec i s = .next { completed s false with st := Reg.holding S }) ∧
    (s.st.written = false → exec i s = .next (raised s .eUninit)) := by
  obtain ⟨hwritten, huninit⟩ := exec_of_matrixUnit hi s
  exact ⟨fun h => ⟨_, hp, hwritten h⟩, huninit⟩

/-! ### Loading and unloading (R160, R161) -/

@[simp] theorem unload_load (B : Block) : unload (load B) = B := by
  apply Vector.ext
  intro i hi
  have hindex : i % 4 + 4 * (i / 4) = i := Nat.mod_add_div i 4
  simp [hindex]

@[simp] theorem load_unload (S : Matrix) : load (unload S) = S := by
  refine matrix_ext fun r c => ?_
  have hrow : (r.val + 4 * c.val) % 4 = r.val := by omega
  have hcol : (r.val + 4 * c.val) / 4 = c.val := by omega
  simp [hrow, hcol]

/-- Settles O34: the cell formulas are those of Laws/BlockTransform.lean, and each command is one check and
one register write. -/
theorem loadAndUnloadAreColumnMajor : Obligations.LoadAndUnloadAreColumnMajor := by
  refine ⟨rfl, rfl, load_cell, unload_byte, unload_load, load_unload, fun s =>
    ⟨fun hbuf => ?_, fun hbuf => ?_, fun hst => ?_, fun hst => ?_⟩⟩
  · show execLoadSt s = _
    exact command_writeSt (by simp [needWritten_passes hbuf])
  · show execLoadSt s = _
    exact command_raises (by simp [needWritten_raises hbuf])
  · show execUnloadSt s = _
    exact command_writeBuf (by simp [needWritten_passes hst])
  · show execUnloadSt s = _
    exact command_raises (by simp [needWritten_raises hst])

/-! ### Substitution and row shifts (R162, R163, R166, R167) -/

@[simp] theorem invSubBytes_subBytes (T : SBox) (S : Matrix) : invSubBytes T (subBytes T S) = S :=
  matrix_ext fun r c => by simp

@[simp] theorem subBytes_invSubBytes (T : SBox) (S : Matrix) : subBytes T (invSubBytes T S) = S :=
  matrix_ext fun r c => by simp

@[simp] theorem invShiftRows_shiftRows (S : Matrix) : invShiftRows (shiftRows S) = S := by
  refine matrix_ext fun r c => ?_
  have hcol : ((c.val + 4 - r.val) % 4 + r.val) % 4 = c.val := by omega
  simp [hcol]

@[simp] theorem shiftRows_invShiftRows (S : Matrix) : shiftRows (invShiftRows S) = S := by
  refine matrix_ext fun r c => ?_
  have hcol : ((c.val + r.val) % 4 + 4 - r.val) % 4 = c.val := by omega
  simp [hcol]

/-- Settles O35. -/
theorem subbytesSubstitutesEveryCell : Obligations.SubbytesSubstitutesEveryCell := by
  refine ⟨rfl, fun s => exec_of_matrixUnit_exists (f := subBytes Config.sbox) (fun _ => rfl) s ?_⟩
  exact fun r c => subBytes_cell Config.sbox _ r c r.isLt c.isLt

/-- Settles O36: a cell holds the preimage of the old byte under the forward table. -/
theorem invsubbytesSubstitutesEveryCell : Obligations.InvsubbytesSubstitutesEveryCell := by
  refine ⟨rfl, fun s => exec_of_matrixUnit_exists (f := invSubBytes Config.sbox) (fun _ => rfl) s ?_⟩
  exact fun r c => by simp

/-- Settles O37. -/
theorem shiftrowsRotatesRowsLeft : Obligations.ShiftrowsRotatesRowsLeft := by
  refine ⟨rfl, fun s => exec_of_matrixUnit_exists (f := shiftRows) (fun _ => rfl) s ?_⟩
  exact fun r c => shiftRows_cell _ r c r.isLt c.isLt

/-- Settles O38: the byte a cell receives is the one `shiftRows` would take from there, and `shiftRows` undoes
`invShiftRows`. -/
theorem invshiftrowsRotatesRowsRight : Obligations.InvshiftrowsRotatesRowsRight := by
  refine ⟨rfl, fun s => exec_of_matrixUnit_exists (f := invShiftRows) (fun _ => rfl) s fun r c => ?_⟩
  calc (invShiftRows s.st.value)[r][(c.val + r.val) % 4]
      = (shiftRows (invShiftRows s.st.value))[r][c] := (shiftRows_cell _ r c r.isLt c.isLt).symm
    _ = s.st.value[r][c] := by rw [shiftRows_invShiftRows]

/-! ### Circulant products (R164, R168)

A circulant is given by its first row `f` of byte functions; row `r` applies that row to the column read
from place `r` on, which is the first row rotated right by `r`. -/

/-- The product of the circulant with first row `f` and the column `a`. -/
def circulant (f : Fin 4 → Byte → Byte) (a : Fin 4 → Byte) (r : Fin 4) : Byte :=
  f 0 (a r) ^^^ f 1 (a (r + 1)) ^^^ f 2 (a (r + 2)) ^^^ f 3 (a (r + 3))

/-- The product in column order, with the first row rotated right by `r` places. -/
theorem circulant_eq (f : Fin 4 → Byte → Byte) (a : Fin 4 → Byte) (r : Fin 4) :
    circulant f a r = f (0 - r) (a 0) ^^^ f (1 - r) (a 1) ^^^ f (2 - r) (a 2) ^^^ f (3 - r) (a 3) := by
  match r with
  | 0 => rfl
  | 1 =>
    show f 0 (a 1) ^^^ f 1 (a 2) ^^^ f 2 (a 3) ^^^ f 3 (a 0) =
      f 3 (a 0) ^^^ f 0 (a 1) ^^^ f 1 (a 2) ^^^ f 2 (a 3)
    ac_rfl
  | 2 =>
    show f 0 (a 2) ^^^ f 1 (a 3) ^^^ f 2 (a 0) ^^^ f 3 (a 1) =
      f 2 (a 0) ^^^ f 3 (a 1) ^^^ f 0 (a 2) ^^^ f 1 (a 3)
    ac_rfl
  | 3 =>
    show f 0 (a 3) ^^^ f 1 (a 0) ^^^ f 2 (a 1) ^^^ f 3 (a 2) =
      f 1 (a 0) ^^^ f 2 (a 1) ^^^ f 3 (a 2) ^^^ f 0 (a 3)
    ac_rfl

/-- The coefficient at place `n` of the product of two circulants. -/
def circulantProduct (g f : Fin 4 → Byte → Byte) (n : Fin 4) (x : Byte) : Byte :=
  g 0 (f n x) ^^^ g 1 (f (n - 1) x) ^^^ g 2 (f (n - 2) x) ^^^ g 3 (f (n - 3) x)

/-- Circulants compose as their first rows multiply, when the outer one is linear over XOR. -/
theorem circulant_circulant {g : Fin 4 → Byte → Byte} (hg : ∀ n, XorLinear (g n))
    (f : Fin 4 → Byte → Byte) (a : Fin 4 → Byte) :
    circulant g (circulant f a) = circulant (circulantProduct g f) a := by
  have distribute (n : Fin 4) (x y : Byte) : g n (x ^^^ y) = g n x ^^^ g n y := hg n x y
  funext r
  simp only [circulant, circulantProduct, distribute, add_assoc, Fin.reduceAdd, Fin.reduceSub, add_zero]
  ac_rfl

/-- If the first rows multiply to the first row of the unit matrix, the outer product undoes the inner. -/
theorem circulant_leftInverse {g f : Fin 4 → Byte → Byte} (hg : ∀ n, XorLinear (g n))
    (hunit : ∀ n x, circulantProduct g f n x = if n = 0 then x else 0) :
    Function.LeftInverse (circulant g) (circulant f) := by
  intro a
  rw [circulant_circulant hg]
  funext r
  simp [circulant, hunit]

/-- Columns are finitely many, so a left inverse is a right inverse too. -/
theorem circulant_rightInverse {g f : Fin 4 → Byte → Byte}
    (h : Function.LeftInverse (circulant g) (circulant f)) :
    Function.RightInverse (circulant g) (circulant f) :=
  h.rightInverse_of_surjective (Finite.injective_iff_surjective.1 h.injective)

/-! ### The column mixes are circulant products (R119, R164, R168) -/

theorem gfmul_01 : gfmul 0x01 = id := by
  funext a
  calc gfmul 0x01 a = 0 ^^^ a := rfl
    _ = a := by rw [BitVec.ofNat_eq_ofNat, BitVec.zero_xor]

/-- The State with each column multiplied by the circulant whose first row is `coef`. -/
def columnMix (coef : Vector Byte 4) (S : Matrix) : Matrix :=
  matrixOf fun r c => circulant (fun n => gfmul coef[n]) (fun k => S[k][c]) r

theorem columnMix_cell (coef : Vector Byte 4) (S : Matrix) (r c : Fin 4) :
    (columnMix coef S)[r][c] = circulant (fun n => gfmul coef[n]) (fun k => S[k][c]) r :=
  matrixOf_cell _ r c

theorem mixCoef_multipliers :
    (fun n : Fin 4 => gfmul (#v[2, 3, 1, 1] : Vector Byte 4)[n]) = ![mul02, mul03, id, id] := by
  funext n
  match n with
  | 0 => exact gfmul_02
  | 1 => exact gfmul_03
  | 2 => exact gfmul_01
  | 3 => exact gfmul_01

theorem invMixCoef_multipliers :
    (fun n : Fin 4 => gfmul (#v[14, 11, 13, 9] : Vector Byte 4)[n]) =
      ![mul0e, mul0b, mul0d, mul09] := by
  funext n
  match n with
  | 0 => exact gfmul_0e
  | 1 => exact gfmul_0b
  | 2 => exact gfmul_0d
  | 3 => exact gfmul_09

theorem mixColumn_eq (a : Fin 4 → Byte) (r : Fin 4) :
    (mixColumn (a 0) (a 1) (a 2) (a 3))[r] = circulant ![mul02, mul03, id, id] a r := by
  rw [circulant_eq]
  match r with
  | 0 => rfl
  | 1 => rfl
  | 2 => rfl
  | 3 => rfl

theorem invMixColumn_eq (a : Fin 4 → Byte) (r : Fin 4) :
    (invMixColumn (a 0) (a 1) (a 2) (a 3))[r] = circulant ![mul0e, mul0b, mul0d, mul09] a r := by
  rw [circulant_eq]
  match r with
  | 0 => rfl
  | 1 => rfl
  | 2 => rfl
  | 3 => rfl

theorem mixColumns_eq : mixColumns = columnMix #v[2, 3, 1, 1] := by
  funext S
  refine matrix_ext fun r c => ?_
  rw [columnMix_cell, mixCoef_multipliers, ← mixColumn_eq]
  exact matrixOf_cell _ r c

theorem invMixColumns_eq : invMixColumns = columnMix #v[14, 11, 13, 9] := by
  funext S
  refine matrix_ext fun r c => ?_
  rw [columnMix_cell, invMixCoef_multipliers, ← invMixColumn_eq]
  exact matrixOf_cell _ r c

/-- Settles O39: both commands are `columnMix`, and row `r` of a circulant is its first row rotated right. -/
theorem columnMixesAreCirculantProducts : Obligations.ColumnMixesAreCirculantProducts := by
  intro i coef hi s
  have hexec : ∀ s, exec i s = command (matrixUnit (columnMix coef)) s := by
    rcases hi with ⟨rfl, rfl⟩ | ⟨rfl, rfl⟩
    · rw [← mixColumns_eq]; exact fun _ => rfl
    · rw [← invMixColumns_eq]; exact fun _ => rfl
  refine exec_of_matrixUnit_exists hexec s fun r c => ?_
  rw [columnMix_cell, circulant_eq]
  match r with
  | 0 => rfl
  | 1 => rfl
  | 2 => rfl
  | 3 => rfl

/-! ### The two column mixes undo one another (R168) -/

theorem xorLinear_xtimePow (k : Nat) : XorLinear (xtimePow k) := by
  induction k with
  | zero => exact xorLinear_id
  | succ k ih => exact xorLinear_xtime.comp ih

theorem xorLinear_gfmul (c : Byte) : XorLinear (gfmul c) := by
  have fold (l : List Nat) (p : Byte → Byte) (hp : XorLinear p) : XorLinear fun a =>
      l.foldl (fun acc k => if c.getLsbD k then acc ^^^ xtimePow k a else acc) (p a) := by
    induction l generalizing p with
    | nil => exact hp
    | cons k l ih =>
      refine ih (fun a => if c.getLsbD k then p a ^^^ xtimePow k a else p a) ?_
      cases c.getLsbD k
      · exact hp
      · exact hp.xor (xorLinear_xtimePow k)
  exact fold (List.range 8) (fun _ => 0) fun _ _ => BitVec.xor_self.symm

/-- Written out in powers of `xtime`, the powers that occur cancel in pairs, but for the byte itself in the
first sum. -/
theorem mixCoef_sums (x : Byte) :
    (mul0e (mul02 x) ^^^ mul0b x ^^^ mul0d x ^^^ mul09 (mul03 x) = x) ∧
    (mul0e (mul03 x) ^^^ mul0b (mul02 x) ^^^ mul0d x ^^^ mul09 x = 0) ∧
    (mul0e x ^^^ mul0b (mul03 x) ^^^ mul0d (mul02 x) ^^^ mul09 x = 0) ∧
    (mul0e x ^^^ mul0b x ^^^ mul0d (mul03 x) ^^^ mul09 (mul02 x) = 0) := by
  have linear (a b : Byte) : xtime (a ^^^ b) = xtime a ^^^ xtime b := xorLinear_xtime a b
  have swap (a b c : Byte) : a ^^^ (b ^^^ c) = b ^^^ (a ^^^ c) := by ac_rfl
  have cancel (a b : Byte) : a ^^^ (a ^^^ b) = b := by
    rw [← BitVec.xor_assoc, BitVec.xor_self, BitVec.zero_xor]
  refine ⟨?_, ?_, ?_, ?_⟩ <;>
    simp [mul02, mul03, mul09, mul0b, mul0d, mul0e, x2, x4, x8, linear, cancel, swap,
      BitVec.xor_assoc, BitVec.xor_comm]

/-- `INVMIX_COEF` times `MIX_COEF`, as first rows of circulants, is the first row of the unit matrix. -/
theorem circulantProduct_invMixCoef_mixCoef (n : Fin 4) (x : Byte) :
    circulantProduct ![mul0e, mul0b, mul0d, mul09] ![mul02, mul03, id, id] n x =
      if n = 0 then x else 0 := by
  obtain ⟨h0, h1, h2, h3⟩ := mixCoef_sums x
  match n with
  | 0 => exact h0
  | 1 => exact h1
  | 2 => exact h2
  | 3 => exact h3

theorem columnMix_columnMix {coef coef' : Vector Byte 4}
    (h : Function.LeftInverse (circulant fun n => gfmul coef'[n]) (circulant fun n => gfmul coef[n]))
    (S : Matrix) : columnMix coef' (columnMix coef S) = S := by
  refine matrix_ext fun r c => ?_
  simp only [columnMix_cell]
  exact congrFun (h fun k => S[k][c]) r

theorem invMixCoef_leftInverse :
    Function.LeftInverse (circulant fun n => gfmul (#v[14, 11, 13, 9] : Vector Byte 4)[n])
      (circulant fun n => gfmul (#v[2, 3, 1, 1] : Vector Byte 4)[n]) := by
  refine circulant_leftInverse (fun _ => xorLinear_gfmul _) ?_
  rw [invMixCoef_multipliers, mixCoef_multipliers]
  exact circulantProduct_invMixCoef_mixCoef

@[simp] theorem invMixColumns_mixColumns (S : Matrix) : invMixColumns (mixColumns S) = S := by
  rw [invMixColumns_eq, mixColumns_eq]
  exact columnMix_columnMix invMixCoef_leftInverse S

@[simp] theorem mixColumns_invMixColumns (S : Matrix) : mixColumns (invMixColumns S) = S := by
  rw [invMixColumns_eq, mixColumns_eq]
  exact columnMix_columnMix (circulant_rightInverse invMixCoef_leftInverse) S

/-- Settles O41. -/
theorem inverseRoundOperationsUndoForwardOnes :
    Obligations.InverseRoundOperationsUndoForwardOnes :=
  ⟨fun T S => ⟨invSubBytes_subBytes T S, subBytes_invSubBytes T S⟩,
    fun S => ⟨invShiftRows_shiftRows S, shiftRows_invShiftRows S⟩,
    fun S => ⟨invMixColumns_mixColumns S, mixColumns_invMixColumns S⟩⟩

/-! ### Adding a round key (R165) -/

@[simp] theorem addRoundKey_addRoundKey (S : Matrix) (W : Schedule) (rd : Fin 15) :
    addRoundKey (addRoundKey S W rd) W rd = S :=
  matrix_ext fun r c => by simp

/-- Settles O40: the schedule is checked first, then `ST` and `OPA` for being written, then the range of
`OPA`; then `ST` is written. -/
theorem addroundkeyXorsTheRoundKey : Obligations.AddroundkeyXorsTheRoundKey := by
  refine ⟨rfl, addRoundKey_addRoundKey, fun s => ?_⟩
  have passes (h : s.ksValid = true) (k : Ending) : needSchedule (beginCommand s) k = k :=
    needSchedule_passes (by simpa using h) k
  refine ⟨fun hle hks hst hopa => ?_, fun hks => ?_, fun hks huninit => ?_, fun hks hst hopa hgt => ?_⟩
  · refine ⟨addRoundKey s.st.value s.w ⟨s.opa.value.toNat, Nat.lt_succ_of_le hle⟩,
      fun r c => addRoundKey_cell _ _ _ r c r.isLt c.isLt, ?_⟩
    show execAddRoundKey s = _
    exact command_writeSt
      (by simp [passes hks, needWritten_passes hst, needWritten_passes hopa, needAtMost_passes hle])
  · exact exec_scheduleReader_raises (by simp) hks
  · show execAddRoundKey s = _
    refine command_raises ?_
    cases hst : s.st.written with
    | false => simp [passes hks, needWritten_raises hst]
    | true =>
      have hopa : s.opa.written = false := by simpa [hst] using huninit
      simp [passes hks, needWritten_passes hst, needWritten_raises hopa]
  · show execAddRoundKey s = _
    exact command_raises
      (by simp [passes hks, needWritten_passes hst, needWritten_passes hopa, needAtMost_raises hgt])

/-! ### The rounds of the two ciphers (R169, R170) -/

/-- A round of the forward cipher undone step by step (R170, the second formulation). -/
def undoRound (T : SBox) (W : Schedule) (rd : Fin 15) (S : Matrix) : Matrix :=
  invSubBytes T (invShiftRows (invMixColumns (addRoundKey S W rd)))

theorem undoRound_cipherRound (T : SBox) (W : Schedule) (rd : Fin 15) (S : Matrix) :
    undoRound T W rd (cipherRound T W rd S) = S := by
  simp [undoRound, cipherRound]

theorem cipherRound_undoRound (T : SBox) (W : Schedule) (rd : Fin 15) (S : Matrix) :
    cipherRound T W rd (undoRound T W rd S) = S := by
  simp [undoRound, cipherRound]

/-- The forward loop is a fold over the rounds from 1 up. -/
theorem cipherRounds_eq_foldl (T : SBox) (W : Schedule) (B : Block) (n : Nat) (h : n ≤ 14) :
    cipherRounds T W B n h =
      (List.finRange n).foldl (fun S (k : Fin n) => cipherRound T W ⟨k + 1, by omega⟩ S)
        (addRoundKey (load B) W 0) := by
  induction n with
  | zero => rfl
  | succ n ih =>
    rw [cipherRounds, ih, List.finRange_succ_last, List.foldl_append, List.foldl_map]
    rfl

/-- What the inverse loop does with round key `rd` before it goes on to the substitution and the row shift of
that round: round 0 has no column mix. -/
def removeRoundKey (W : Schedule) (rd : Fin 15) (S : Matrix) : Matrix :=
  if rd.val ≠ 0 then invMixColumns (addRoundKey S W rd) else addRoundKey S W rd

theorem invCipherRound_eq (T : SBox) (W : Schedule) (rd : Fin 15) (S : Matrix) :
    invCipherRound T W rd S = removeRoundKey W rd (invSubBytes T (invShiftRows S)) := rfl

/-- The inverse loop is a fold over the rounds down to 1 and the removal of round key 0. The loop of the model
ends each turn with the round key of the next round, where `undoRound` begins with its own; so the statement
starts after the removal of round key `n`. -/
theorem invCipherRounds_eq_foldl (T : SBox) (W : Schedule) (n : Nat) (h : n ≤ 14) (S : Matrix) :
    invCipherRounds T W n h (removeRoundKey W ⟨n, by omega⟩ S) =
      addRoundKey
        ((List.finRange n).reverse.foldl (fun S (k : Fin n) => undoRound T W ⟨k + 1, by omega⟩ S) S)
        W 0 := by
  induction n generalizing S with
  | zero => rfl
  | succ n ih =>
    rw [List.finRange_succ_last, List.reverse_append, List.foldl_append, ← List.map_reverse,
      List.foldl_map]
    exact ih (by omega) (undoRound T W ⟨n + 1, by omega⟩ S)

/-- Settles O42: the loop of the model as a fold. -/
theorem cipherMixesColumnsInEveryRound : Obligations.CipherMixesColumnsInEveryRound := by
  intro T B W
  rw [cipher, cipherState, cipherRounds_eq_foldl]
  rfl

/-- Settles O43: the model starts with the removal of round key 14. -/
theorem invCipherUndoesRoundsStepByStep : Obligations.InvCipherUndoesRoundsStepByStep := by
  intro T B W
  have h14 : invMixColumns (addRoundKey (load B) W 14) = removeRoundKey W 14 (load B) := rfl
  rw [invCipher, invCipherState, h14]
  exact congrArg unload (invCipherRounds_eq_foldl T W 14 (Nat.le_refl 14) (load B))

/-- A fold of steps is undone by the fold of their inverses over the reversed list. -/
theorem foldl_reverse_foldl {σ κ : Type} {f g : σ → κ → σ} (h : ∀ S k, g (f S k) k = S)
    (l : List κ) (S : σ) : l.reverse.foldl g (l.foldl f S) = S := by
  induction l generalizing S with
  | nil => rfl
  | cons k l ih => simp [ih, h]

/-- The same with the reversed list first. -/
theorem foldl_foldl_reverse {σ κ : Type} {f g : σ → κ → σ} (h : ∀ S k, f (g S k) k = S)
    (l : List κ) (S : σ) : l.foldl f (l.reverse.foldl g S) = S := by
  simpa using foldl_reverse_foldl h l.reverse S

/-- The rounds 1 to 14 of the forward cipher (R169). -/
def forwardRounds (T : SBox) (W : Schedule) (S : Matrix) : Matrix :=
  (List.finRange 14).foldl (fun S k => cipherRound T W k.succ S) S

/-- The rounds 14 to 1 undone step by step (R170). -/
def undoRounds (T : SBox) (W : Schedule) (S : Matrix) : Matrix :=
  (List.finRange 14).reverse.foldl (fun S k => undoRound T W k.succ S) S

theorem cipher_eq (T : SBox) (B : Block) (W : Schedule) :
    cipher T B W = unload (forwardRounds T W (addRoundKey (load B) W 0)) :=
  cipherMixesColumnsInEveryRound T B W

theorem invCipher_eq (T : SBox) (B : Block) (W : Schedule) :
    invCipher T B W = unload (addRoundKey (undoRounds T W (load B)) W 0) :=
  invCipherUndoesRoundsStepByStep T B W

@[simp] theorem undoRounds_forwardRounds (T : SBox) (W : Schedule) (S : Matrix) :
    undoRounds T W (forwardRounds T W S) = S :=
  foldl_reverse_foldl (fun S k => undoRound_cipherRound T W k.succ S) (List.finRange 14) S

@[simp] theorem forwardRounds_undoRounds (T : SBox) (W : Schedule) (S : Matrix) :
    forwardRounds T W (undoRounds T W S) = S :=
  foldl_foldl_reverse (fun S k => cipherRound_undoRound T W k.succ S) (List.finRange 14) S

/-- Settles O44: the two runs of rounds undo one another, and so does adding round key 0. -/
theorem ciphersUndoOneAnother : Obligations.CiphersUndoOneAnother := by
  intro T B W
  constructor
  · rw [cipher_eq, invCipher_eq, load_unload, undoRounds_forwardRounds, addRoundKey_addRoundKey,
      unload_load]
  · rw [invCipher_eq, cipher_eq, load_unload, addRoundKey_addRoundKey, forwardRounds_undoRounds,
      unload_load]

/-! ### `BLK_ENC` and `BLK_DEC` (R171, R172) -/

/-- The block-level commands: `BUF <- f(BUF, W)`, with `ST` left holding the final State (R171, R172). -/
def blockUnit (f : Block → Schedule → Block) (s : State) : Ending :=
  needSchedule s <| needWritten s.buf s fun B =>
    .completes (freeRnd ((s.writeSt (load (f B s.w))).writeBuf (f B s.w)))

theorem exec_blkEnc (s : State) : exec .blkEnc s = command (blockUnit (cipher Config.sbox)) s := by
  unfold blockUnit cipher
  simp only [load_unload]
  rfl

theorem exec_blkDec (s : State) : exec .blkDec s = command (blockUnit (invCipher Config.sbox)) s := by
  unfold blockUnit invCipher
  simp only [load_unload]
  rfl

theorem blockUnit_completes {f : Block → Schedule → Block} {s : State} (hks : s.ksValid = true)
    (hbuf : s.buf.written = true) :
    blockUnit f s = .completes
      (freeRnd ((s.writeSt (load (f s.buf.value s.w))).writeBuf (f s.buf.value s.w))) := by
  rw [blockUnit, needSchedule_passes hks, needWritten_passes hbuf]

/-- What `BLK_ENC` and `BLK_DEC` have in common: the checks of R260 in order, then one block through `f`. -/
theorem exec_of_blockUnit {i : Instr} {f : Block → Schedule → Block}
    (hi : ∀ s, exec i s = command (blockUnit f) s) (s : State) :
    (s.ksValid = true → s.buf.written = true →
      ∃ n : Nat, n ≤ 14 ∧ exec i s = .next
        { completed s false with
          buf := Reg.holding (f s.buf.value s.w)
          st := Reg.holding (load (f s.buf.value s.w))
          seq := { s.seq with rnd := n }
          seqDraws := s.seqDraws + 1 }) ∧
    (s.ksValid = false → exec i s = .next (raised s .eNoKey)) ∧
    (s.ksValid = true → s.buf.written = false → exec i s = .next (raised s .eUninit)) := by
  rw [hi]
  refine ⟨fun hks hbuf => ?_, fun hks => ?_, fun hks hbuf => ?_⟩
  · have hbody := blockUnit_completes (f := f) (s := beginCommand s) (by simpa using hks)
      (by simpa using hbuf)
    obtain ⟨n, hn, hfree⟩ := freeRnd_eq (((beginCommand s).writeSt
      (load (f (beginCommand s).buf.value (beginCommand s).w))).writeBuf
      (f (beginCommand s).buf.value (beginCommand s).w))
    refine ⟨n, hn, ?_⟩
    rw [command_completes hbody, complete_plain s _ (by simp), hfree, beginCommand_eq]
    rfl
  · exact command_raises (needSchedule_raises (by simpa using hks) _)
  · refine command_raises ?_
    rw [blockUnit, needSchedule_passes (by simpa using hks), needWritten_raises (by simpa using hbuf)]

/-- Settles O45. -/
theorem blkEncEnciphersBuf : Obligations.BlkEncEnciphersBuf :=
  ⟨rfl, exec_of_blockUnit exec_blkEnc⟩

theorem completedStatus_ksValid (x : Byte) (pad : Bool) :
    (completedStatus x pad).getLsbD 2 = x.getLsbD 2 := by
  cases pad <;> simp [completedStatus]

/-- What the command after a block-level command meets: the new block, the same schedule, still valid. -/
theorem exec_of_blockUnit_next {i : Instr} {f : Block → Schedule → Block}
    (hi : ∀ s, exec i s = command (blockUnit f) s) {s : State} (hks : s.ksValid = true)
    (hbuf : s.buf.written = true) :
    ∃ t : State, exec i s = .next t ∧ t.ksValid = true ∧ t.w = s.w ∧
      t.buf = Reg.holding (f s.buf.value s.w) := by
  obtain ⟨hcompletes, -⟩ := exec_of_blockUnit hi s
  obtain ⟨n, -, ht⟩ := hcompletes hks hbuf
  exact ⟨_, ht, (completedStatus_ksValid s.status false).trans hks, rfl, rfl⟩

/-- Two block-level commands whose functions undo one another, the one after the other. -/
theorem blockUnit_restores_buf {i j : Instr} {f g : Block → Schedule → Block}
    (hi : ∀ s, exec i s = command (blockUnit f) s) (hj : ∀ s, exec j s = command (blockUnit g) s)
    (hundo : ∀ B W, g (f B W) W = B) {s : State} (hks : s.ksValid = true)
    (hbuf : s.buf.written = true) :
    ∃ t u : State, exec i s = .next t ∧ exec j t = .next u ∧ u.buf = s.buf := by
  obtain ⟨t, ht, htks, htw, htbuf⟩ := exec_of_blockUnit_next hi hks hbuf
  obtain ⟨u, hu, -, -, hubuf⟩ := exec_of_blockUnit_next hj htks (by rw [htbuf, holding_written])
  refine ⟨t, u, ht, hu, ?_⟩
  calc u.buf = Reg.holding (g (f s.buf.value s.w) s.w) := by rw [hubuf, htbuf, htw, holding_value]
    _ = Reg.holding s.buf.value := by rw [hundo]
    _ = s.buf := by rw [Reg.holding, ← hbuf]

/-- Settles O46: the block function is the inverse cipher, and the ciphers undo one another (O44). -/
theorem blkDecDeciphersBufAndRestoresIt : Obligations.BlkDecDeciphersBufAndRestoresIt :=
  ⟨rfl, exec_of_blockUnit exec_blkDec, fun _ hks hbuf =>
    ⟨blockUnit_restores_buf exec_blkEnc exec_blkDec
        (fun B W => (ciphersUndoOneAnother Config.sbox B W).1) hks hbuf,
      blockUnit_restores_buf exec_blkDec exec_blkEnc
        (fun B W => (ciphersUndoOneAnother Config.sbox B W).2) hks hbuf⟩⟩

end Sys2Proof.Machine

/-! The family `44_mode_driver.md`: the padding unit, the chaining XOR, the file formats as functions and the
four file-level commands that compute them (R200 to R216). A byte sequence is whole blocks and a short rest, and
its plaintext blocks are those blocks and, unless the rest is empty after a block, the padded rest
(`plainBlocks_flatten_append`); the laws of the file formats are read off that. Each loop of a command is one
induction over the blocks it has still to process. -/

namespace Sys2Proof.Machine

open Sys2Proof.Safety

/-! ### The padding unit (R86, R87, R201, R202) -/

@[simp] theorem pad_last (v : List Byte) : (pad v)[15] = BitVec.ofNat 8 (16 - v.length) := by
  simp [pad]

theorem pad_data {v : List Byte} {i : Nat} (h : i < v.length) (hi : i < 15) : (pad v)[i] = v[i] := by
  simp [pad, h, Nat.ne_of_lt hi]

theorem pad_zero {v : List Byte} {i : Nat} (h : v.length ≤ i) (hi : i < 15) : (pad v)[i] = 0 := by
  simp [pad, Nat.ne_of_lt hi, Nat.not_lt.mpr h]

theorem pad_last_toNat (v : List Byte) : (pad v)[15].toNat = 16 - v.length := by
  rw [pad_last, BitVec.toNat_ofNat, Nat.mod_eq_of_lt (by omega)]

/-- What the verification asks of a block: a pad length in 1..16, and zeros between the data and byte 15
(R87). -/
def Padded (B : Block) : Prop :=
  1 ≤ B[15].toNat ∧ B[15].toNat ≤ 16 ∧ ∀ i : Nat, ∀ h : i < 15, 16 - B[15].toNat ≤ i → B[i] = 0

theorem padOK_iff (B : Block) : padOK B = true ↔ Padded B := by
  simp [padOK, Padded, Fin.forall_iff]

theorem padOK_false_iff (B : Block) : padOK B = false ↔ ¬ Padded B := by
  rw [← padOK_iff, Bool.not_eq_true]

theorem unpad_of_padded {B : Block} (h : Padded B) : unpad B = B.toList.take (16 - B[15].toNat) :=
  if_pos ((padOK_iff B).mpr h)

theorem unpad_of_not_padded {B : Block} (h : ¬ Padded B) : unpad B = B.toList :=
  if_neg (mt (padOK_iff B).mp h)

theorem padded_pad {v : List Byte} (h : v.length ≤ 15) : Padded (pad v) := by
  simp only [Padded, pad_last_toNat]
  exact ⟨by omega, by omega, fun i hi hle => pad_zero (by omega) hi⟩

/-- Settles O49: a padded sequence passes the verification, and the bytes before the pad are its own. -/
theorem unpadUndoesPad : Obligations.UnpadUndoesPad := by
  intro v hv
  rw [unpad_of_padded (padded_pad hv), pad_last_toNat]
  refine List.ext_getElem (by simp; omega) fun i _ hi => ?_
  simpa using pad_data hi (by omega)

/-- Settles O47: the checks of `PAD` in the order of R260, then the format of `pad` byte by byte. -/
theorem padWritesThePaddedFormat : Obligations.PadWritesThePaddedFormat := by
  refine ⟨rfl, fun s => ⟨fun hopa hbuf hle => ?_, fun huninit => ?_, fun hopa hbuf hgt => ?_⟩⟩
  · have hlength : (s.buf.value.toList.take s.opa.value.toNat).length = s.opa.value.toNat := by
      simp; omega
    refine ⟨pad (s.buf.value.toList.take s.opa.value.toNat), fun i hi hdata => ?_,
      fun i hi hfill => pad_zero (by omega) hi, by rw [pad_last_toNat, hlength], ?_⟩
    · rw [pad_data (by omega) (by omega), List.getElem_take, Vector.getElem_toList]
    · show execPad s = _
      exact command_writeBuf
        (by simp [needWritten_passes hopa, needWritten_passes hbuf, needAtMost_passes hle])
  · show execPad s = _
    refine command_raises ?_
    cases hopa : s.opa.written with
    | false => simp [needWritten_raises hopa]
    | true =>
      have hbuf : s.buf.written = false := by simpa [hopa] using huninit
      simp [needWritten_passes hopa, needWritten_raises hbuf]
  · show execPad s = _
    exact command_raises
      (by simp [needWritten_passes hopa, needWritten_passes hbuf, needAtMost_raises hgt])

/-- Everything `UNPAD` does with a block in `BUF` (R202). -/
theorem execUnpad_eq {s : State} (h : s.buf.written = true) :
    execUnpad s = .next
      { completed s (padOK s.buf.value) with
        res := Reg.holding (BitVec.ofNat 8 (unpad s.buf.value).length) } := by
  rw [execUnpad, command_completes (needWritten_passes (by simpa using h) _),
    complete_begin s _ (padOK s.buf.value) (by simp)]
  simp [completed, beginCommand_eq, State.setPadOk, State.writeRes]

theorem unpad_length_of_padded {B : Block} (h : Padded B) :
    BitVec.ofNat 8 (unpad B).length = (16 : Byte) - B[15] := by
  have ⟨_, hle, _⟩ := h
  rw [unpad_of_padded h, List.length_take, Vector.length_toList, Nat.min_eq_left (by omega)]
  have h16 : (16 : Byte).toNat = 16 := rfl
  apply BitVec.eq_of_toNat_eq
  rw [BitVec.toNat_ofNat, BitVec.toNat_sub, h16]
  omega

/-- Settles O48: the count and `PAD_OK` of `execUnpad_eq`, by the outcome of the verification. -/
theorem unpadCountsTheKeptBytes : Obligations.UnpadCountsTheKeptBytes := by
  refine ⟨rfl, fun s => ⟨fun hbuf => ⟨fun (hpad : Padded s.buf.value) => ?_,
    fun (hpad : ¬ Padded s.buf.value) => ?_⟩, fun hbuf => ?_⟩⟩
  · show execUnpad s = _
    rw [execUnpad_eq hbuf, (padOK_iff _).mpr hpad, unpad_length_of_padded hpad]
    rfl
  · show execUnpad s = _
    rw [execUnpad_eq hbuf, (padOK_false_iff _).mpr hpad, unpad_of_not_padded hpad,
      Vector.length_toList]
    rfl
  · show execUnpad s = _
    exact command_raises (by simp [needWritten_raises hbuf])

/-! ### The chaining XOR (R203) -/

theorem xorBlock_assoc (a b c : Block) :
    xorBlock (xorBlock a b) c = xorBlock a (xorBlock b c) :=
  Vector.ext fun i hi => by simp [BitVec.xor_assoc]

@[simp] theorem xorBlock_xorBlock_cancel (a b : Block) : xorBlock (xorBlock a b) b = a :=
  Vector.ext fun i hi => by simp

/-- Settles O50: both registers are checked for being written, then `BUF` is written. -/
theorem xorprevXorsPrevIntoBuf : Obligations.XorprevXorsPrevIntoBuf := by
  refine ⟨rfl, xorBlock_xorBlock_cancel, fun s => ⟨fun hbuf hprev => ?_, fun huninit => ?_⟩⟩
  · refine ⟨_, fun i hi => xorBlock_byte _ _ i hi, rfl, ?_⟩
    show execXorPrev s = _
    exact command_writeBuf (by simp [needWritten_passes hbuf, needWritten_passes hprev])
  · show execXorPrev s = _
    refine command_raises ?_
    cases hbuf : s.buf.written with
    | false => simp [needWritten_raises hbuf]
    | true =>
      have hprev : s.prev.written = false := by simpa [hbuf] using huninit
      simp [needWritten_passes hbuf, needWritten_raises hprev]

/-! ### Sequences of whole blocks (R58, R61, R200, R205) -/

@[simp] theorem flatten_nil : flatten [] = [] := rfl

@[simp] theorem flatten_cons (B : Block) (bs : List Block) :
    flatten (B :: bs) = B.toList ++ flatten bs := rfl

@[simp] theorem flatten_append (bs cs : List Block) : flatten (bs ++ cs) = flatten bs ++ flatten cs :=
  List.flatMap_append

@[simp] theorem flatten_length (bs : List Block) : (flatten bs).length = 16 * bs.length := by
  induction bs with
  | nil => rfl
  | cons B bs ih => simp [ih]; omega

@[simp] theorem blockOf_toList_append (B : Block) (v : List Byte) : blockOf (B.toList ++ v) = B :=
  Vector.ext fun i hi => by simp [List.getElem?_append_left, hi]

theorem blockOf_toList (B : Block) : blockOf B.toList = B := by
  simpa using blockOf_toList_append B []

theorem toList_blockOf {v : List Byte} (h : 16 ≤ v.length) : (blockOf v).toList = v.take 16 :=
  List.ext_getElem (by simp [h]) fun i hi _ => by
    have : i < v.length := by simp at hi; omega
    simp [this]

@[simp] theorem drop_toList_append (B : Block) (v : List Byte) (n : Nat) :
    (B.toList ++ v).drop (16 + n) = v.drop n := by
  simp [List.drop_append]

/-- Every byte sequence is whole blocks and a rest of at most 15 bytes. -/
theorem exists_blocks_append (P : List Byte) :
    ∃ (bs : List Block) (v : List Byte), v.length ≤ 15 ∧ P = flatten bs ++ v := by
  by_cases h : P.length ≤ 15
  · exact ⟨[], P, h, rfl⟩
  · obtain ⟨bs, v, hv, e⟩ := exists_blocks_append (P.drop 16)
    refine ⟨blockOf P :: bs, v, hv, ?_⟩
    rw [flatten_cons, List.append_assoc, ← e, toList_blockOf (by omega), List.take_append_drop]
termination_by P.length
decreasing_by simp; omega

theorem exists_blocks_of_mod {P : List Byte} (h : P.length % 16 = 0) :
    ∃ bs : List Block, P = flatten bs := by
  obtain ⟨bs, v, hv, rfl⟩ := exists_blocks_append P
  obtain rfl : v = [] := List.eq_nil_of_length_eq_zero (by simp at h; omega)
  exact ⟨bs, List.append_nil _⟩

/-- The whole blocks of a ciphertext are the blocks it is made of. -/
@[simp] theorem wholeBlocks_flatten (bs : List Block) : wholeBlocks (flatten bs) = bs := by
  induction bs with
  | nil => rfl
  | cons B bs ih =>
    have hlength : (flatten (B :: bs)).length / 16 = (flatten bs).length / 16 + 1 := by simp
    rw [wholeBlocks, hlength, List.range_succ_eq_map, List.map_cons, List.map_map]
    refine congrArg₂ List.cons ?_ ?_
    · simp
    · refine .trans (List.map_congr_left fun j _ => ?_) ih
      simp [Nat.mul_succ, Nat.add_comm _ 16]

/-! ### The plaintext blocks (R200, R205) -/

theorem nbBlocks_of_short {L : Nat} (h : L ≤ 16) : nbBlocks L = 1 := by
  unfold nbBlocks; split <;> omega

theorem nbBlocks_add {L : Nat} (h : L ≠ 0) : nbBlocks (16 + L) = nbBlocks L + 1 := by
  rw [nbBlocks, nbBlocks, if_neg h, if_neg (by omega)]
  omega

@[simp] theorem plainBlocks_length (P : List Byte) : (plainBlocks P).length = nbBlocks P.length := by
  simp [plainBlocks]

theorem plainBlocks_short {v : List Byte} (h : v.length ≤ 15) : plainBlocks v = [pad v] := by
  have hnb : nbBlocks v.length = 1 := nbBlocks_of_short (by omega)
  have hshort : ¬ 16 ≤ v.length := by omega
  simp [plainBlocks, hnb, plainBlockAt, hshort]

theorem plainBlocks_toList (B : Block) : plainBlocks B.toList = [B] := by
  simp [plainBlocks, nbBlocks_of_short, plainBlockAt, blockOf_toList]

theorem plainBlocks_toList_append (B : Block) {P : List Byte} (h : P ≠ []) :
    plainBlocks (B.toList ++ P) = B :: plainBlocks P := by
  have hnb : nbBlocks (B.toList ++ P).length = nbBlocks P.length + 1 := by
    rw [List.length_append, Vector.length_toList, nbBlocks_add (by simpa using h)]
  rw [plainBlocks, hnb, List.range_succ_eq_map, List.map_cons, List.map_map]
  refine congrArg₂ List.cons ?_ ?_
  · simp [plainBlockAt]
  · refine List.map_congr_left fun j _ => ?_
    have hle : 16 * (j + 1) + 16 ≤ 16 + P.length ↔ 16 * j + 16 ≤ P.length := by omega
    have hdrop : (B.toList ++ P).drop (16 * (j + 1)) = P.drop (16 * j) := by
      rw [Nat.mul_succ, Nat.add_comm, drop_toList_append]
    simp [plainBlockAt, hle, hdrop]

/-- Whole blocks followed by a short rest: the rest is padded, unless it is empty and blocks stand before
it (R200, R205, R215). -/
theorem plainBlocks_flatten_append (bs : List Block) {v : List Byte} (hv : v.length ≤ 15)
    (h : v ≠ [] ∨ bs = []) : plainBlocks (flatten bs ++ v) = bs ++ [pad v] := by
  induction bs with
  | nil => exact plainBlocks_short hv
  | cons B bs ih =>
    have hne : v ≠ [] := h.resolve_right (List.cons_ne_nil _ _)
    rw [flatten_cons, List.append_assoc, plainBlocks_toList_append B (by simp [hne]), ih (.inl hne)]
    rfl

theorem plainBlocks_flatten {bs : List Block} (h : bs ≠ []) : plainBlocks (flatten bs) = bs := by
  induction bs with
  | nil => exact absurd rfl h
  | cons B bs ih =>
    cases bs with
    | nil => simpa using plainBlocks_toList B
    | cons C cs =>
      have hne : flatten (C :: cs) ≠ [] := List.ne_nil_of_length_pos (by simp)
      rw [flatten_cons, plainBlocks_toList_append B hne, ih (List.cons_ne_nil _ _)]

/-! ### The ciphertexts and their decryption (R205 to R209) -/

@[simp] theorem ecbBlocks_length (T : SBox) (W : Schedule) (bs : List Block) :
    (ecbBlocks T W bs).length = bs.length :=
  List.length_map _

@[simp] theorem cbcBlocks_length (T : SBox) (W : Schedule) (prev : Block) (bs : List Block) :
    (cbcBlocks T W prev bs).length = bs.length := by
  induction bs generalizing prev with
  | nil => rfl
  | cons B bs ih => simp [cbcBlocks, ih]

@[simp] theorem ecbEnc_length (T : SBox) (K : Key) (P : List Byte) :
    (ecbEnc T K P).length = 16 * nbBlocks P.length := by
  simp [ecbEnc]

@[simp] theorem cbcEnc_length (T : SBox) (K : Key) (iv : Block) (P : List Byte) :
    (cbcEnc T K iv P).length = 16 * (1 + nbBlocks P.length) := by
  simp [cbcEnc]; omega

theorem nbBlocks_pos (L : Nat) : 1 ≤ nbBlocks L := by
  unfold nbBlocks; split <;> omega

/-- A positive number of whole blocks passes the length check of R204; the IV block is one more. -/
theorem badLength_false {n : Nat} (h : 1 ≤ n) :
    badLength false (16 * n) = false ∧ badLength true (16 * (1 + n)) = false := by
  simp [badLength]; omega

/-- Settles O55: every plaintext has at least one block (R200). -/
theorem ciphertextLengths : Obligations.CiphertextLengths := by
  intro T K iv P
  rw [ecbEnc_length, cbcEnc_length]
  exact ⟨rfl, rfl, badLength_false (nbBlocks_pos _)⟩

theorem ecbPlain_ecbBlocks (T : SBox) (W : Schedule) (bs : List Block) :
    ecbPlain T W (ecbBlocks T W bs) = bs := by
  induction bs with
  | nil => rfl
  | cons B bs ih => exact congrArg₂ List.cons (ciphersUndoOneAnother T B W).1 ih

/-- The XOR with the block before undoes itself once the block cipher is undone. -/
theorem cbcPlain_cbcBlocks (T : SBox) (W : Schedule) (prev : Block) (bs : List Block) :
    cbcPlain T W prev (cbcBlocks T W prev bs) = bs := by
  induction bs generalizing prev with
  | nil => rfl
  | cons B bs ih =>
    rw [cbcBlocks, cbcPlain, ih, (ciphersUndoOneAnother T (xorBlock B prev) W).1,
      xorBlock_xorBlock_cancel]

/-- Decrypting an encryption leaves the padding verification of the last plaintext block to do. -/
theorem ecbDec_ecbEnc (T : SBox) (K : Key) (P : List Byte) :
    ecbDec T K (ecbEnc T K P) = stripLast (plainBlocks P) := by
  rw [ecbDec, ecbEnc, wholeBlocks_flatten, ecbPlain_ecbBlocks]

theorem cbcDec_cbcEnc (T : SBox) (K : Key) (iv : Block) (P : List Byte) :
    cbcDec T K (cbcEnc T K iv P) = stripLast (plainBlocks P) := by
  rw [cbcDec, cbcEnc, ← flatten_cons, wholeBlocks_flatten]
  simp only [cbcPlain_cbcBlocks]

/-! ### The round trip (R211, R212) -/

theorem stripLast_append_singleton (bs : List Block) (B : Block) :
    stripLast (bs ++ [B]) = flatten bs ++ unpad B := by
  induction bs with
  | nil => rfl
  | cons C bs ih =>
    have hstep : stripLast (C :: (bs ++ [B])) = C.toList ++ stripLast (bs ++ [B]) := by
      cases bs <;> rfl
    rw [List.cons_append, hstep, ih, flatten_cons, List.append_assoc]

theorem tailBlock_flatten_append_singleton (bs : List Block) (B : Block) :
    tailBlock (flatten (bs ++ [B])) = B := by
  have hstart : (flatten (bs ++ [B])).length - 16 = (flatten bs).length := by simp
  rw [tailBlock, hstart, flatten_append, List.drop_left, flatten_cons, blockOf_toList_append]

/-- A padded last block is taken off again. -/
theorem stripLast_plainBlocks_of_rest (bs : List Block) {v : List Byte} (hv : v.length ≤ 15)
    (h : v ≠ [] ∨ bs = []) : stripLast (plainBlocks (flatten bs ++ v)) = flatten bs ++ v := by
  rw [plainBlocks_flatten_append bs hv h, stripLast_append_singleton, unpadUndoesPad v hv]

/-- Whole blocks get no padding, so what looks like padding in the last one is taken off with it. -/
theorem stripLast_plainBlocks_of_whole (bs : List Block) (B : Block) :
    stripLast (plainBlocks (flatten (bs ++ [B]))) = flatten bs ++ unpad B := by
  rw [plainBlocks_flatten (by simp), stripLast_append_singleton]

/-- Only whole blocks can be ambiguous. -/
theorem not_amb_of_rest (bs : List Block) {v : List Byte} (hv : v.length ≤ 15)
    (h : v ≠ [] ∨ bs = []) : ¬ amb (flatten bs ++ v) := by
  rintro ⟨hlen, hmod, -⟩
  simp only [List.length_append, flatten_length] at hlen hmod
  have hv0 : v = [] := List.eq_nil_of_length_eq_zero (by omega)
  have hbs : bs = [] := h.resolve_left (absurd hv0)
  simp [hv0, hbs] at hlen

theorem amb_of_whole (bs : List Block) (B : Block) : amb (flatten (bs ++ [B])) ↔ Padded B := by
  rw [amb, tailBlock_flatten_append_singleton, padOK_iff]
  simp

/-- The function behind both round trips (R211): all of `P`, or all but its apparent padding. -/
theorem stripLast_plainBlocks (P : List Byte) :
    (¬ amb P → stripLast (plainBlocks P) = P) ∧
    (amb P → stripLast (plainBlocks P) = P.take (P.length - (tailBlock P)[15].toNat)) := by
  obtain ⟨bs, v, hv, rfl⟩ := exists_blocks_append P
  by_cases h : v ≠ [] ∨ bs = []
  · exact ⟨fun _ => stripLast_plainBlocks_of_rest bs hv h,
      fun hamb => absurd hamb (not_amb_of_rest bs hv h)⟩
  · obtain ⟨rfl, hne⟩ : v = [] ∧ bs ≠ [] := by simpa using h
    obtain ⟨cs, B, rfl⟩ := (List.eq_nil_or_concat bs).resolve_left hne
    rw [List.concat_eq_append, List.append_nil, amb_of_whole, stripLast_plainBlocks_of_whole,
      tailBlock_flatten_append_singleton]
    refine ⟨fun hpad => ?_, fun hpad => ?_⟩
    · simp [unpad_of_not_padded hpad]
    · have ⟨_, hle, _⟩ := hpad
      have hkept : (flatten (cs ++ [B])).length - B[15].toNat =
          (flatten cs).length + (16 - B[15].toNat) := by simp; omega
      rw [hkept, flatten_append, List.take_length_add_append, unpad_of_padded hpad]
      simp

/-- Settles O56: both decryptions come to `stripLast_plainBlocks`. -/
theorem fileRoundTrip : Obligations.FileRoundTrip := by
  intro T K iv P
  rw [ecbDec_ecbEnc, cbcDec_cbcEnc]
  obtain ⟨hclear, hamb⟩ := stripLast_plainBlocks P
  exact ⟨fun h => ⟨hclear h, hclear h⟩, fun h => ⟨hamb h, hamb h⟩⟩

/-- Settles O57: the two plaintexts have the same plaintext blocks. -/
theorem paddingAmbiguityIsACollision : Obligations.PaddingAmbiguityIsACollision := by
  intro T K iv Q v hQ hv h
  obtain ⟨bs, rfl⟩ := exists_blocks_of_mod hQ
  have hrest : v ≠ [] ∨ bs = [] := h.imp_right fun hnil => by
    simpa using congrArg List.length hnil
  have hsame : plainBlocks (flatten bs ++ v) = plainBlocks (flatten bs ++ (pad v).toList) := by
    have hpadded : flatten bs ++ (pad v).toList = flatten (bs ++ [pad v]) := by simp
    rw [hpadded, plainBlocks_flatten (by simp), plainBlocks_flatten_append bs hv hrest]
  refine ⟨by rw [ecbEnc, ecbEnc, hsame], by rw [cbcEnc, cbcEnc, hsame], ?_, ?_⟩
  · rw [ecbDec_ecbEnc, stripLast_plainBlocks_of_rest bs hv hrest]
  · rw [cbcDec_cbcEnc, stripLast_plainBlocks_of_rest bs hv hrest]

/-! ### Errors in a CBC ciphertext (R213) -/

@[simp] theorem cbcPlain_length (T : SBox) (W : Schedule) (prev : Block) (cs : List Block) :
    (cbcPlain T W prev cs).length = cs.length := by
  induction cs generalizing prev with
  | nil => rfl
  | cons C cs ih => simp [cbcPlain, ih]

/-- Decryption goes on from the last block before. -/
theorem cbcPlain_append (T : SBox) (W : Schedule) (prev : Block) (bs cs : List Block) :
    cbcPlain T W prev (bs ++ cs) =
      cbcPlain T W prev bs ++ cbcPlain T W (bs.getLast?.getD prev) cs := by
  induction bs generalizing prev with
  | nil => rfl
  | cons B bs ih => simp [cbcPlain, ih, List.getLast?_cons]

/-- Settles O58: a cipher block enters its own decryption and, by an XOR, that of the next block. -/
theorem cbcErrorsStayLocal : Obligations.CbcErrorsStayLocal := by
  intro T W iv d C D before after
  refine ⟨⟨by simp, fun k hk hk1 => ?_, ?_⟩, ?_⟩
  · rcases Nat.lt_or_ge k before.length with hlt | hge
    · simp [cbcPlain_append, List.getElem?_append_left, hlt]
    · obtain ⟨n, rfl⟩ : ∃ n, k = before.length + (n + 2) := ⟨k - before.length - 2, by omega⟩
      simp [cbcPlain_append, cbcPlain, List.getElem?_append_right]
  · simp [cbcPlain_append, cbcPlain, xorBlock_assoc]
  · simp [cbcPlain, xorBlock_assoc]

/-! ### The checks and the frame of a file-level command (R204, R214, R260) -/

section FileCommands

variable {s : State}

theorem checkLen_raises {cbc : Bool} (h : ¬ (s.len % 16 = 0 ∧ minCipherLen cbc ≤ s.len)) (k : Ending) :
    checkLen cbc s k = .raises .eLength s :=
  if_neg h

theorem beginFile_raises (h : s.keyValid = false) (k : State → Ending) :
    beginFile s k = .raises .eNoKey s :=
  needKey_raises h _

theorem beginFile_passes (hkey : s.keyValid = true) (hlen : s.len = s.inStream.length)
    (k : State → Ending) : beginFile s k = k (openStreams s) :=
  (needKey_passes hkey _).trans (if_pos hlen)

/-- The state in which a file-level command starts on its blocks. -/
def opened (s : State) : State := openStreams (beginCommand s)

theorem opened_eq (s : State) :
    opened s =
      { s with
        status := setBit 2 true (s.status &&& 0x16#8)
        byteCount := 0
        phase := .blocks
        w := keyExpansion Config.sbox s.key
        tmp := Reg.holding (keyExpansion Config.sbox s.key)[58]
        seq := { s.seq with blk := 0, rpos := 0, wpos := 0 }
        outStream := [] } := by
  simp only [opened, openStreams_eq, beginCommand_eq]

/-- What a file-level command whose checks pass makes of the state `u` in which its loop leaves the blocks
(R214, R259). -/
theorem exec_file {i : Instr} {main : State → State} {u : State} {pad : Bool}
    (hexec : exec i s = endCommand (beginFile (beginCommand s) fun t => endFile (main t)))
    (hkey : s.keyValid = true) (hlen : s.len = s.inStream.length) (hmain : main (opened s) = u)
    (hstatus : u.status = setBit 3 pad (setBit 2 true (s.status &&& 0x16#8))) :
    ∃ q : Sequencer, 8 ≤ q.widx ∧ q.widx ≤ 60 ∧ q.rnd ≤ 14 ∧ exec i s = .next
      { u with
        status := completedStatus s.status pad ||| 0x04
        byteCount := u.seq.wpos
        phase := .idle
        seq := q
        seqDraws := u.seqDraws + 1 } := by
  obtain ⟨q, hlow, hhigh, hrnd, hend⟩ := endFile_eq u
  refine ⟨q, hlow, hhigh, hrnd, ?_⟩
  rw [hexec, beginFile_passes (by simpa using hkey) (by simpa using hlen), ← opened, hmain, hend]
  refine congrArg Host.Outcome.next (complete_expanded s _ pad ?_)
  exact hstatus

theorem checkLen_begin_passes (cbc : Bool) (h16 : s.len % 16 = 0) (hmin : minCipherLen cbc ≤ s.len)
    (k : Ending) : checkLen cbc (beginCommand s) k = k :=
  checkLen_passes (by simpa using h16) (by simpa using hmin) k

/-- The exceptions of a decrypt command: the length is looked at before the key (R204, R260). -/
theorem exec_decrypt_raises {i : Instr} (cbc : Bool) {k : State → Ending}
    (hexec : ∀ s, exec i s = command (fun t => checkLen cbc t (beginFile t k)) s) (s : State) :
    ((s.len % 16 ≠ 0 ∨ s.len < minCipherLen cbc) → exec i s = .next (raised s .eLength)) ∧
    (s.len % 16 = 0 → minCipherLen cbc ≤ s.len → s.keyValid = false →
      exec i s = .next (raised s .eNoKey)) := by
  rw [hexec]
  refine ⟨fun hbad => command_raises (checkLen_raises ?_ _), fun h16 hmin hkey => command_raises ?_⟩
  · rw [beginCommand_len]
    omega
  · rw [checkLen_begin_passes cbc h16 hmin, beginFile_raises (by simpa using hkey)]

end FileCommands

/-! ### The encrypt commands (R205, R207) -/

theorem load_cipher (T : SBox) (B : Block) (W : Schedule) :
    load (cipher T B W) = cipherState T B W :=
  load_unload _

theorem load_invCipher (T : SBox) (B : Block) (W : Schedule) :
    load (invCipher T B W) = invCipherState T B W :=
  load_unload _

@[simp] theorem lastBlock_singleton (B : Block) : lastBlock [B] = B := rfl

@[simp] theorem lastBlock_cons_cons (B C : Block) (bs : List Block) :
    lastBlock (B :: C :: bs) = lastBlock (C :: bs) := by
  simp [lastBlock]

/-- The encrypt loop from the first block on: one turn for each plaintext block. -/
theorem encryptLoop_plainBlocks {body : Block → State → State} (hbody : Advances body) {s : State}
    {P : List Byte} (hin : s.inStream = P) (hlen : s.len = P.length) (hblk : s.seq.blk = 0)
    (hrpos : s.seq.rpos = 0) :
    encryptLoop body (plainReads s) s =
      (plainBlocks P).foldl (fun s B => body B (afterRead s)) s := by
  subst hin
  rw [encryptLoop_eq_foldl hbody _ s hlen (by omega) (by omega) (by rw [hblk]; rfl), hblk, Nat.sub_zero,
    ← List.range_eq_range', hlen, plainBlocks]

/-- The state after the cipher blocks `C` have been made and written, the last of them still in `BUF`. -/
def ciphered (s : State) (C : List Block) (q : Sequencer) : State :=
  { s with
    st := Reg.holding (load (lastBlock C))
    buf := Reg.holding (lastBlock C)
    outStream := s.outStream ++ flatten C
    seq := q }

/-- The `ECB_ENC` loop over at least one block. -/
theorem foldl_ecbEncryptBlock (B : Block) (bs : List Block) (s : State) :
    ∃ q : Sequencer, q.wpos = s.seq.wpos + 16 * (B :: bs).length ∧
      (B :: bs).foldl (fun s B => ecbEncryptBlock B (afterRead s)) s =
        ciphered s (ecbBlocks Config.sbox s.w (B :: bs)) q := by
  induction bs generalizing B s with
  | nil =>
    exact ⟨(ecbEncryptBlock B (afterRead s)).seq, by simp [ecbEncryptBlock_eq],
      by simp [ecbBlocks, ciphered, ecbEncryptBlock_eq, load_cipher]⟩
  | cons C bs ih =>
    obtain ⟨q, hq, hfold⟩ := ih C (ecbEncryptBlock B (afterRead s))
    refine ⟨q, ?_, ?_⟩
    · simp [hq, ecbEncryptBlock_eq]; omega
    · rw [List.foldl_cons, hfold]
      simp [ecbBlocks, ciphered, ecbEncryptBlock_eq]

/-- The `CBC_ENC` loop over at least one block; `PREV` is left holding the last cipher block. -/
theorem foldl_cbcEncryptBlock (B : Block) (bs : List Block) (s : State) :
    ∃ q : Sequencer, q.wpos = s.seq.wpos + 16 * (B :: bs).length ∧
      (B :: bs).foldl (fun s B => cbcEncryptBlock B (afterRead s)) s =
        (ciphered s (cbcBlocks Config.sbox s.w s.prev.value (B :: bs)) q).writePrev
          (lastBlock (cbcBlocks Config.sbox s.w s.prev.value (B :: bs))) := by
  induction bs generalizing B s with
  | nil =>
    exact ⟨(cbcEncryptBlock B (afterRead s)).seq, by simp [cbcEncryptBlock_eq],
      by simp [cbcBlocks, ciphered, cbcEncryptBlock_eq, load_cipher, State.writePrev]⟩
  | cons C bs ih =>
    obtain ⟨q, hq, hfold⟩ := ih C (cbcEncryptBlock B (afterRead s))
    refine ⟨q, ?_, ?_⟩
    · simp [hq, cbcEncryptBlock_eq]; omega
    · rw [List.foldl_cons, hfold]
      simp [cbcBlocks, ciphered, cbcEncryptBlock_eq, State.writePrev]

/-- A plaintext has a first block, if only of padding (R200). -/
theorem plainBlocks_eq_cons (P : List Byte) : ∃ B bs, plainBlocks P = B :: bs :=
  List.exists_cons_of_length_pos (by rw [plainBlocks_length]; exact nbBlocks_pos _)

/-- Everything the loop of `ECB_ENC` does. -/
theorem ecbEncryptLoop_opened {s : State} (hlen : s.len = s.inStream.length) :
    ∃ q : Sequencer, q.wpos = 16 * nbBlocks s.len ∧
      encryptLoop ecbEncryptBlock (plainReads (opened s)) (opened s) =
        ciphered (opened s)
          (ecbBlocks Config.sbox (keyExpansion Config.sbox s.key) (plainBlocks s.inStream)) q := by
  obtain ⟨B, bs, hblocks⟩ := plainBlocks_eq_cons s.inStream
  obtain ⟨q, hwpos, hfold⟩ := foldl_ecbEncryptBlock B bs (opened s)
  rw [← hblocks] at hwpos hfold
  have hw : (opened s).w = keyExpansion Config.sbox s.key := by rw [opened_eq]
  refine ⟨q, by simp [hwpos, hlen, opened_eq], ?_⟩
  rw [encryptLoop_plainBlocks ecbEncryptBlock_advances (P := s.inStream) (by simp [opened_eq])
    (by simp [opened_eq, hlen]) (by simp [opened_eq]) (by simp [opened_eq]), hfold, hw]

/-- Settles O51: the loop is one turn for each plaintext block (`foldl_ecbEncryptBlock`). -/
theorem ecbEncWritesTheEcbCiphertext : Obligations.EcbEncWritesTheEcbCiphertext := by
  refine ⟨rfl, fun s hkey => ?_, fun s hkey hlen => ?_⟩
  · show execEcbEnc s = _
    exact command_raises (beginFile_raises (by simpa using hkey) _)
  · obtain ⟨q, hwpos, hloop⟩ := ecbEncryptLoop_opened hlen
    obtain ⟨q', hlow, hhigh, hrnd, hexec⟩ := exec_file (i := .ecbEnc) (pad := false)
      (main := fun s => encryptLoop ecbEncryptBlock (plainReads s) s) rfl hkey hlen hloop
      (by simp [ciphered, opened_eq, expandedClearedPad_eq])
    refine ⟨q', hlow, hhigh, hrnd, hexec.trans ?_⟩
    simp [ciphered, opened_eq, completed, hwpos]

/-- Everything the IV and the loop of `CBC_ENC` do. -/
theorem cbcEncryptLoop_opened {s : State} (hlen : s.len = s.inStream.length) :
    ∃ q : Sequencer, q.wpos = 16 * (1 + nbBlocks s.len) ∧
      encryptLoop cbcEncryptBlock (plainReads (opened s)) (emitIv (opened s)) =
        (ciphered (emitIv (opened s))
          (cbcBlocks Config.sbox (keyExpansion Config.sbox s.key) s.ivDraw
            (plainBlocks s.inStream)) q).writePrev
          (lastBlock (cbcBlocks Config.sbox (keyExpansion Config.sbox s.key) s.ivDraw
            (plainBlocks s.inStream))) := by
  obtain ⟨B, bs, hblocks⟩ := plainBlocks_eq_cons s.inStream
  obtain ⟨q, hwpos, hfold⟩ := foldl_cbcEncryptBlock B bs (emitIv (opened s))
  rw [← hblocks] at hwpos hfold
  have hw : (emitIv (opened s)).w = keyExpansion Config.sbox s.key := by rw [emitIv_eq, opened_eq]
  have hprev : (emitIv (opened s)).prev.value = s.ivDraw := by rw [emitIv_eq]; simp [opened]
  have hreads : plainReads (opened s) = plainReads (emitIv (opened s)) := by rw [emitIv_eq]; rfl
  refine ⟨q, by simp [hwpos, hlen, emitIv_eq, opened_eq]; omega, ?_⟩
  rw [hreads, encryptLoop_plainBlocks cbcEncryptBlock_advances (P := s.inStream)
    (by simp [emitIv_eq, opened_eq]) (by simp [emitIv_eq, opened_eq, hlen])
    (by simp [emitIv_eq, opened_eq]) (by simp [emitIv_eq, opened_eq]), hfold, hw, hprev]

/-- Settles O53: as `ECB_ENC`, the chain started by the draw of `IVSRC` (`foldl_cbcEncryptBlock`). -/
theorem cbcEncWritesTheCbcCiphertext : Obligations.CbcEncWritesTheCbcCiphertext := by
  refine ⟨rfl, fun s hkey => ?_, fun s hkey hlen => ?_⟩
  · show execCbcEnc s = _
    exact command_raises (beginFile_raises (by simpa using hkey) _)
  · obtain ⟨q, hwpos, hloop⟩ := cbcEncryptLoop_opened hlen
    obtain ⟨q', hlow, hhigh, hrnd, hexec⟩ := exec_file (i := .cbcEnc) (pad := false)
      (main := fun s => encryptLoop cbcEncryptBlock (plainReads s) (emitIv s)) rfl hkey hlen hloop
      (by simp [ciphered, emitIv_eq, opened_eq, expandedClearedPad_eq])
    have hdraw : (opened s).ivDraw = s.ivDraw := by simp [opened]
    refine ⟨q', hlow, hhigh, hrnd, hexec.trans ?_⟩
    simp only [ciphered, emitIv_eq, hdraw]
    simp [opened_eq, completed, hwpos, State.writePrev]

/-! ### The decrypt commands (R206, R208) -/

/-- What a decrypt command has still to read is the blocks `cs`. -/
def Pending (s : State) (cs : List Block) : Prop :=
  s.len = s.inStream.length ∧ s.inStream.drop s.seq.rpos = flatten cs

theorem Pending.availableBytes_eq {s : State} {C : Block} {cs : List Block}
    (h : Pending s (C :: cs)) : availableBytes s = 16 := by
  obtain ⟨hlen, hrest⟩ := h
  have hlength : s.inStream.length - s.seq.rpos = 16 + 16 * cs.length := by
    simpa using congrArg List.length hrest
  rw [availableBytes]
  omega

theorem Pending.cipherBlock_eq {s : State} {C : Block} {cs : List Block}
    (h : Pending s (C :: cs)) : cipherBlock s = C := by
  have ⟨_, hrest⟩ := h
  rw [cipherBlock, inBytes, memRead, hrest, h.availableBytes_eq, blockOf_take, flatten_cons,
    blockOf_toList_append]

theorem Pending.afterRead {s : State} {C : Block} {cs : List Block} (h : Pending s (C :: cs)) :
    Pending (afterRead s) cs := by
  have ⟨hlen, hrest⟩ := h
  refine ⟨hlen, ?_⟩
  rw [afterRead_seq, h.availableBytes_eq, afterRead_inStream, ← List.drop_drop, hrest, flatten_cons]
  exact drop_toList_append C _ 0

/-- The state after the plaintext blocks `P` have been made and written, the last of them still in `BUF`
and through the padding verification. -/
def deciphered (s : State) (S : Matrix) (P : List Block) (q : Sequencer) : State :=
  { s with
    status := setBit 3 (padOK (lastBlock P)) s.status
    st := Reg.holding S
    buf := Reg.holding (lastBlock P)
    outStream := s.outStream ++ stripLast P
    seq := q }

/-- The `ECB_DEC` loop over at least one block. -/
theorem decryptLoop_ecb {s : State} {C : Block} {cs : List Block} (h : Pending s (C :: cs)) :
    ∃ q : Sequencer, q.wpos = s.seq.wpos + (stripLast (ecbPlain Config.sbox s.w (C :: cs))).length ∧
      decryptLoop ecbDecryptBlock (C :: cs).length s =
        deciphered s (load (lastBlock (ecbPlain Config.sbox s.w (C :: cs))))
          (ecbPlain Config.sbox s.w (C :: cs)) q := by
  induction cs generalizing C s with
  | nil =>
    exact ⟨(ecbDecryptBlock true s).seq,
      by simp [ecbDecryptBlock_eq, writePlain_eq, h.cipherBlock_eq, ecbPlain, stripLast], by
      simp [decryptLoop, ecbDecryptBlock_eq, writePlain_eq, h.cipherBlock_eq, nextBlockIndex,
        deciphered, ecbPlain, stripLast, load_invCipher]⟩
  | cons D cs ih =>
    have hnext : Pending (ecbDecryptBlock false s) (D :: cs) := by
      rw [ecbDecryptBlock_eq, writePlain_eq]
      exact h.afterRead
    obtain ⟨q, hq, hloop⟩ := ih hnext
    refine ⟨q, ?_, ?_⟩
    · simp [hq, ecbDecryptBlock_eq, writePlain_eq, h.cipherBlock_eq, ecbPlain, stripLast]; omega
    · rw [List.length_cons, decryptLoop_succ]
      refine hloop.trans ?_
      simp [ecbDecryptBlock_eq, writePlain_eq, h.cipherBlock_eq, nextBlockIndex, deciphered, ecbPlain,
        stripLast]

/-- The `CBC_DEC` loop over at least one block; `PREV` and `SAVE` are left holding the last ciphertext
block. -/
theorem decryptLoop_cbc {s : State} {C : Block} {cs : List Block} (h : Pending s (C :: cs)) :
    ∃ q : Sequencer,
      q.wpos = s.seq.wpos +
        (stripLast (cbcPlain Config.sbox s.w s.prev.value (C :: cs))).length ∧
      decryptLoop cbcDecryptBlock (C :: cs).length s =
        ((deciphered s (load (invCipher Config.sbox (lastBlock (C :: cs)) s.w))
          (cbcPlain Config.sbox s.w s.prev.value (C :: cs)) q).writePrev
            (lastBlock (C :: cs))).writeSave (lastBlock (C :: cs)) := by
  induction cs generalizing C s with
  | nil =>
    exact ⟨(cbcDecryptBlock true s).seq,
      by simp [cbcDecryptBlock_eq, writePlain_eq, h.cipherBlock_eq, cbcPlain, stripLast], by
      simp [decryptLoop, cbcDecryptBlock_eq, writePlain_eq, h.cipherBlock_eq, nextBlockIndex,
        deciphered, cbcPlain, stripLast, load_invCipher, State.writePrev, State.writeSave]⟩
  | cons D cs ih =>
    have hnext : Pending (cbcDecryptBlock false s) (D :: cs) := by
      rw [cbcDecryptBlock_eq, writePlain_eq]
      exact h.afterRead
    obtain ⟨q, hq, hloop⟩ := ih hnext
    refine ⟨q, ?_, ?_⟩
    · simp [hq, cbcDecryptBlock_eq, writePlain_eq, h.cipherBlock_eq, cbcPlain, stripLast]; omega
    · rw [List.length_cons, decryptLoop_succ]
      refine hloop.trans ?_
      simp [cbcDecryptBlock_eq, writePlain_eq, h.cipherBlock_eq, nextBlockIndex, deciphered, cbcPlain,
        stripLast, State.writePrev, State.writeSave]

theorem deciphered_opened_status (s : State) (S : Matrix) (P : List Block) (q : Sequencer) :
    (deciphered (opened s) S P q).status =
      setBit 3 (padOK (lastBlock P)) (setBit 2 true (s.status &&& 0x16#8)) := by
  rw [deciphered, opened_eq]

theorem opened_pending {s : State} {cs : List Block} (hlen : s.len = s.inStream.length)
    (h : s.inStream = flatten cs) : Pending (opened s) cs := by
  rw [opened_eq]
  exact ⟨hlen, h⟩

theorem Pending.takeIv {s : State} {C : Block} {cs : List Block} (h : Pending s (C :: cs)) :
    Pending (takeIv s) cs :=
  have ⟨hlen, hrest⟩ := h.afterRead
  ⟨hlen, hrest⟩

/-- Everything the loop of `ECB_DEC` does. -/
theorem ecbDecryptLoop_opened {s : State} (h16 : s.len % 16 = 0) (hmin : 16 ≤ s.len)
    (hlen : s.len = s.inStream.length) :
    let P := ecbPlain Config.sbox (keyExpansion Config.sbox s.key) (wholeBlocks s.inStream)
    ∃ q : Sequencer, q.wpos = (stripLast P).length ∧
      decryptLoop ecbDecryptBlock (cipherBlocks false (opened s).len) (opened s) =
        deciphered (opened s) (load (lastBlock P)) P q := by
  obtain ⟨cs, hcs⟩ := exists_blocks_of_mod (hlen ▸ h16)
  obtain ⟨C, cs, rfl⟩ : ∃ C ds, cs = C :: ds :=
    List.exists_cons_of_length_pos (by rw [hcs, flatten_length] at hlen; omega)
  obtain ⟨q, hwpos, hloop⟩ := decryptLoop_ecb (opened_pending hlen hcs)
  have hw : (opened s).w = keyExpansion Config.sbox s.key := by rw [opened_eq]
  have hcount : cipherBlocks false (opened s).len = (C :: cs).length := by
    simp [cipherBlocks, opened_eq, hlen, hcs]
  rw [hw] at hwpos hloop
  rw [hcs, wholeBlocks_flatten, hcount]
  exact ⟨q, by simp [hwpos, opened_eq], hloop⟩

/-- Settles O52: the checks in the order of R260, then one turn for each cipher block
(`decryptLoop_ecb`). -/
theorem ecbDecWritesTheEcbPlaintext : Obligations.EcbDecWritesTheEcbPlaintext := by
  have raises := exec_decrypt_raises (i := .ecbDec) false fun _ => rfl
  refine ⟨rfl, fun s => (raises s).1, fun s => (raises s).2, fun s h16 hmin hkey hlen => ?_⟩
  obtain ⟨q, hwpos, hloop⟩ := ecbDecryptLoop_opened h16 hmin hlen
  obtain ⟨q', hlow, hhigh, hrnd, hexec⟩ := exec_file (i := .ecbDec)
    (main := fun s => decryptLoop ecbDecryptBlock (cipherBlocks false s.len) s)
    (congrArg endCommand (checkLen_begin_passes false h16 hmin _)) hkey hlen hloop
    (deciphered_opened_status ..)
  refine ⟨q', hlow, hhigh, hrnd, hexec.trans ?_⟩
  simp [deciphered, opened_eq, completed, hwpos]

/-- Everything the IV and the loop of `CBC_DEC` do. -/
theorem cbcDecryptLoop_opened {s : State} (h16 : s.len % 16 = 0) (hmin : 32 ≤ s.len)
    (hlen : s.len = s.inStream.length) :
    let W := keyExpansion Config.sbox s.key
    let C := (wholeBlocks s.inStream).tail
    let P := cbcPlain Config.sbox W ((wholeBlocks s.inStream).headD zeroBlock) C
    ∃ q : Sequencer, q.wpos = (stripLast P).length ∧
      decryptLoop cbcDecryptBlock (cipherBlocks true (opened s).len) (takeIv (opened s)) =
        ((deciphered (opened s) (load (invCipher Config.sbox (lastBlock C) W)) P q).writePrev
          (lastBlock C)).writeSave (lastBlock C) := by
  obtain ⟨cs, hcs⟩ := exists_blocks_of_mod (hlen ▸ h16)
  obtain ⟨iv, cs, rfl⟩ : ∃ C ds, cs = C :: ds :=
    List.exists_cons_of_length_pos (by rw [hcs, flatten_length] at hlen; omega)
  obtain ⟨C, cs, rfl⟩ : ∃ C ds, cs = C :: ds :=
    List.exists_cons_of_length_pos (by
      rw [hcs, flatten_length, List.length_cons] at hlen; omega)
  have hpending := opened_pending hlen hcs
  obtain ⟨q, hwpos, hloop⟩ := decryptLoop_cbc hpending.takeIv
  have hw : (takeIv (opened s)).w = keyExpansion Config.sbox s.key := by
    simp [takeIv, opened_eq]
  have hprev : (takeIv (opened s)).prev.value = iv := hpending.cipherBlock_eq
  have hcount : cipherBlocks true (opened s).len = (C :: cs).length := by
    simp [cipherBlocks, opened_eq, hlen, hcs]
  rw [hw, hprev] at hwpos hloop
  rw [hcs, wholeBlocks_flatten, hcount]
  refine ⟨q, by simpa [takeIv, opened_eq] using hwpos, hloop.trans ?_⟩
  simp [deciphered, takeIv, State.writePrev, State.writeSave]

/-- Settles O54: as `ECB_DEC`, the chain started by the first block of `IN` (`decryptLoop_cbc`). -/
theorem cbcDecWritesTheCbcPlaintext : Obligations.CbcDecWritesTheCbcPlaintext := by
  have raises := exec_decrypt_raises (i := .cbcDec) true fun _ => rfl
  refine ⟨rfl, fun s => (raises s).1, fun s => (raises s).2, fun s h16 hmin hkey hlen => ?_⟩
  obtain ⟨q, hwpos, hloop⟩ := cbcDecryptLoop_opened h16 hmin hlen
  obtain ⟨q', hlow, hhigh, hrnd, hexec⟩ := exec_file (i := .cbcDec)
    (main := fun s => decryptLoop cbcDecryptBlock (cipherBlocks true s.len) (takeIv s))
    (congrArg endCommand (checkLen_begin_passes true h16 hmin _)) hkey hlen hloop
    ((writeSave_status ..).trans <| (writePrev_status ..).trans <| deciphered_opened_status ..)
  refine ⟨q', hlow, hhigh, hrnd, hexec.trans ?_⟩
  simp [deciphered, opened_eq, completed, hwpos, State.writePrev, State.writeSave]

end Sys2Proof.Machine

/-! The family `60_exceptions.md`: which exception a command reports (R251 to R254, R259, R260). The checks
of a command stand before its first write, so its body follows `firstFailure` check by check
(`FollowsChecks`). That gives one law for all 32 commands (`exec_reports`), and each of the four exceptions is
read off it. -/

namespace Sys2Proof.Machine

open Sys2Proof.Safety

/-! ### A body and the first check it fails -/

/-- A file-level command with `LEN` different from the length of `IN`: outside the spec (R30). -/
def FalseLength (i : Instr) (s : State) : Prop := fileLevel i = true ∧ s.len ≠ s.inStream.length

/-- How the body of `i` may end when it starts in `s` and `failure` is the first check that fails on its way:
it raises that exception before its first write; with no failing check it is refused on a false length, and
otherwise it completes (R259, R260). -/
inductive FollowsChecks (i : Instr) (s : State) : (failure : Option Exc) → Ending → Prop where
  | raises (e : Exc) : FollowsChecks i s (some e) (.raises e s)
  | refuses (h : FalseLength i s) : FollowsChecks i s none (.refuses .lenNotInputLength)
  | completes {u : State} (h : ¬ FalseLength i s) : FollowsChecks i s none (.completes u)

namespace FollowsChecks

variable {i : Instr} {s : State} {f : Option Exc} {k : Ending}

/-! #### The checks in front of the rest of a body: `f` is what fails after them -/

theorem checkLen {cbc : Bool} (h : FollowsChecks i s f k) :
    FollowsChecks i s (if badLength cbc s.len then some .eLength else f) (checkLen cbc s k) := by
  rcases checkLen_cases cbc s k with ⟨hlen, e⟩ | ⟨hlen, e⟩ <;> rw [hlen, e]
  · exact h
  · exact .raises _

theorem needKey (h : FollowsChecks i s f k) :
    FollowsChecks i s (if !s.keyValid then some .eNoKey else f) (needKey s k) := by
  rcases needKey_cases s k with ⟨hkey, e⟩ | ⟨hkey, e⟩ <;> rw [hkey, e]
  · exact h
  · exact .raises _

theorem needSchedule (h : FollowsChecks i s f k) :
    FollowsChecks i s (if !s.ksValid then some .eNoKey else f) (needSchedule s k) := by
  rcases needSchedule_cases s k with ⟨hks, e⟩ | ⟨hks, e⟩ <;> rw [hks, e]
  · exact h
  · exact .raises _

theorem needWritten {α : Type} {r : Reg α} {k : α → Ending} (h : FollowsChecks i s f (k r.value)) :
    FollowsChecks i s (if !r.written then some .eUninit else f) (needWritten r s k) := by
  rcases needWritten_cases r s k with ⟨hr, e⟩ | ⟨hr, e⟩ <;> rw [hr, e]
  · exact h
  · exact .raises _

/-- Two registers read one after the other are one check of `failsWritten`. -/
theorem needBothWritten {α β : Type} {r : Reg α} {r' : Reg β} {k : α → β → Ending}
    (h : FollowsChecks i s f (k r.value r'.value)) :
    FollowsChecks i s (if !r.written || !r'.written then some .eUninit else f)
      (Machine.needWritten r s fun a => Machine.needWritten r' s (k a)) := by
  rcases needWritten_cases r s fun a => Machine.needWritten r' s (k a) with ⟨hr, e⟩ | ⟨hr, e⟩ <;>
    rw [hr, e]
  · exact needWritten h
  · exact .raises _

theorem needAtMost {max : Nat} {a : Byte} {k : Fin (max + 1) → Ending}
    (h : ∀ n, FollowsChecks i s f (k n)) :
    FollowsChecks i s (if decide (max < a.toNat) then some .eReserved else f)
      (needAtMost max a s k) := by
  rcases needAtMost_cases max a s k with ⟨hle, e⟩ | ⟨hgt, e⟩ <;> rw [e]
  · rw [if_neg (by simpa using hle)]
    exact h _
  · rw [if_pos (by simpa using hgt)]
    exact .raises _

/-- `Begin` checks the key and refuses a false length; past it a file-level command completes. -/
theorem file {main : State → State} (hi : fileLevel i = true) :
    FollowsChecks i s (if !s.keyValid then some .eNoKey else none)
      (beginFile s fun u => endFile (main u)) := by
  rcases beginFile_cases s fun u => endFile (main u) with
    ⟨hkey, e⟩ | ⟨hkey, hne, e⟩ | ⟨hkey, heq, e⟩ <;> rw [hkey, e]
  · exact .raises _
  · exact .refuses ⟨hi, hne⟩
  · exact .completes fun hfalse => hfalse.2 heq

/-- The end of a command that does not look at `IN`. -/
theorem done {u : State} (hi : fileLevel i = false) : FollowsChecks i s none (.completes u) :=
  .completes fun ⟨hfile, _⟩ => Bool.false_ne_true (hi.symm.trans hfile)

/-! #### How a body ends, given the first check it fails -/

theorem eq_raises {e : Exc} (h : FollowsChecks i s (some e) k) : k = .raises e s := by
  cases h
  rfl

theorem eq_refuses (h : FollowsChecks i s none k) (hfalse : FalseLength i s) :
    k = .refuses .lenNotInputLength := by
  cases h with
  | refuses => rfl
  | completes htrue => exact absurd hfalse htrue

theorem eq_completes (h : FollowsChecks i s none k) (htrue : ¬ FalseLength i s) :
    ∃ u, k = .completes u := by
  cases h with
  | refuses hfalse => exact absurd hfalse htrue
  | completes => exact ⟨_, rfl⟩

end FollowsChecks

/-! ### What a command answers -/

/-- The first line of the frame touches nothing that a check looks at. -/
@[simp] theorem firstFailure_beginCommand (i : Instr) (s : State) :
    firstFailure i (beginCommand s) = firstFailure i s := by
  have hkey : failsKey i (beginCommand s) = failsKey i s := by cases i <;> simp [failsKey]
  rw [firstFailure, hkey, beginCommand_eq]
  rfl

/-- All that a command can answer, by its first failing check (R259, R260). -/
inductive Reports (i : Instr) (s : State) : Result → Prop where
  | raises {e : Exc} (h : firstFailure i s = some e) : Reports i s (.next (raised s e))
  | refuses (h : firstFailure i s = none) (hfalse : FalseLength i s) :
      Reports i s (.refused .lenNotInputLength)
  | completes {u : State} (h : firstFailure i s = none) (htrue : ¬ FalseLength i s) :
      Reports i s (.next (completeCommand u))

theorem command_reports {i : Instr} {s : State} {body : State → Ending}
    (hbody : ∀ u, FollowsChecks i u (firstFailure i u) (body u)) : Reports i s (command body s) := by
  have hends := hbody (beginCommand s)
  rw [firstFailure_beginCommand] at hends
  cases hfirst : firstFailure i s with
  | some e =>
    rw [hfirst] at hends
    rw [command_raises hends.eq_raises]
    exact .raises hfirst
  | none =>
    rw [hfirst] at hends
    by_cases hlen : FalseLength i s
    · rw [command_refuses (hends.eq_refuses hlen)]
      exact .refuses hfirst hlen
    · obtain ⟨u, hu⟩ := hends.eq_completes hlen
      rw [command_completes hu]
      exact .completes hfirst hlen

section PerCommand

variable {s : State}

theorem execEcbEnc_reports : Reports .ecbEnc s (execEcbEnc s) :=
  command_reports fun _ => .file rfl

theorem execEcbDec_reports : Reports .ecbDec s (execEcbDec s) :=
  command_reports fun _ => .checkLen (.file rfl)

theorem execCbcEnc_reports : Reports .cbcEnc s (execCbcEnc s) :=
  command_reports fun _ => .file rfl

theorem execCbcDec_reports : Reports .cbcDec s (execCbcDec s) :=
  command_reports fun _ => .checkLen (.file rfl)

theorem execBlkEnc_reports : Reports .blkEnc s (execBlkEnc s) :=
  command_reports fun _ => .needSchedule <| .needWritten <| .done rfl

theorem execBlkDec_reports : Reports .blkDec s (execBlkDec s) :=
  command_reports fun _ => .needSchedule <| .needWritten <| .done rfl

theorem execKeyExp_reports : Reports .keyExp s (execKeyExp s) :=
  command_reports fun _ => .needKey <| .done rfl

theorem execRconRd_reports : Reports .rconRd s (execRconRd s) :=
  command_reports fun _ => .needWritten <| .needAtMost fun _ => .done rfl

theorem execRdw_reports : Reports .rdw s (execRdw s) :=
  command_reports fun _ => .needSchedule <| .needWritten <| .needAtMost fun _ => .done rfl

theorem execLoadSt_reports : Reports .loadSt s (execLoadSt s) :=
  command_reports fun _ => .needWritten <| .done rfl

theorem execUnloadSt_reports : Reports .unloadSt s (execUnloadSt s) :=
  command_reports fun _ => .needWritten <| .done rfl

theorem execAddRoundKey_reports : Reports .addRoundKey s (execAddRoundKey s) :=
  command_reports fun _ => .needSchedule <| .needBothWritten <| .needAtMost fun _ => .done rfl

theorem execPad_reports : Reports .pad s (execPad s) :=
  command_reports fun _ => .needBothWritten <| .needAtMost fun _ => .done rfl

theorem execUnpad_reports : Reports .unpad s (execUnpad s) :=
  command_reports fun _ => .needWritten <| .done rfl

theorem execXorPrev_reports : Reports .xorPrev s (execXorPrev s) :=
  command_reports fun _ => .needBothWritten <| .done rfl

end PerCommand

/-- Every command reports its first failing check. -/
theorem exec_reports (i : Instr) (s : State) : Reports i s (exec i s) := by
  cases i with
  | ecbEnc => exact execEcbEnc_reports
  | ecbDec => exact execEcbDec_reports
  | cbcEnc => exact execCbcEnc_reports
  | cbcDec => exact execCbcDec_reports
  | blkEnc => exact execBlkEnc_reports
  | blkDec => exact execBlkDec_reports
  | keyExp => exact execKeyExp_reports
  | xtime | mul02 | mul03 | mul09 | mul0b | mul0d | mul0e | sboxRd | invSboxRd =>
    exact command_reports (body := byteUnit _) fun _ => .needWritten <| .done rfl
  | rconRd => exact execRconRd_reports
  | rdw => exact execRdw_reports
  | rotWord | subWord =>
    exact command_reports (body := wordUnit _) fun _ => .needWritten <| .done rfl
  | loadSt => exact execLoadSt_reports
  | unloadSt => exact execUnloadSt_reports
  | subBytes | shiftRows | mixColumns | invSubBytes | invShiftRows | invMixColumns =>
    exact command_reports (body := matrixUnit _) fun _ => .needWritten <| .done rfl
  | addRoundKey => exact execAddRoundKey_reports
  | pad => exact execPad_reports
  | unpad => exact execUnpad_reports
  | xorPrev => exact execXorPrev_reports

/-- The frame clears `ERR` and no body writes it, so it is still 0 when a command has set `DONE` (R31). -/
theorem Answers.err_of_done {rs : List Target} {s t : State} (h : Answers rs s t)
    (hdone : t.done = true) : t.err = 0 := by
  cases h with
  | completed hu => rw [completeCommand_err, hu.err, beginCommand_err]
  | raised e => simp at hdone

/-- Settles O11: `exec_reports` case by case; a completed command has `DONE` set, so `ERR` is still as the
frame cleared it. -/
theorem commandsReportTheFirstFailingCheck : Obligations.CommandsReportTheFirstFailingCheck := by
  intro i s
  have hreports := exec_reports i s
  generalize hexec : exec i s = r at hreports
  cases hreports with
  | raises h => rw [h]
  | refuses h hfalse =>
    rw [h]
    exact (if_pos hfalse).mpr rfl
  | completes h htrue =>
    rw [h]
    exact (if_neg htrue).mpr
      ⟨_, rfl, completeCommand_done _, (exec_answers hexec).err_of_done (completeCommand_done _), rfl⟩

/-! ### The four exceptions, each by its check -/

/-- The codes of R250 tell the exceptions apart. -/
theorem code_injective {e e' : Exc} (h : e.code = e'.code) : e = e' := by
  cases e <;> cases e' <;> simp [Exc.code] at h ⊢

section Exceptions

variable {i : Instr} {s t : State} {e : Exc}

theorem firstFailure_eLength_iff : firstFailure i s = some .eLength ↔ failsLength i s = true := by
  unfold firstFailure
  split_ifs <;> simp_all

theorem firstFailure_eNoKey_iff :
    firstFailure i s = some .eNoKey ↔ failsLength i s = false ∧ failsKey i s = true := by
  unfold firstFailure
  split_ifs <;> simp_all

theorem firstFailure_eUninit_iff :
    firstFailure i s = some .eUninit ↔
      failsLength i s = false ∧ failsKey i s = false ∧ failsWritten i s = true := by
  unfold firstFailure
  split_ifs <;> simp_all

theorem firstFailure_eReserved_iff :
    firstFailure i s = some .eReserved ↔
      failsLength i s = false ∧ failsKey i s = false ∧ failsWritten i s = false ∧
        failsRange i s = true := by
  unfold firstFailure
  split_ifs <;> simp_all

theorem exec_raises (h : firstFailure i s = some e) : exec i s = .next (raised s e) := by
  have hreports := commandsReportTheFirstFailingCheck i s
  rwa [h] at hreports

/-- A code in `ERR` after a command names its first failing check (R31, R250). -/
theorem firstFailure_of_err (hexec : exec i s = .next t) (herr : t.err = e.code) :
    firstFailure i s = some e := by
  have hreports := exec_reports i s
  rw [hexec] at hreports
  cases hreports with
  | raises h => rw [h, code_injective ((raised_err _ s).symm.trans herr)]
  | completes =>
    have hzero := (exec_answers hexec).err_of_done (completeCommand_done _)
    exact absurd (herr.symm.trans hzero) (code_ne_zero e)

end Exceptions

/-! #### `E_LENGTH` and `E_NOKEY` (R251, R253) -/

theorem badLength_iff (cbc : Bool) (n : Nat) :
    badLength cbc n = true ↔ n % 16 ≠ 0 ∨ n < minCipherLen cbc := by
  simp [badLength, minCipherLen]

theorem badLength_eq_false {cbc : Bool} {n : Nat} (h16 : n % 16 = 0) (hmin : minCipherLen cbc ≤ n) :
    badLength cbc n = false := by
  rw [← Bool.not_eq_true, badLength_iff]
  omega

/-- Settles O17: `E_LENGTH` is reported exactly when the length check fails, and the encrypt commands have
none. -/
theorem unacceptableLengthRaisesELength : Obligations.UnacceptableLengthRaisesELength := by
  intro s
  have raises {i : Instr} (h : failsLength i s = true) : exec i s = .next (raised s .eLength) :=
    exec_raises (firstFailure_eLength_iff.mpr h)
  have passes {i : Instr} {t : State} (h : failsLength i s = false) (hexec : exec i s = .next t) :
      t.err ≠ 1 := fun herr => by
    rw [firstFailure_eLength_iff.mp (firstFailure_of_err (e := .eLength) hexec herr)] at h
    cases h
  exact ⟨fun hbad => raises ((badLength_iff false _).mpr hbad),
    fun hbad => raises ((badLength_iff true _).mpr hbad),
    fun _ h16 hmin => passes (badLength_eq_false h16 hmin),
    fun _ h16 hmin => passes (badLength_eq_false h16 hmin), fun _ => passes rfl, fun _ => passes rfl⟩

/-- Settles O19: the length check passes or is not there, and the check of the key or the schedule fails. -/
theorem missingKeyOrScheduleRaisesENoKey : Obligations.MissingKeyOrScheduleRaisesENoKey := by
  intro s
  have raises {i : Instr} (hlen : failsLength i s = false) (hkey : failsKey i s = true) :
      exec i s = .next (raised s .eNoKey) :=
    exec_raises (firstFailure_eNoKey_iff.mpr ⟨hlen, hkey⟩)
  refine ⟨fun h => ?_, fun h => ?_⟩
  · have hkey : (!s.keyValid) = true := by rw [h]; rfl
    exact ⟨raises rfl hkey, raises rfl hkey, raises rfl hkey,
      fun h16 hmin => raises (badLength_eq_false h16 hmin) hkey,
      fun h16 hmin => raises (badLength_eq_false h16 hmin) hkey⟩
  · have hks : (!s.ksValid) = true := by rw [h]; rfl
    exact ⟨raises rfl hks, raises rfl hks, raises rfl hks, raises rfl hks⟩

/-! #### `E_RESERVED` (R252) -/

/-- Settles O18: the decoder reserves the listed words (O2) and a reserved word raises in the frame; of the
four commands with a small operand, the range is the one check that fails. -/
theorem reservedWordOrOperandRaisesEReserved : Obligations.ReservedWordOrOperandRaisesEReserved := by
  refine ⟨fun s c rest hhost hlisted => ?_, fun s hopa => ?_⟩
  · have hnone := (reservedWordsAreTheListedOnes c).mpr hlisted
    rw [step_writeCmd hhost]
    cases hdecode : decode c with
    | command i => exact absurd hdecode (hnone i)
    | reserved why => exact writeCommand_reserved hdecode _
  · have raises {i : Instr} (hlen : failsLength i s = false) (hkey : failsKey i s = false)
        (hwritten : failsWritten i s = false) (hrange : failsRange i s = true) :
        exec i s = .next (raised s .eReserved) :=
      exec_raises (firstFailure_eReserved_iff.mpr ⟨hlen, hkey, hwritten, hrange⟩)
    refine ⟨fun hgt => ?_, fun hgt hks => ?_, fun hgt hks hst => ?_, fun hgt hbuf => ?_⟩
    · exact raises rfl rfl (by simp [failsWritten, hopa]) (decide_eq_true hgt)
    · exact raises rfl (by simp [failsKey, hks]) (by simp [failsWritten, hopa]) (decide_eq_true hgt)
    · exact raises rfl (by simp [failsKey, hks]) (by simp [failsWritten, hst, hopa])
        (decide_eq_true hgt)
    · exact raises rfl rfl (by simp [failsWritten, hopa, hbuf]) (decide_eq_true hgt)

/-! #### `E_UNINIT` (R254) -/

theorem exec_raises_eUninit {i : Instr} {s : State} (hlen : failsLength i s = false)
    (hkey : failsKey i s = false) (hwritten : failsWritten i s = true) :
    exec i s = .next (raised s .eUninit) :=
  exec_raises (firstFailure_eUninit_iff.mpr ⟨hlen, hkey, hwritten⟩)

theorem failsWritten_fileLevel {i : Instr} (h : fileLevel i = true) (s : State) :
    failsWritten i s = false := by
  rcases (fileLevel_iff i).mp h with rfl | rfl | rfl | rfl <;> rfl

/-- Settles O20: each command of a list has no length check, its schedule check passes, and the unwritten
register is among those of `failsWritten`, which holds of no file-level command. -/
theorem unwrittenRegisterRaisesEUninit : Obligations.UnwrittenRegisterRaisesEUninit := by
  intro s
  refine ⟨fun i hi hopa => ?_, fun i hi hks hopa => ?_, fun i hi htmp => ?_, fun i hi hbuf => ?_,
    fun i hi hks hbuf => ?_, fun i hi hst => ?_, fun hks hst => ?_, fun hprev => ?_,
    fun i t hi hexec herr => ?_⟩
  · fin_cases hi <;> exact exec_raises_eUninit rfl rfl (by simp [failsWritten, hopa])
  · rcases hi with rfl | rfl <;>
      exact exec_raises_eUninit rfl (by simp [failsKey, hks]) (by simp [failsWritten, hopa])
  · rcases hi with rfl | rfl <;> exact exec_raises_eUninit rfl rfl (by simp [failsWritten, htmp])
  · fin_cases hi <;> exact exec_raises_eUninit rfl rfl (by simp [failsWritten, hbuf])
  · rcases hi with rfl | rfl <;>
      exact exec_raises_eUninit rfl (by simp [failsKey, hks]) (by simp [failsWritten, hbuf])
  · fin_cases hi <;> exact exec_raises_eUninit rfl rfl (by simp [failsWritten, hst])
  · exact exec_raises_eUninit rfl (by simp [failsKey, hks]) (by simp [failsWritten, hst])
  · exact exec_raises_eUninit rfl rfl (by simp [failsWritten, hprev])
  · have hfirst := firstFailure_of_err (e := .eUninit) hexec herr
    obtain ⟨-, -, hwritten⟩ := firstFailure_eUninit_iff.mp hfirst
    rw [failsWritten_fileLevel hi] at hwritten
    cases hwritten

end Sys2Proof.Machine

/-! The step without an access of HOST (70_reset_and_hazards.md R280). -/

namespace Sys2Proof.Machine

/-- Settles O5: with no access to take, `step` answers its state (`step_idle`). -/
theorem idleCoreWaits : Obligations.IdleCoreWaits := by
  intro s hhost
  exact step_idle hhost

end Sys2Proof.Machine
